-- ==== Sys2Proof/Word.lean ====
section
/-! DEFINITION. The word type of the block: the 8-bit byte (spec/00_scope.md R8, spec/20_memory.md R50),
and sequences of bytes (R9). -/

namespace Sys2Proof

/-- A byte, an unsigned integer 0..255 whose bit 7 is the most significant (R8). -/
abbrev Byte := BitVec 8

/-- A byte sequence (R9): "bytes" in a type position of the spec. -/
abbrev Bytes := List Byte

end Sys2Proof
end

