-- ==== Sys2Proof/Config.lean ====
section
/-! DEFINITION. The configuration record `Cfg` of spec/00_scope.md R5, the configuration the machine
holds right after reset, and the free values: constants with no body that stand for what the spec leaves
unspecified. -/

namespace Sys2Proof

/-- `CODEC` (R5, R100): a closed set of two variants. The generator of the CRC variant is the field `g`
of `Cfg`, as in the register map of spec/10_state.md R32. -/
inductive CodecKind where
  | parity
  | crc
  deriving DecidableEq, Repr

/-- `Cfg` (R5). `none` in a capacity or in `timeW` is the spec's "unbounded". -/
structure Cfg where
  /-- `START`. -/
  start : Byte
  /-- `STOP`. -/
  stop : Byte
  /-- `ESCAPE`. -/
  escape : Byte
  /-- `CODEC`. -/
  codec : CodecKind
  /-- `G`: bit `i` is the coefficient of `x^i`, the leading term included. -/
  g : Nat
  /-- `N` (`SEQ_MOD`). -/
  seqMod : Nat
  /-- `T` (`RETRANSMIT_TIMEOUT`). -/
  timeout : Nat
  /-- `TIME_W`. -/
  timeW : Option Nat
  /-- `MAX_PAYLOAD`. -/
  maxPayload : Option Nat
  /-- `RXBUF_CAP`. -/
  rxbufCap : Option Nat
  /-- `TXQ_DEPTH`. -/
  txqDepth : Option Nat
  deriving DecidableEq, Repr

/-- The configuration `State.reset` holds: the spec's default for every field that has one (R5), and for
the OPEN fields `CODEC`, `G`, `T`, `TIME_W` the default configuration of spec/95_test_vectors.md with
`T = 10`. DESIGN CHOICE (log entry 5), unsafe for a claim about `State.reset` alone: every other
configuration is reached by a RESET operation. -/
def Cfg.default : Cfg where
  start := 0x7B
  stop := 0x7D
  escape := 0x5C
  codec := .parity
  g := 0
  seqMod := 128
  timeout := 10
  timeW := none
  maxPayload := none
  rxbufCap := none
  txqDepth := none

/-- FREE VALUE (log entry 8, safe): what `pendingFrame` holds once it becomes unspecified
(spec/93_implementation_defined.md U2). The argument is the counter `State.freeCount`. -/
opaque Config.freeFrame : Nat → Bytes

/-- FREE VALUE (log entry 8, safe): what `pendingTimestamp` holds once it becomes unspecified (U2). -/
opaque Config.freeTime : Nat → Nat

/-- FREE VALUE (log entry 10, safe): the value CRC_REMAINDER returns for a generator with
`deg(G) <= 0`, for which spec/40_codec.md R102 states no result. -/
opaque Config.crcOfShortGenerator : Bytes → Nat → Nat

end Sys2Proof
end

