-- ==== Sys2Proof/Machine/Derived.lean ====
section
/-! DEFINITION. What spec/00_scope.md derives from a configuration: `cfg_valid` (R6), `deg`, `d`, `W`,
`PAD` (R7), and which byte values are reserved (R71). -/

namespace Sys2Proof

/-- `deg(G)` (R7): the index of the highest set bit; `deg(0)` is taken as -1. -/
def deg (g : Nat) : Int := if g = 0 then -1 else (Nat.log2 g : Int)

/-- `d` (R7): the checksum width in bits. -/
def Cfg.checksumBits (c : Cfg) : Nat :=
  match c.codec with
  | .parity => 1
  | .crc => (deg c.g).toNat

/-- `W = ceil(d / 8)` (R7): the checksum block width in bytes. -/
def Cfg.checksumBytes (c : Cfg) : Nat := (c.checksumBits + 7) / 8

/-- `PAD = 8*W - d` (R7): the number of zero pad bits. -/
def Cfg.padBits (c : Cfg) : Nat := 8 * c.checksumBytes - c.checksumBits

/-- R6 clause (a): the three reserved bytes are pairwise distinct. -/
def Cfg.reservedDistinct (c : Cfg) : Bool :=
  c.start != c.stop && c.start != c.escape && c.stop != c.escape

/-- R6 clause (d): `T` is representable in `TIME_W` bits. -/
def Cfg.timeoutFits (c : Cfg) : Bool :=
  match c.timeW with
  | none => true
  | some w => decide (c.timeout < 2 ^ w)

/-- `cfg_valid(Cfg)` (R6), clauses (a) to (d). -/
def Cfg.valid (c : Cfg) : Bool :=
  c.reservedDistinct
    && (c.codec == .parity || decide (1 ≤ deg c.g))
    && (decide (2 ≤ c.seqMod) && decide (c.seqMod ≤ 256))
    && c.timeoutFits

/-- Whether a byte value is one of the reserved bytes `START`, `STOP`, `ESCAPE` (R71). -/
def Cfg.isReserved (c : Cfg) (b : Byte) : Bool :=
  b == c.start || b == c.stop || b == c.escape

/-- Whether `n` is within a capacity; `none` is unbounded (R61). -/
def fits (cap : Option Nat) (n : Nat) : Bool :=
  match cap with
  | none => true
  | some k => decide (n ≤ k)

end Sys2Proof
end

