-- ==== Sys2Proof/Syntax.lean ====
section
/-! DEFINITION. What the block can be asked to do. `Instr` has one constructor per row of
spec/opcode_table.json; `Request` is the form in which each of them reaches the block. -/

namespace Sys2Proof

/-- The rows of spec/opcode_table.json. -/
inductive Instr where
  /-- RESET (R220). -/
  | reset (cfg : Cfg)
  /-- SEND (R171). -/
  | send (payload : Bytes)
  /-- CYCLE (R172). -/
  | cycle (now : Nat) (rx : Bytes)
  /-- PARITY (R101). -/
  | parity (bytes : Bytes)
  /-- CRC_REMAINDER (R102). -/
  | crcRemainder (bytes : Bytes) (g : Nat)
  /-- APPEND_CHECKSUM (R105). -/
  | appendChecksum (bytes : Bytes)
  /-- VERIFY (R106, R107). -/
  | verify (full : Bytes)
  /-- ENCODE (R121). -/
  | encode (body : Bytes)
  /-- TRY_DECODE (R122). -/
  | tryDecode
  /-- SUBMIT (R141). -/
  | submit (payload : Bytes) (now : Nat)
  /-- ON_FRAME_RECEIVED (R142). -/
  | onFrameReceived (raw : Bytes)
  /-- ON_TICK (R151). -/
  | onTick (now : Nat)
  /-- START: a byte of that class arrives from the medium (R71). -/
  | start
  /-- STOP: a byte of that class arrives (R71). -/
  | stop
  /-- ESCAPE: a byte of that class arrives (R71). -/
  | escape
  /-- LITERAL: any other byte arrives (R71). -/
  | literal (b : Byte)
  /-- DATA: a body whose byte 0 is 0x00 arrives (R75, R80). -/
  | data (seq : Byte) (payload checksum : Bytes)
  /-- ACK: a body whose byte 0 is 0x01 arrives (R75, R80). -/
  | ack (seq : Byte) (payload checksum : Bytes)
  /-- RESERVED_ACKFLAG: a body whose byte 0 is 0x02..0xFF arrives (R81). -/
  | reservedAckflag (flag seq : Byte) (payload checksum : Bytes)
  /-- DATAFRAME (R89). -/
  | dataframe (s : Byte) (p : Bytes)
  /-- ACKFRAME (R89). -/
  | ackframe (s : Byte)
  deriving DecidableEq, Repr

/-- One request to the block, in the encoding of its layer (R70). DESIGN CHOICE (log entry 1). -/
inductive Request where
  /-- The bytes of one operation at the command port: its number (R87) and its operands. -/
  | command (bytes : Bytes)
  /-- One byte of the wire layer (R71). -/
  | wire (b : Byte)
  /-- One de-stuffed body (R75). -/
  | body (raw : Bytes)
  /-- The builder DATAFRAME, which the spec gives no encoding (R89). -/
  | buildData (s : Byte) (p : Bytes)
  /-- The builder ACKFRAME, which the spec gives no encoding (R89). -/
  | buildAck (s : Byte)
  deriving DecidableEq, Repr

/-- Why the decoder refuses a command. -/
inductive DecodeError where
  /-- No byte at all. -/
  | emptyCommand
  /-- An operation number of 12 or above (spec/93_implementation_defined.md section 2: not defined). -/
  | undefinedOperation (number : Byte)
  /-- The operands are cut short, or a CODEC byte is neither 0 nor 1 (R32). -/
  | badOperands
  /-- Bytes follow the operands. -/
  | trailingBytes
  deriving DecidableEq, Repr

end Sys2Proof
end

