-- ==== Sys2Proof/Decode.lean ====
section
/-! DEFINITION. The decoder, total on every request, and after it the encoder.

The byte classes (spec/30_encoding.md R71), the body layout (R75) and the frame types (R80) are the spec's.
The spec numbers the twelve operations (R87) and gives their operands no coding: the coding of a command's
operands here is the model's own, DESIGN CHOICE (log entry 2). A natural number is written in base 128, low
digit first, bit 7 of a byte saying that another follows; a byte sequence is its length and then its bytes;
an unbounded parameter is 0. -/

namespace Sys2Proof

/-! ## The decoder -/

/-- A natural number at the front of a command. -/
def natDecode : Bytes → Option (Nat × Bytes)
  | [] => none
  | b :: t =>
    if b.toNat < 128 then some (b.toNat, t)
    else
      match natDecode t with
      | none => none
      | some (h, r) => some (b.toNat - 128 + 128 * h, r)

/-- The next `n` bytes. -/
def takeBytes (n : Nat) (bs : Bytes) : Option (Bytes × Bytes) :=
  if bs.length < n then none else some (bs.take n, bs.drop n)

/-- A byte sequence at the front of a command; `extra` is added to the length read (1 where the operand
is never empty, else 0). -/
def bytesDecode (extra : Nat) (bs : Bytes) : Option (Bytes × Bytes) :=
  match natDecode bs with
  | none => none
  | some (n, r) => takeBytes (n + extra) r

/-- A parameter that may be unbounded, where 0 is a legal value: 0 is unbounded and `k + 1` is `k`. -/
def capDecode (bs : Bytes) : Option (Option Nat × Bytes) :=
  match natDecode bs with
  | none => none
  | some (0, r) => some (none, r)
  | some (k + 1, r) => some (some k, r)

/-- `TIME_W`: 0 is unbounded, every other value is the width. -/
def widthDecode (bs : Bytes) : Option (Option Nat × Bytes) :=
  match natDecode bs with
  | none => none
  | some (0, r) => some (none, r)
  | some (k + 1, r) => some (some (k + 1), r)

/-- `CFG_CODEC`: 0 is Parity, 1 is CRC (R32). -/
def codecDecode (b : Byte) : Option CodecKind :=
  if b = 0 then some .parity else if b = 1 then some .crc else none

/-- The configuration record, in the order of the registers of R32 and then of R5. -/
def cfgDecode : Bytes → Option (Cfg × Bytes)
  | start :: stop :: escape :: codec :: t => do
    let codec ← codecDecode codec
    let (g, t) ← natDecode t
    let (seqMod, t) ← natDecode t
    let (timeout, t) ← natDecode t
    let (timeW, t) ← widthDecode t
    let (maxPayload, t) ← capDecode t
    let (rxbufCap, t) ← capDecode t
    let (txqDepth, t) ← capDecode t
    some (⟨start, stop, escape, codec, g, seqMod, timeout, timeW, maxPayload, rxbufCap, txqDepth⟩, t)
  | _ => none

/-- The operands of operation number `op` (R87); `none` where they are cut short or malformed. -/
def operandsDecode (op : Nat) (t : Bytes) : Option (Instr × Bytes) :=
  match op with
  | 0 => do let (cfg, t) ← cfgDecode t; some (.reset cfg, t)
  | 1 => do let (payload, t) ← bytesDecode 0 t; some (.send payload, t)
  | 2 => do let (now, t) ← natDecode t; let (rx, t) ← bytesDecode 0 t; some (.cycle now rx, t)
  | 3 => do let (bytes, t) ← bytesDecode 0 t; some (.parity bytes, t)
  | 4 => do let (bytes, t) ← bytesDecode 0 t; let (g, t) ← natDecode t; some (.crcRemainder bytes g, t)
  | 5 => do let (bytes, t) ← bytesDecode 1 t; some (.appendChecksum bytes, t)
  | 6 => do let (full, t) ← bytesDecode 0 t; some (.verify full, t)
  | 7 => do let (body, t) ← bytesDecode 0 t; some (.encode body, t)
  | 8 => some (.tryDecode, t)
  | 9 => do let (payload, t) ← bytesDecode 0 t; let (now, t) ← natDecode t; some (.submit payload now, t)
  | 10 => do let (raw, t) ← bytesDecode 0 t; some (.onFrameReceived raw, t)
  | 11 => do let (now, t) ← natDecode t; some (.onTick now, t)
  | _ => none

/-- A command at the front of a byte sequence, and what follows it. -/
def decodeCommand : Bytes → Except DecodeError (Instr × Bytes)
  | [] => .error .emptyCommand
  | op :: t =>
    if 12 ≤ op.toNat then .error (.undefinedOperation op)
    else
      match operandsDecode op.toNat t with
      | none => .error .badOperands
      | some r => .ok r

/-- The class of a byte on the wire (R71). -/
def classifyByte (c : Cfg) (b : Byte) : Instr :=
  if b = c.start then .start
  else if b = c.stop then .stop
  else if b = c.escape then .escape
  else .literal b

/-- The frame type of a body (R75, R80, R81), with the payload length recovered as `B - 2 - W`. A body
shorter than `2 + W` has no two header bytes and is none of the three types; it goes to
ON_FRAME_RECEIVED, which drops it (R83; log entry 16). -/
def classifyBody (c : Cfg) (raw : Bytes) : Instr :=
  if raw.length < 2 + c.checksumBytes then .onFrameReceived raw
  else
    match raw with
    | flag :: seq :: t =>
      let payload := t.take (t.length - c.checksumBytes)
      let checksum := t.drop (t.length - c.checksumBytes)
      if flag = 0 then .data seq payload checksum
      else if flag = 1 then .ack seq payload checksum
      else .reservedAckflag flag seq payload checksum
    | _ => .onFrameReceived raw

/-- The decoder. -/
def decode (c : Cfg) : Request → Except DecodeError Instr
  | .command bytes =>
    match decodeCommand bytes with
    | .error e => .error e
    | .ok (i, []) => .ok i
    | .ok (_, _ :: _) => .error .trailingBytes
  | .wire b => .ok (classifyByte c b)
  | .body raw => .ok (classifyBody c raw)
  | .buildData s p => .ok (.dataframe s p)
  | .buildAck s => .ok (.ackframe s)

/-! ## The encoder -/

/-- `natCode` with at most `fuel` further bytes. -/
def natCodeAux : Nat → Nat → Bytes
  | 0, n => [BitVec.ofNat 8 n]
  | fuel + 1, n =>
    if n < 128 then [BitVec.ofNat 8 n]
    else BitVec.ofNat 8 (128 + n % 128) :: natCodeAux fuel (n / 128)

/-- A natural number, in base 128. -/
def natCode (n : Nat) : Bytes := natCodeAux n n

/-- A byte sequence after its length, less `extra`. -/
def bytesCode (extra : Nat) (bs : Bytes) : Bytes := natCode (bs.length - extra) ++ bs

/-- A capacity. -/
def capCode : Option Nat → Bytes
  | none => natCode 0
  | some k => natCode (k + 1)

/-- `TIME_W`. -/
def widthCode : Option Nat → Bytes
  | none => natCode 0
  | some w => natCode w

/-- `CFG_CODEC` (R32). -/
def codecCode : CodecKind → Byte
  | .parity => 0
  | .crc => 1

/-- The configuration record. -/
def cfgCode (c : Cfg) : Bytes :=
  [c.start, c.stop, c.escape, codecCode c.codec] ++ natCode c.g ++ natCode c.seqMod ++ natCode c.timeout
    ++ widthCode c.timeW ++ capCode c.maxPayload ++ capCode c.rxbufCap ++ capCode c.txqDepth

/-- The request that stands for an instruction: the operation numbers of R87, the byte values of R71, the
body layout of R75 with the `ackFlag` values of R80. -/
def encode (c : Cfg) : Instr → Request
  | .reset cfg => .command (0 :: cfgCode cfg)
  | .send payload => .command (1 :: bytesCode 0 payload)
  | .cycle now rx => .command (2 :: (natCode now ++ bytesCode 0 rx))
  | .parity bytes => .command (3 :: bytesCode 0 bytes)
  | .crcRemainder bytes g => .command (4 :: (bytesCode 0 bytes ++ natCode g))
  | .appendChecksum bytes => .command (5 :: bytesCode 1 bytes)
  | .verify full => .command (6 :: bytesCode 0 full)
  | .encode body => .command (7 :: bytesCode 0 body)
  | .tryDecode => .command [8]
  | .submit payload now => .command (9 :: (bytesCode 0 payload ++ natCode now))
  | .onFrameReceived raw => .command (10 :: bytesCode 0 raw)
  | .onTick now => .command (11 :: natCode now)
  | .start => .wire c.start
  | .stop => .wire c.stop
  | .escape => .wire c.escape
  | .literal b => .wire b
  | .data seq payload checksum => .body (0 :: seq :: (payload ++ checksum))
  | .ack seq payload checksum => .body (1 :: seq :: (payload ++ checksum))
  | .reservedAckflag flag seq payload checksum => .body (flag :: seq :: (payload ++ checksum))
  | .dataframe s p => .buildData s p
  | .ackframe s => .buildAck s

/-! ## The table's words -/

/-- The bytes of a table word of `nbits` bits, the first byte first, and then operand bytes of zeros:
enough for the longest command whose operands are all zero (RESET, eleven operand bytes). -/
def tableBytes (nbits w : Nat) : Bytes :=
  (List.range ((nbits + 7) / 8)).map (fun k => BitVec.ofNat 8 (w >>> (8 * k))) ++ List.replicate 16 0

/-- The instruction the decoder reads from a table word. -/
def decodeTableWord (nbits w : Nat) : Option Instr :=
  match decodeCommand (tableBytes nbits w) with
  | .ok (i, _) => some i
  | .error _ => none

/-- The bytes of a table word that the decoder reads: those of one command and none after them. -/
def tableCommand (nbits w : Nat) : Bytes :=
  match decodeCommand (tableBytes nbits w) with
  | .ok (_, rest) => (tableBytes nbits w).take ((tableBytes nbits w).length - rest.length)
  | .error _ => tableBytes nbits w

end Sys2Proof
end

