-- ==== Sys2Proof/Machine/State.lean ====
section
/-! DEFINITION. The state of one link endpoint (spec/10_state.md R20 to R28, R35), the configuration it
has latched (spec/70_reset_and_hazards.md R220), the outputs of the operation last executed (spec/00_scope.md
R11), and the reasons a step can stop. -/

namespace Sys2Proof.Machine

/-- `sendState` (R21). -/
inductive SendState where
  | idle
  | awaitingAck
  deriving DecidableEq, Repr

/-- The diagnostic events of spec/60_exceptions.md R195, with the information each carries. -/
inductive Event where
  | txData (seq : Byte)
  | txRetx (seq : Byte)
  | txAck (seq : Byte)
  | deliver (seq : Byte)
  | ackAccept (seq : Byte)
  | ackIgnored (seq : Byte)
  | dupData (seq : Byte)
  | dropChecksum
  | dropShort
  | dropReserved
  | dropFuture (seq : Byte)
  | resync
  | garbage (count : Nat)
  deriving DecidableEq, Repr

/-- The result value of an operation (spec/30_encoding.md R87, column "result"). -/
inductive Result where
  /-- The operation returns no value. -/
  | none
  /-- RESET raised `ConfigError` (spec/60_exceptions.md R194). -/
  | configError
  /-- SEND: the payload was queued. -/
  | accepted
  /-- SEND: the queue is full. -/
  | full
  /-- CYCLE: the result is the outputs `tx`, `deliveries`, `events`. -/
  | outputs
  /-- PARITY. -/
  | bit (b : Bool)
  /-- CRC_REMAINDER. -/
  | remainder (r : Nat)
  /-- APPEND_CHECKSUM, ENCODE and the builders. -/
  | bytes (bs : Bytes)
  /-- VERIFY. -/
  | verdict (b : Bool)
  /-- TRY_DECODE: a frame with this body. -/
  | frame (body : Bytes)
  /-- TRY_DECODE: no complete frame. -/
  | incomplete
  /-- SUBMIT: the frame was transmitted. -/
  | sent
  /-- SUBMIT: a frame is outstanding. -/
  | busy
  deriving DecidableEq, Repr

/-- The machine stops. Only a command that is no operation stops it so. -/
inductive Fault where
  /-- Raised by `step` when the decoder refuses the command at the head of `inbox`: an operation number
  the spec does not define (spec/93_implementation_defined.md section 2), or operands cut short. Safe: the
  spec gives such a command no effect, and none is modelled. -/
  | undecodable (e : DecodeError)
  deriving DecidableEq, Repr

/-- The spec gives the operation no meaning on these operands (spec/00_scope.md R11, `refuse`). Every one
is named by spec/60_exceptions.md R205 or by the rule cited beside it, and is safe: "A model should have no
step there". -/
inductive Refusal where
  /-- An instruction that has no meaning in the model. No arm of `exec` answers so. -/
  | notModelled (mnemonic : String)
  /-- Any operation but RESET while `fault = 1` (R28, R194). -/
  | faulted
  /-- SEND of a payload longer than `MAX_PAYLOAD` (R171), or SUBMIT of one while the sender is Idle (R141; log
entry 13). -/
  | payloadTooLong
  /-- CYCLE, or a byte from the medium, that would overflow `RXBUF_CAP` (R61, R174). -/
  | rxbufOverflow
  /-- With `TIME_W = unbounded`: CYCLE with a `now` smaller than an earlier CYCLE's, or ON_TICK with a `now`
  smaller than the timestamp it is compared with (R152, V-A20). -/
  | timeBackward
  /-- APPEND_CHECKSUM of the empty sequence (R105). -/
  | emptyInput
  /-- RESET with a generator whose degree exceeds `DEG_MAX` (R32). -/
  | cfgNotExpressible
  deriving DecidableEq, Repr

/-- One endpoint. The first eight fields are the tuple of R20. -/
structure State where
  /-- `fault` (R28). -/
  fault : Bool
  /-- `sendState` (R21). -/
  sendState : SendState
  /-- `currentSendSeq` (R22). -/
  currentSendSeq : Byte
  /-- `nextExpectedSeq` (R23). -/
  nextExpectedSeq : Byte
  /-- `pendingFrame` (R24). -/
  pendingFrame : Bytes
  /-- `pendingTimestamp` (R25). -/
  pendingTimestamp : Nat
  /-- `rxbuf` (R26). -/
  rxbuf : Bytes
  /-- `txq` (R27), the head first. -/
  txq : List Bytes
  /-- The configuration latched by the last RESET (R220): the registers `CFG_*` of R32 and the other
  fields of R5. -/
  cfg : Cfg
  /-- `DEG_MAX` (R32): the highest generator degree of the implementation. Nothing writes it
  (log entry 6). -/
  degMax : Option Nat
  /-- The value the last operation returned (R11; log entry 4). -/
  result : Result
  /-- The bytes the last operation transmitted (R10, R177). -/
  tx : Bytes
  /-- The payloads the last operation delivered (R10, R179). -/
  deliveries : List Bytes
  /-- The events of the last operation (R10, R195). -/
  events : List Event
  /-- The `now` of the latest CYCLE since the last RESET, 0 before it (R205; log entry 12). -/
  lastNow : Nat
  /-- How many times the pending fields have become unspecified: picks the next free value
  (log entry 9). -/
  freeCount : Nat
  /-- The requests made of the block and not yet executed, the oldest first (log entry 1). -/
  inbox : List Request
  deriving DecidableEq, Repr

/-- The state right after reset: the values of R35 under the default configuration (log entry 5).
`pendingFrame` and `pendingTimestamp`, which R35 leaves unspecified, hold the values of log entry 7. -/
def State.reset : State where
  fault := false
  sendState := .idle
  currentSendSeq := 0
  nextExpectedSeq := 0
  pendingFrame := []
  pendingTimestamp := 0
  rxbuf := []
  txq := []
  cfg := Cfg.default
  degMax := none
  result := .none
  tx := []
  deliveries := []
  events := []
  lastNow := 0
  freeCount := 0
  inbox := []

end Sys2Proof.Machine
end

