-- ==== Sys2Proof/Machine/Ops.lean ====
section
/-! DEFINITION. The named operations over the state that every meaning is written with: the outputs
(spec/00_scope.md R10), the buffer primitives (spec/20_memory.md R51), the pending-send state
(spec/10_state.md R24, R25), raising `ConfigError` (spec/60_exceptions.md R194), and how an operation is
taken from the inbox and answered. -/

namespace Sys2Proof.Machine

/-! ## Outputs (R10) -/

/-- The outputs of the previous operation are gone when the next begins (log entry 4). -/
def State.begin (s : State) : State := { s with result := .none, tx := [], deliveries := [], events := [] }

/-- `transmit(bytes)`. -/
def State.transmit (s : State) (bytes : Bytes) : State := { s with tx := s.tx ++ bytes }

/-- `deliver(payload)`. -/
def State.deliver (s : State) (payload : Bytes) : State := { s with deliveries := s.deliveries ++ [payload] }

/-- `event(EV_x, info)`. -/
def State.event (s : State) (e : Event) : State := { s with events := s.events ++ [e] }

/-- The value the operation returns. -/
def State.returns (s : State) (r : Result) : State := { s with result := r }

/-! ## Buffer primitives (R51) -/

/-- `BufAppend(rxbuf, bytes)`, refused if it would exceed `RXBUF_CAP` (R61, R174). -/
def State.bufAppend (s : State) (bytes : Bytes) : Except Refusal State :=
  if fits s.cfg.rxbufCap (s.rxbuf ++ bytes).length then .ok { s with rxbuf := s.rxbuf ++ bytes }
  else .error .rxbufOverflow

/-- `BufTrim(rxbuf, k)`. -/
def State.bufTrim (s : State) (k : Nat) : State := { s with rxbuf := s.rxbuf.drop k }

/-- `QPush(txq, p)`. -/
def State.qPush (s : State) (p : Bytes) : State := { s with txq := s.txq ++ [p] }

/-- `QPop(txq)`, for a queue whose head is known. -/
def State.qPop (s : State) : State := { s with txq := s.txq.drop 1 }

/-! ## The pending-send state (R24, R25) -/

/-- A time value as the `TIME_W` bits of the `now` port hold it (R152; log entry 11). -/
def timeOperand (c : Cfg) (now : Nat) : Nat :=
  match c.timeW with
  | none => now
  | some w => now % 2 ^ w

/-- `pendingFrame, pendingTimestamp become unspecified` (R145, R220, U2): each takes a free value
(log entry 8), and the counter that picks free values advances (log entry 9). -/
def State.forgetPending (s : State) : State :=
  { s with
    pendingFrame := Config.freeFrame s.freeCount
    pendingTimestamp := timeOperand s.cfg (Config.freeTime s.freeCount)
    freeCount := s.freeCount + 1 }

/-! ## The one exception (R194) -/

/-- `raise ConfigError`: the `fault` latch is set and RESET returns the error. Nothing is saved, no mode
changes and control goes nowhere (R198); there is no return (R199). -/
def State.raiseConfigError (s : State) : State := { s with fault := true, result := .configError }

/-! ## Fetching and answering -/

/-- The oldest request, and the state without it. -/
def State.fetch (s : State) : Option (Request × State) :=
  match s.inbox with
  | [] => none
  | r :: rest => some (r, { s with inbox := rest })

/-- The outcome of an operation that completes or is refused (R11). -/
def answer : Except Refusal State → Host.Outcome State Fault Refusal
  | .ok s => .next s
  | .error r => .refused r

/-- Every operation but RESET: refused while `fault = 1` (R28, R170), else run on cleared outputs. -/
def operation (s : State) (k : State → Except Refusal State) : Host.Outcome State Fault Refusal :=
  if s.fault then .refused .faulted else answer (k s.begin)

/-- A request put at the head of the inbox. -/
def State.request (s : State) (r : Request) : State := { s with inbox := r :: s.inbox }

end Sys2Proof.Machine
end

