-- ==== Sys2Proof/Machine/Codec.lean ====
section
/-! DEFINITION. The Error-Detection Codec (spec/40_codec.md): PARITY, CRC_REMAINDER, APPEND_CHECKSUM and
VERIFY as functions, and the meanings of the four operations. -/

namespace Sys2Proof.Machine

/-! ## The computations -/

/-- `PARITY(bytes)` (R101): the XOR of every bit. -/
def parity (bs : Bytes) : Bool :=
  bs.foldl (fun p b => (List.range 8).foldl (fun p i => p ^^ b.getLsbD i) p) false

/-- The integer whose big-endian bytes are `bs`: bit `i` is the coefficient of `x^i` in `poly(bs)`
(spec/00_scope.md R9, spec/20_memory.md R52). -/
def beNat (bs : Bytes) : Nat := bs.foldl (fun m b => m * 256 + b.toNat) 0

/-- Long division over GF(2) (R102): for `k` from `n + d - 1` down to `d`, clear bit `k` of `m` with
`G << (k - d)`. -/
def longDivide (g d : Nat) : Nat → Nat → Nat
  | 0, m => m
  | n + 1, m => longDivide g d n (if m.testBit (n + d) then m ^^^ (g <<< n) else m)

/-- `CRC_REMAINDER(bytes, G)` (R102), for `deg(G) >= 1`; below that the spec states no result
(log entry 10). -/
def crcRemainder (bs : Bytes) (g : Nat) : Nat :=
  if 1 ≤ deg g then longDivide g (deg g).toNat (8 * bs.length) (beNat bs <<< (deg g).toNat)
  else Config.crcOfShortGenerator bs g

/-- The `d`-bit checksum `R` of the covered bytes (R104). -/
def checksumValue (c : Cfg) (covered : Bytes) : Nat :=
  match c.codec with
  | .parity => (parity covered).toNat
  | .crc => crcRemainder covered c.g

/-- The bytes of a `W`-byte value, most significant first (spec/30_encoding.md R79). -/
def blockBytes (w v : Nat) : Bytes :=
  (List.range w).map fun k => BitVec.ofNat 8 (v >>> (8 * (w - 1 - k)))

/-- `CHECKSUM(C)` (R104): `R << PAD` in `W` bytes. -/
def checksumBlock (c : Cfg) (covered : Bytes) : Bytes :=
  blockBytes c.checksumBytes (checksumValue c covered <<< c.padBits)

/-- `APPEND_CHECKSUM(bytes)` (R105), for a sequence that is not empty. -/
def appendChecksum (c : Cfg) (bs : Bytes) : Bytes := bs ++ checksumBlock c bs

/-- The Parity variant of VERIFY past its length check (R107): the stored bit is bit 7 of the last byte,
and the seven pad bits are zero. -/
def verifyParity (full : Bytes) : Bool :=
  let last := full.getD (full.length - 1) 0
  parity (full.take (full.length - 1)) == last.getLsbD 7 && last &&& 0x7F == 0

/-- `VERIFY(full)` (R106, R107). -/
def verify (c : Cfg) (full : Bytes) : Bool :=
  if full.length < c.checksumBytes + 1 then false
  else
    match c.codec with
    | .parity => verifyParity full
    | .crc => crcRemainder full c.g == 0

/-- The bit-serial form of CRC_REMAINDER (R103): one shift of the `d`-bit register. -/
def crcShift (g d : Nat) (r : Nat) (bit : Bool) : Nat :=
  let shifted := (r <<< 1) % 2 ^ d
  if r.testBit (d - 1) ^^ bit then shifted ^^^ (g % 2 ^ d) else shifted

/-- The bit-serial form (R103): the bits of each byte, bit 7 first. -/
def crcSerial (bs : Bytes) (g : Nat) : Nat :=
  bs.foldl (fun r b => (List.range 8).foldl (fun r i => crcShift g (deg g).toNat r (b.getLsbD (7 - i))) r) 0

/-! ## The operations -/

/-- PARITY (R101). -/
def execParity (bytes : Bytes) (s : State) : Host.Outcome State Fault Refusal :=
  operation s fun s => .ok (s.returns (.bit (parity bytes)))

/-- CRC_REMAINDER (R102). -/
def execCrcRemainder (bytes : Bytes) (g : Nat) (s : State) : Host.Outcome State Fault Refusal :=
  operation s fun s => .ok (s.returns (.remainder (crcRemainder bytes g)))

/-- APPEND_CHECKSUM (R105): the empty sequence is refused. -/
def execAppendChecksum (bytes : Bytes) (s : State) : Host.Outcome State Fault Refusal :=
  operation s fun s =>
    if bytes.isEmpty then .error .emptyInput else .ok (s.returns (.bytes (appendChecksum s.cfg bytes)))

/-- VERIFY (R106, R107). -/
def execVerify (full : Bytes) (s : State) : Host.Outcome State Fault Refusal :=
  operation s fun s => .ok (s.returns (.verdict (verify s.cfg full)))

end Sys2Proof.Machine
end

