-- ==== Sys2Proof/Machine/Framer.lean ====
section
/-! DEFINITION. The Framer (spec/41_framer.md): ENCODE and TRY_DECODE as functions of the reserved bytes
and the buffer, the meanings of the two operations, and the streaming machine of R127. -/

namespace Sys2Proof.Machine

/-! ## ENCODE -/

/-- `stuff1(b)` (spec/30_encoding.md R73). -/
def stuffByte (c : Cfg) (b : Byte) : Bytes := if c.isReserved b then [c.escape, b] else [b]

/-- `stuff(body)` (R73). -/
def stuff (c : Cfg) (body : Bytes) : Bytes := body.flatMap (stuffByte c)

/-- `ENCODE(body)` (R121). -/
def encodeFrame (c : Cfg) (body : Bytes) : Bytes := [c.start] ++ stuff c body ++ [c.stop]

/-! ## TRY_DECODE -/

/-- What the hunt phase leaves (R123): how many bytes are garbage, whether an unescaped `START` follows
them, and the buffer without them. -/
structure Hunted where
  garbage : Nat
  found : Bool
  rest : Bytes
  deriving DecidableEq, Repr

/-- `k` more bytes of garbage in front. -/
def Hunted.skip (k : Nat) (h : Hunted) : Hunted := { h with garbage := h.garbage + k }

/-- The hunt phase (R123). -/
def hunt (c : Cfg) : Bytes → Hunted
  | [] => ⟨0, false, []⟩
  | [b] =>
    if b = c.escape then ⟨0, false, [b]⟩
    else if b = c.start then ⟨0, true, [b]⟩
    else ⟨1, false, []⟩
  | b :: x :: t =>
    if b = c.escape then (hunt c t).skip 2
    else if b = c.start then ⟨0, true, b :: x :: t⟩
    else (hunt c (x :: t)).skip 1

/-- What the collect phase leaves (R124): how often it resynchronised, the body if a frame ended, and the
buffer after it. -/
structure Collected where
  resyncs : Nat
  frame : Option Bytes
  rest : Bytes
  deriving DecidableEq, Repr

/-- One more resynchronisation in front. -/
def Collected.resynced (k : Collected) : Collected := { k with resyncs := k.resyncs + 1 }

/-- The collect phase (R124). `cur` is the buffer from the current `START` on, the second list is what of
it is still to be scanned, `acc` the body collected. -/
def collect (c : Cfg) (cur : Bytes) : Bytes → Bytes → Collected
  | [], _ => ⟨0, none, cur⟩
  | [b], acc =>
    if b = c.escape then ⟨0, none, cur⟩
    else if b = c.stop then ⟨0, some acc, []⟩
    else if b = c.start then ⟨1, none, [b]⟩
    else ⟨0, none, cur⟩
  | b :: x :: t, acc =>
    if b = c.escape then collect c cur t (acc ++ [x])
    else if b = c.stop then ⟨0, some acc, x :: t⟩
    else if b = c.start then (collect c (b :: x :: t) (x :: t) []).resynced
    else collect c cur (x :: t) (acc ++ [b])

/-- What one call of TRY_DECODE finds in a buffer: the events it raises, its result, and the buffer it
leaves. `frame = none` is `incomplete` (R122). -/
structure Scan where
  garbage : Nat
  resyncs : Nat
  frame : Option Bytes
  rest : Bytes
  deriving DecidableEq, Repr

/-- One call of TRY_DECODE (R122): hunt, then collect from the `START` found. Discards are committed
whatever the result (R125). -/
def scan (c : Cfg) (buf : Bytes) : Scan :=
  let h := hunt c buf
  if h.found then
    let k := collect c h.rest (h.rest.drop 1) []
    ⟨h.garbage, k.resyncs, k.frame, k.rest⟩
  else ⟨h.garbage, 0, none, h.rest⟩

/-- The events of a call, in the order raised (R123, R124, R195). -/
def scanEvents (k : Scan) : List Event :=
  (if k.garbage = 0 then [] else [.garbage k.garbage]) ++ List.replicate k.resyncs .resync

/-- The result of a call (R122). -/
def scanResult (k : Scan) : Result :=
  match k.frame with
  | some body => .frame body
  | none => .incomplete

/-- TRY_DECODE on the endpoint's receive buffer: `rxbuf` is trimmed from the front, and nothing else but
the events and the result changes (R120). -/
def State.tryDecode (s : State) : State :=
  let k := scan s.cfg s.rxbuf
  let trimmed := s.bufTrim (s.rxbuf.length - k.rest.length)
  { trimmed with events := s.events ++ scanEvents k, result := scanResult k }

/-! ## The streaming machine (R127) -/

/-- The four states of the byte-at-a-time machine, with its one store. -/
inductive Stream where
  | hunt
  | huntEsc
  | collect (acc : Bytes)
  | collectEsc (acc : Bytes)
  deriving DecidableEq, Repr

/-- One transition of the machine, and the frame it emits, if any (the table of R127). -/
def streamByte (c : Cfg) (m : Stream) (b : Byte) : Stream × Option Bytes :=
  match m with
  | .hunt => if b = c.escape then (.huntEsc, none) else if b = c.start then (.collect [], none) else (.hunt, none)
  | .huntEsc => (.hunt, none)
  | .collect acc =>
    if b = c.escape then (.collectEsc acc, none)
    else if b = c.stop then (.hunt, some acc)
    else if b = c.start then (.collect [], none)
    else (.collect (acc ++ [b]), none)
  | .collectEsc acc => (.collect (acc ++ [b]), none)

/-- The machine over a stream: its last state and the frames it emits, in order. -/
def streamRun (c : Cfg) : Stream → Bytes → Stream × List Bytes
  | m, [] => (m, [])
  | m, b :: t =>
    let (m', emitted) := streamByte c m b
    let (last, frames) := streamRun c m' t
    (last, emitted.toList ++ frames)

/-- The buffer form: TRY_DECODE called until `incomplete`, at most `fuel` times. The frames in order, and
the buffer left. -/
def extract (c : Cfg) : Nat → Bytes → List Bytes × Bytes
  | 0, buf => ([], buf)
  | fuel + 1, buf =>
    let k := scan c buf
    match k.frame with
    | none => ([], k.rest)
    | some body =>
      let (frames, rest) := extract c fuel k.rest
      (body :: frames, rest)

/-- TRY_DECODE called until `incomplete`: each call but the last removes at least two bytes (R175), so
`len(buf) + 1` calls are enough. -/
def extractAll (c : Cfg) (buf : Bytes) : List Bytes × Bytes := extract c (buf.length + 1) buf

/-! ## The operations -/

/-- ENCODE (R121). -/
def execEncode (body : Bytes) (s : State) : Host.Outcome State Fault Refusal :=
  operation s fun s => .ok (s.returns (.bytes (encodeFrame s.cfg body)))

/-- TRY_DECODE (R122 to R125). -/
def execTryDecode (s : State) : Host.Outcome State Fault Refusal :=
  operation s fun s => .ok s.tryDecode

end Sys2Proof.Machine
end

