-- ==== Sys2Proof/Machine/Frames.lean ====
section
/-! DEFINITION. The frame builders of spec/30_encoding.md R89 and their meanings. -/

namespace Sys2Proof.Machine

/-- `DATAFRAME(s, p) = ENCODE(APPEND_CHECKSUM([0x00, s] ++ p))` (R89). -/
def dataFrame (c : Cfg) (seq : Byte) (payload : Bytes) : Bytes :=
  encodeFrame c (appendChecksum c ([0x00, seq] ++ payload))

/-- `ACKFRAME(s) = ENCODE(APPEND_CHECKSUM([0x01, s]))` (R89). -/
def ackFrame (c : Cfg) (seq : Byte) : Bytes := encodeFrame c (appendChecksum c [0x01, seq])

/-- DATAFRAME (R89). -/
def execDataframe (seq : Byte) (payload : Bytes) (s : State) : Host.Outcome State Fault Refusal :=
  operation s fun s => .ok (s.returns (.bytes (dataFrame s.cfg seq payload)))

/-- ACKFRAME (R89). -/
def execAckframe (seq : Byte) (s : State) : Host.Outcome State Fault Refusal :=
  operation s fun s => .ok (s.returns (.bytes (ackFrame s.cfg seq)))

end Sys2Proof.Machine
end

