-- ==== Sys2Proof/Machine/Operands.lean ====
section
/-! DEFINITION. The operand forms: elapsed time (spec/42_arq.md R152), sequence numbers (R149 and
spec/10_state.md R22, R23), and the fields of a body (spec/30_encoding.md R75, spec/42_arq.md R143). -/

namespace Sys2Proof.Machine

/-! ## Time (R152) -/

/-- `elapsed(now, ts) = (now - ts) mod 2^TIME_W`; with `TIME_W = unbounded`, `now - ts`. -/
def elapsed (c : Cfg) (now ts : Nat) : Nat :=
  match c.timeW with
  | none => now - ts
  | some w => (BitVec.ofNat w now - BitVec.ofNat w ts).toNat

/-- With `TIME_W = unbounded`, `now` is smaller than the earlier time `ts`. A finite width does not see a
backward step (U3). -/
def timeBackward (c : Cfg) (now ts : Nat) : Bool :=
  c.timeW == none && decide (now < ts)

/-! ## Sequence numbers -/

/-- `(seq + 1) mod N`. -/
def nextSeq (c : Cfg) (seq : Byte) : Byte := BitVec.ofNat 8 ((seq.toNat + 1) % c.seqMod)

/-- `dist = (e - s) mod N` (R149), for `s` and `e` in `0 .. N-1`. -/
def seqDist (c : Cfg) (s e : Byte) : Nat := (e.toNat + c.seqMod - s.toNat) % c.seqMod

/-- `earlier(s, e)` iff `1 <= dist <= floor(N / 2)` (R149). -/
def earlier (c : Cfg) (s e : Byte) : Bool :=
  decide (1 ≤ seqDist c s e) && decide (seqDist c s e ≤ c.seqMod / 2)

/-! ## The fields of a body (R143), for a body of at least `2 + W` bytes -/

/-- `flag = raw[0]`. -/
def bodyFlag (raw : Bytes) : Byte := raw.getD 0 0

/-- `seq = raw[1]`. -/
def bodySeq (raw : Bytes) : Byte := raw.getD 1 0

/-- `payload = raw[2 : len(raw) - W]`. -/
def bodyPayload (c : Cfg) (raw : Bytes) : Bytes := (raw.take (raw.length - c.checksumBytes)).drop 2

end Sys2Proof.Machine
end

