-- ==== Sys2Proof/Machine/Arq.lean ====
section
/-! DEFINITION. The ARQ Controller (spec/42_arq.md): SUBMIT, ON_FRAME_RECEIVED with its arms, ON_TICK. -/

namespace Sys2Proof.Machine

/-! ## SUBMIT (R141) -/

/-- `SUBMIT(payload, now)` on a payload in its operand range `0 <= len <= MAX_PAYLOAD`, which every payload
SEND has queued is (R171). -/
def State.submit (s : State) (payload : Bytes) (now : Nat) : State :=
  match s.sendState with
  | .awaitingAck => s.returns .busy
  | .idle =>
    let wire := dataFrame s.cfg s.currentSendSeq payload
    let sent := (s.transmit wire).event (.txData s.currentSendSeq)
    { sent with
      pendingFrame := wire
      pendingTimestamp := timeOperand s.cfg now
      sendState := .awaitingAck
      result := .sent }

/-- SUBMIT on any payload: `busy` comes first and reads nothing further; a payload longer than `MAX_PAYLOAD`
is then outside the operand range and refused (R141, R78 of spec/30_encoding.md, U1; log entry 13). -/
def State.submitChecked (s : State) (payload : Bytes) (now : Nat) : Except Refusal State :=
  if s.sendState = .idle ∧ fits s.cfg.maxPayload payload.length = false then .error .payloadTooLong
  else .ok (s.submit payload now)

/-! ## ON_FRAME_RECEIVED (R142 to R150) -/

/-- The acknowledgment arm (R145). -/
def State.ackArm (s : State) (seq : Byte) : State :=
  if s.sendState = .awaitingAck ∧ seq = s.currentSendSeq then
    let freed := s.forgetPending.event (.ackAccept seq)
    { freed with sendState := .idle, currentSendSeq := nextSeq s.cfg s.currentSendSeq }
  else s.event (.ackIgnored seq)

/-- The data arm in order (R146): deliver, acknowledge, advance. -/
def State.dataInOrder (s : State) (seq : Byte) (payload : Bytes) : State :=
  let done := (((s.deliver payload).event (.deliver seq)).transmit (ackFrame s.cfg seq)).event (.txAck seq)
  { done with nextExpectedSeq := nextSeq s.cfg s.nextExpectedSeq }

/-- The data arm for a duplicate (R147): acknowledge again, do not deliver. -/
def State.dataDuplicate (s : State) (seq : Byte) : State :=
  ((s.event (.dupData seq)).transmit (ackFrame s.cfg seq)).event (.txAck seq)

/-- The data arm ahead of sequence (R148): dropped. -/
def State.dataAhead (s : State) (seq : Byte) : State := s.event (.dropFuture seq)

/-- The data arms (R146, R147, R148), for `seq < N`. -/
def State.dataArm (s : State) (seq : Byte) (payload : Bytes) : State :=
  if seq = s.nextExpectedSeq then s.dataInOrder seq payload
  else if earlier s.cfg seq s.nextExpectedSeq then s.dataDuplicate seq
  else s.dataAhead seq

/-- Dispatch on `flag` (R144); what is neither an acknowledgment nor data with `seq < N` is the reserved
arm (R150). -/
def State.dispatchFrame (s : State) (flag seq : Byte) (payload : Bytes) : State :=
  if flag = 1 then s.ackArm seq
  else if flag = 0 ∧ seq.toNat < s.cfg.seqMod then s.dataArm seq payload
  else s.event .dropReserved

/-- `ON_FRAME_RECEIVED(raw)`: the gate of R143, checksum first and then length, and the dispatch. -/
def State.onFrameReceived (s : State) (raw : Bytes) : State :=
  if !verify s.cfg raw then s.event .dropChecksum
  else if raw.length < 2 + s.cfg.checksumBytes then s.event .dropShort
  else s.dispatchFrame (bodyFlag raw) (bodySeq raw) (bodyPayload s.cfg raw)

/-! ## ON_TICK (R151) -/

/-- `ON_TICK(now)`. While a frame is pending and time is unbounded, a `now` smaller than its timestamp is
refused (R152, V-A20; log entry 12). -/
def State.onTick (s : State) (now : Nat) : Except Refusal State :=
  match s.sendState with
  | .idle => .ok s
  | .awaitingAck =>
    if timeBackward s.cfg now s.pendingTimestamp then .error .timeBackward
    else if s.cfg.timeout < elapsed s.cfg now s.pendingTimestamp then
      let resent := (s.transmit s.pendingFrame).event (.txRetx s.currentSendSeq)
      .ok { resent with pendingTimestamp := timeOperand s.cfg now }
    else .ok s

/-! ## The operations -/

/-- SUBMIT (R141). -/
def execSubmit (payload : Bytes) (now : Nat) (s : State) : Host.Outcome State Fault Refusal :=
  operation s fun s => s.submitChecked payload now

/-- ON_FRAME_RECEIVED (R142). -/
def execOnFrameReceived (raw : Bytes) (s : State) : Host.Outcome State Fault Refusal :=
  operation s fun s => .ok (s.onFrameReceived raw)

/-- ON_TICK (R151). -/
def execOnTick (now : Nat) (s : State) : Host.Outcome State Fault Refusal :=
  operation s fun s => s.onTick now

end Sys2Proof.Machine
end

