-- ==== Sys2Proof/Machine/Endpoint.lean ====
section
/-! DEFINITION. The Link Endpoint: RESET (spec/70_reset_and_hazards.md R220), SEND and CYCLE
(spec/43_endpoint.md R171 to R177). -/

namespace Sys2Proof.Machine

/-! ## RESET (R220) -/

/-- What RESET leaves on every path but the `fault` latch: empty stores, `Idle`, both numbers 0, the
configuration latched, no outputs, the pending fields unspecified, no CYCLE seen. -/
def State.cleared (s : State) (cfg : Cfg) : State :=
  let latched := { s.begin with cfg := cfg }
  { latched.forgetPending with
    fault := false
    sendState := .idle
    currentSendSeq := 0
    nextExpectedSeq := 0
    rxbuf := []
    txq := []
    lastNow := 0 }

/-- RESET (R220): accepted in every state. A configuration whose generator the implementation cannot hold
is refused (R32, R205; log entry 6); an invalid one raises `ConfigError` (R194; log entry 17). -/
def execReset (cfg : Cfg) (s : State) : Host.Outcome State Fault Refusal :=
  if fits s.degMax (deg cfg.g).toNat then
    .next (if cfg.valid then s.cleared cfg else (s.cleared cfg).raiseConfigError)
  else .refused .cfgNotExpressible

/-! ## SEND (R171) -/

/-- Whether `len(txq) = TXQ_DEPTH`; never, when the depth is unbounded. -/
def State.txqFull (s : State) : Bool :=
  match s.cfg.txqDepth with
  | none => false
  | some k => decide (k ≤ s.txq.length)

/-- `SEND(payload)`. -/
def State.send (s : State) (payload : Bytes) : Except Refusal State :=
  if !fits s.cfg.maxPayload payload.length then .error .payloadTooLong
  else if s.txqFull then .ok (s.returns .full)
  else .ok ((s.qPush payload).returns .accepted)

/-- SEND (R171). -/
def execSend (payload : Bytes) (s : State) : Host.Outcome State Fault Refusal :=
  operation s fun s => s.send payload

/-! ## CYCLE (R172) -/

/-- Phase 3 (R175): TRY_DECODE, and ON_FRAME_RECEIVED on each frame, until `incomplete`; at most `fuel`
calls. -/
def decodeLoop : Nat → State → State
  | 0, s => s
  | fuel + 1, s =>
    match (scan s.cfg s.rxbuf).frame with
    | none => s.tryDecode
    | some body => decodeLoop fuel (s.tryDecode.onFrameReceived body)

/-- Phase 3 with calls enough: each one that finds a frame removes at least two bytes (R175; log entry
19). -/
def State.phase3 (s : State) : State := decodeLoop (s.rxbuf.length + 1) s

/-- Phase 4 (R176): start the next frame. -/
def State.phase4 (s : State) (now : Nat) : State :=
  match s.txq, s.sendState with
  | p :: _, .idle => s.qPop.submit p now
  | _, _ => s

/-- `CYCLE(now, rx)`: the four phases in order (R172 to R176), phase 1 ON_TICK, phase 2 BufAppend. With
unbounded time a `now` smaller than an earlier CYCLE's is refused (R205; log entry 12). -/
def State.cycle (s : State) (now : Nat) (rx : Bytes) : Except Refusal State :=
  if timeBackward s.cfg now s.lastNow then .error .timeBackward
  else
    match s.onTick now with
    | .error r => .error r
    | .ok ticked =>
      match ticked.bufAppend rx with
      | .error r => .error r
      | .ok filled =>
        .ok { filled.phase3.phase4 now with lastNow := timeOperand s.cfg now, result := .outputs }

/-- CYCLE (R172). -/
def execCycle (now : Nat) (rx : Bytes) (s : State) : Host.Outcome State Fault Refusal :=
  operation s fun s => s.cycle now rx

end Sys2Proof.Machine
end

