-- ==== Sys2Proof/Machine/Wire.lean ====
section
/-! DEFINITION. What arrives from the medium, row by row of spec/opcode_table.json: the four byte classes
(spec/30_encoding.md R71) at the framer, and the three frame types (R80) at the ARQ Controller. -/

namespace Sys2Proof.Machine

/-- One byte reaches the framer: it is appended to `rxbuf` and TRY_DECODE is called. On a buffer that
holds no complete frame this is one transition of the streaming machine (spec/41_framer.md R127; log
entry 15). -/
def State.byteArrives (s : State) (b : Byte) : Except Refusal State :=
  match s.bufAppend [b] with
  | .error r => .error r
  | .ok filled => .ok filled.tryDecode

/-- START (R71). -/
def execStart (s : State) : Host.Outcome State Fault Refusal :=
  operation s fun s => s.byteArrives s.cfg.start

/-- STOP (R71). -/
def execStop (s : State) : Host.Outcome State Fault Refusal :=
  operation s fun s => s.byteArrives s.cfg.stop

/-- ESCAPE (R71). -/
def execEscape (s : State) : Host.Outcome State Fault Refusal :=
  operation s fun s => s.byteArrives s.cfg.escape

/-- LITERAL (R71). -/
def execLiteral (b : Byte) (s : State) : Host.Outcome State Fault Refusal :=
  operation s fun s => s.byteArrives b

/-- DATA (R75, R80): the body `00 seq payload checksum` at ON_FRAME_RECEIVED (log entry 16). -/
def execData (seq : Byte) (payload checksum : Bytes) (s : State) : Host.Outcome State Fault Refusal :=
  operation s fun s => .ok (s.onFrameReceived (0x00 :: seq :: (payload ++ checksum)))

/-- ACK (R75, R80): the body `01 seq payload checksum` at ON_FRAME_RECEIVED. -/
def execAck (seq : Byte) (payload checksum : Bytes) (s : State) : Host.Outcome State Fault Refusal :=
  operation s fun s => .ok (s.onFrameReceived (0x01 :: seq :: (payload ++ checksum)))

/-- RESERVED_ACKFLAG (R81): a body with another `ackFlag` at ON_FRAME_RECEIVED. -/
def execReservedAckflag (flag seq : Byte) (payload checksum : Bytes) (s : State) :
    Host.Outcome State Fault Refusal :=
  operation s fun s => .ok (s.onFrameReceived (flag :: seq :: (payload ++ checksum)))

end Sys2Proof.Machine
end

