-- ==== Sys2Proof/Machine/Dispatch.lean ====
section
/-! DEFINITION. One arm per instruction, each a direct call of its meaning. -/

namespace Sys2Proof.Machine

/-- The meaning of every row of spec/opcode_table.json. -/
def exec (i : Instr) (s : State) : Host.Outcome State Fault Refusal :=
  match i with
  -- operations (spec/30_encoding.md R87)
  | .reset cfg => Sys2Proof.Machine.execReset cfg s
  | .send payload => Sys2Proof.Machine.execSend payload s
  | .cycle now rx => Sys2Proof.Machine.execCycle now rx s
  | .parity bytes => Sys2Proof.Machine.execParity bytes s
  | .crcRemainder bytes g => Sys2Proof.Machine.execCrcRemainder bytes g s
  | .appendChecksum bytes => Sys2Proof.Machine.execAppendChecksum bytes s
  | .verify full => Sys2Proof.Machine.execVerify full s
  | .encode body => Sys2Proof.Machine.execEncode body s
  | .tryDecode => Sys2Proof.Machine.execTryDecode s
  | .submit payload now => Sys2Proof.Machine.execSubmit payload now s
  | .onFrameReceived raw => Sys2Proof.Machine.execOnFrameReceived raw s
  | .onTick now => Sys2Proof.Machine.execOnTick now s
  -- wire byte classes (R71)
  | .start => Sys2Proof.Machine.execStart s
  | .stop => Sys2Proof.Machine.execStop s
  | .escape => Sys2Proof.Machine.execEscape s
  | .literal b => Sys2Proof.Machine.execLiteral b s
  -- frame types (R80)
  | .data seq payload checksum => Sys2Proof.Machine.execData seq payload checksum s
  | .ack seq payload checksum => Sys2Proof.Machine.execAck seq payload checksum s
  | .reservedAckflag flag seq payload checksum => Sys2Proof.Machine.execReservedAckflag flag seq payload checksum s
  -- frame builders (R89)
  | .dataframe seq payload => Sys2Proof.Machine.execDataframe seq payload s
  | .ackframe seq => Sys2Proof.Machine.execAckframe seq s

end Sys2Proof.Machine
end

