-- ==== Sys2Proof/Machine/Step.lean ====
section
/-! DEFINITION. One step: the oldest request of the inbox is decoded and executed. -/

namespace Sys2Proof.Machine

/-- One step. With no request the block does nothing (spec/60_exceptions.md R202, spec/70_reset_and_hazards.md
R224). A command the decoder refuses stops the machine (log entry 3). -/
def step (s : State) : Host.Outcome State Fault Refusal :=
  match s.fetch with
  | none => .next s
  | some (r, rest) =>
    match decode s.cfg r with
    | .error e => .fault (.undecodable e)
    | .ok i => exec i rest

/-- `s` with the instruction of a table word as its oldest request, so that the very next step runs it
(log entry 1). -/
def State.withFetchWord (s : State) (nbits w : Nat) : State :=
  s.request (.command (tableCommand nbits w))

end Sys2Proof.Machine
end

