-- ==== Sys2Proof/Machine/Flags.lean ====
section
/-! DEFINITION. The two flag-like bits and the register map (spec/10_state.md R31, R32), and the codes of
the events (spec/60_exceptions.md R195). The spec has no condition codes (R31). No operation reads a
register by number (R29); the map is the view R32 numbers. -/

namespace Sys2Proof.Machine

/-- `sendState` as a bit: `Idle = 0`, `AwaitingAck = 1` (R21). -/
def SendState.bit : SendState → Bool
  | .idle => false
  | .awaitingAck => true

/-- `STATUS` (R32): bit 0 is `fault`, bit 1 is `sendState`. -/
def State.status (s : State) : Nat := s.fault.toNat + 2 * s.sendState.bit.toNat

/-- The register numbered `n` (R32); numbers 8 and above are not defined
(spec/93_implementation_defined.md section 2). DESIGN CHOICE (log entry 27): after a `ConfigError` with
`N >= 512` or `T >= 2^TIME_W` registers 5 and 6 show the latched number whole, although it is wider than the
register, of which R32 says nothing. -/
def State.register (s : State) : Nat → Option Nat
  | 0 => some s.cfg.start.toNat
  | 1 => some s.cfg.stop.toNat
  | 2 => some s.cfg.escape.toNat
  | 3 => some (codecCode s.cfg.codec).toNat
  | 4 => some s.cfg.g
  | 5 => some s.cfg.seqMod
  | 6 => some s.cfg.timeout
  | 7 => some s.status
  | _ => none

/-- The code of an event (R195). -/
def Event.code : Event → Nat
  | .txData _ => 0
  | .txRetx _ => 1
  | .txAck _ => 2
  | .deliver _ => 3
  | .ackAccept _ => 4
  | .ackIgnored _ => 5
  | .dupData _ => 6
  | .dropChecksum => 7
  | .dropShort => 8
  | .dropReserved => 9
  | .dropFuture _ => 10
  | .resync => 11
  | .garbage _ => 12

/-- The information of an event (R195): a sequence number, a count, or none. -/
def Event.info : Event → Option Nat
  | .txData seq => some seq.toNat
  | .txRetx seq => some seq.toNat
  | .txAck seq => some seq.toNat
  | .deliver seq => some seq.toNat
  | .ackAccept seq => some seq.toNat
  | .ackIgnored seq => some seq.toNat
  | .dupData seq => some seq.toNat
  | .dropFuture seq => some seq.toNat
  | .garbage count => some count
  | .dropChecksum => none
  | .dropShort => none
  | .dropReserved => none
  | .resync => none

end Sys2Proof.Machine
end

