-- ==== Sys2Proof/Machine/Link.lean ====
section
/-! DEFINITION. Two endpoints joined by a medium, for the guarantees of spec/42_arq.md R155: the medium is
the environment (spec/20_memory.md R58, spec/43_endpoint.md R181; log entry 20), which may lose and damage
what it carries but keeps the order, repeats nothing and forges no body that verifies. The machine's step
uses none of it. -/

namespace Sys2Proof.Machine

/-- The bodies of the frames in a byte stream (R127). -/
def bodiesOf (c : Cfg) (stream : Bytes) : List Bytes := (streamRun c .hunt stream).2

/-- The link, seen for one direction: from the upper layer of `a` to that of `b`. -/
structure Link where
  a : State
  b : State
  /-- Bodies `a` has transmitted that `b` may still receive, the oldest first. -/
  toB : List Bytes
  /-- Bodies `b` has transmitted that `a` may still receive, the oldest first. -/
  toA : List Bytes
  /-- Payloads the SEND of `a` has accepted, in order. -/
  accepted : List Bytes
  /-- Payloads `b` has delivered, in order. -/
  delivered : List Bytes

/-- The medium may hand `rx` to an endpoint: of the bodies it holds for it, those in `gone` are now received
or lost and those in `left` stay, and the bodies the endpoint completes with `rx` are, but for those VERIFY
rejects, some of `gone` in the order sent (the conditions of R155 (a)). -/
def mediumHands (s : State) (rx : Bytes) (held left : List Bytes) : Prop :=
  ∃ gone, held = gone ++ left ∧ ((bodiesOf s.cfg (s.rxbuf ++ rx)).filter (verify s.cfg)).Sublist gone

/-- One operation of a driving loop on one of the endpoints: SEND or CYCLE (spec/43_endpoint.md R170). -/
inductive Link.Step : Link → Link → Prop
  | sendA (l : Link) (payload : Bytes) (a : State) (h : exec (.send payload) l.a = .next a) :
    Link.Step l { l with
      a := a
      accepted := l.accepted ++ (if a.result = .accepted then [payload] else []) }
  | sendB (l : Link) (payload : Bytes) (b : State) (h : exec (.send payload) l.b = .next b) :
    Link.Step l { l with b := b }
  | cycleA (l : Link) (now : Nat) (rx : Bytes) (left : List Bytes) (a : State)
    (hands : mediumHands l.a rx l.toA left) (h : exec (.cycle now rx) l.a = .next a) :
    Link.Step l { l with
      a := a
      toA := left
      toB := l.toB ++ bodiesOf l.a.cfg a.tx }
  | cycleB (l : Link) (now : Nat) (rx : Bytes) (left : List Bytes) (b : State)
    (hands : mediumHands l.b rx l.toB left) (h : exec (.cycle now rx) l.b = .next b) :
    Link.Step l { l with
      b := b
      toB := left
      toA := l.toA ++ bodiesOf l.b.cfg b.tx
      delivered := l.delivered ++ b.deliveries }

/-- Both endpoints freshly reset with one configuration, and nothing on the medium (R155, and
spec/70_reset_and_hazards.md R221). -/
def Link.Fresh (l : Link) : Prop :=
  (∃ c s t, c.valid = true ∧ exec (.reset c) s = .next l.a ∧ exec (.reset c) t = .next l.b) ∧
    l.toB = [] ∧ l.toA = [] ∧ l.accepted = [] ∧ l.delivered = []

end Sys2Proof.Machine
end

