-- ==== Sys2Proof/Safety.lean ====
section
/-! DEFINITION. What counts as a sound state of the endpoint, and the terms the claims are stated in: the
invariants of spec/10_state.md R34, the polynomials of spec/00_scope.md R9, and the unescaped bytes of a
buffer (spec/30_encoding.md R74). None of it is used by the machine. -/

namespace Sys2Proof.Machine

/-! ## Buffers and streams -/

/-- The bytes of a buffer that no `ESCAPE` consumes, without the unescaped `ESCAPE`s themselves: an
`ESCAPE` takes the byte after it along (R74). -/
def unescaped (c : Cfg) : Bytes → Bytes
  | [] => []
  | [b] => if b = c.escape then [] else [b]
  | b :: x :: t => if b = c.escape then unescaped c t else b :: unescaped c (x :: t)

/-- Invariant I3 of R34: empty, a dangling `ESCAPE`, or a `START` after which no unescaped `STOP` and no
unescaped `START` stands. -/
def settled (c : Cfg) (buf : Bytes) : Prop :=
  buf = [] ∨ buf = [c.escape] ∨
    (buf.head? = some c.start ∧ c.start ∉ unescaped c buf.tail ∧ c.stop ∉ unescaped c buf.tail)

/-- Whether a sequence ends in an `ESCAPE` that escapes nothing yet (R126). -/
def endsInEscape (c : Cfg) : Bytes → Bool
  | [] => false
  | [b] => b == c.escape
  | b :: x :: t => if b = c.escape then endsInEscape c t else endsInEscape c (x :: t)

/-- TRY_DECODE called until `incomplete`, at most `fuel` times (R127): the frames in order, and the last
state. -/
def State.drain : Nat → State → List Bytes × State
  | 0, s => ([], s)
  | fuel + 1, s =>
    match s.tryDecode.result with
    | .frame body =>
      let (frames, last) := State.drain fuel s.tryDecode
      (body :: frames, last)
    | _ => ([], s.tryDecode)

/-- A byte stream cut into batches (R128): each is appended to `rxbuf`, and TRY_DECODE is called until
`incomplete` after it. The frames in order, and the last state. -/
def State.feed : State → List Bytes → List Bytes × State
  | s, [] => ([], s)
  | s, batch :: more =>
    let filled : State := { s with rxbuf := s.rxbuf ++ batch }
    let (now, drained) := State.drain (filled.rxbuf.length + 1) filled
    let (later, last) := State.feed drained more
    (now ++ later, last)

/-! ## What the framer reports, told by the streaming machine -/

/-- The bytes the machine gives up as garbage with this byte (R123): one that opens nothing in `HUNT`, or an
`ESCAPE` and the byte after it. -/
def Stream.garbage (c : Cfg) (m : Stream) (b : Byte) : Nat :=
  match m with
  | .hunt => if b = c.escape ∨ b = c.start then 0 else 1
  | .huntEsc => 2
  | .collect _ => 0
  | .collectEsc _ => 0

/-- Whether the machine gives up a partial frame at this byte, as 1 or 0 (R124): an unescaped `START` inside
a frame. -/
def Stream.resyncs (c : Cfg) (m : Stream) (b : Byte) : Nat :=
  match m with
  | .collect _ => if b ≠ c.escape ∧ b ≠ c.stop ∧ b = c.start then 1 else 0
  | .hunt => 0
  | .huntEsc => 0
  | .collectEsc _ => 0

/-- A frame of a stream, with the garbage bytes and the given-up partial frames between it and the frame
before. -/
structure Framed where
  garbage : Nat
  resyncs : Nat
  body : Bytes
  deriving DecidableEq, Repr

/-- The frames the machine emits over a stream, each with what was given up before it, and the garbage and
the partial frames given up after the last. `garbage` and `resyncs` count from the frame before the stream. -/
def framesReported (c : Cfg) (m : Stream) (garbage resyncs : Nat) : Bytes → List Framed × (Nat × Nat)
  | [] => ([], (garbage, resyncs))
  | b :: t =>
    let garbage := garbage + m.garbage c b
    let resyncs := resyncs + m.resyncs c b
    match streamByte c m b with
    | (next, none) => framesReported c next garbage resyncs t
    | (next, some body) =>
      let (frames, last) := framesReported c next 0 0 t
      (⟨garbage, resyncs, body⟩ :: frames, last)

/-- The events of one call of TRY_DECODE that gives up this much (R123, R124, R195): one count of garbage,
if there is any, and then one event for each partial frame. -/
def framingEvents (garbage resyncs : Nat) : List Event :=
  (if garbage = 0 then [] else [.garbage garbage]) ++ List.replicate resyncs .resync

/-- `s` with the framer's events of one call after its own. -/
def State.reports (s : State) (garbage resyncs : Nat) : State :=
  { s with events := s.events ++ framingEvents garbage resyncs }

/-- What phase 3 of CYCLE does with one frame: TRY_DECODE reports, then ON_FRAME_RECEIVED (R175, R177). -/
def State.receives (s : State) (f : Framed) : State := (s.reports f.garbage f.resyncs).onFrameReceived f.body

/-! ## Kinds of events (R195) -/

/-- The events TRY_DECODE raises. -/
def Event.framing : Event → Bool
  | .resync => true
  | .garbage _ => true
  | _ => false

/-- The bytes an event reports as garbage. -/
def Event.garbageBytes : Event → Nat
  | .garbage count => count
  | _ => 0

/-- The sequence number of an accepted acknowledgment. -/
def Event.accepted? : Event → Option Byte
  | .ackAccept seq => some seq
  | _ => none

/-- The sequence number of a delivery. -/
def Event.delivered? : Event → Option Byte
  | .deliver seq => some seq
  | _ => none

/-- The bytes an event stands for on the outbound channel (R177): the frame that was pending before, an
acknowledgment, the frame that is pending after. -/
def Event.transmits (c : Cfg) (before after : Bytes) : Event → Bytes
  | .txRetx _ => before
  | .txAck seq => ackFrame c seq
  | .txData _ => after
  | _ => []

/-- The place of a transmission in the order of one operation's outputs (R177). -/
def Event.rank? : Event → Option Nat
  | .txRetx _ => some 0
  | .txAck _ => some 1
  | .txData _ => some 2
  | _ => none

/-! ## Sound states -/

/-- What every step keeps. -/
structure State.Inv (s : State) : Prop where
  /-- The latch holds the verdict on the latched configuration (R28). -/
  fault_eq : s.fault = !s.cfg.valid
  /-- The implementation can hold the latched generator (R32). -/
  expressible : fits s.degMax (deg s.cfg.g).toNat = true
  /-- I1 for `currentSendSeq`. -/
  sendSeq_lt : s.fault = false → s.currentSendSeq.toNat < s.cfg.seqMod
  /-- I1 for `nextExpectedSeq`. -/
  expectedSeq_lt : s.fault = false → s.nextExpectedSeq.toNat < s.cfg.seqMod
  /-- I2: the pending frame is the data frame of `currentSendSeq` with some payload, one that `MAX_PAYLOAD`
  admits (R78). -/
  pending_eq : s.fault = false → s.sendState = .awaitingAck →
    ∃ p, fits s.cfg.maxPayload p.length = true ∧ s.pendingFrame = dataFrame s.cfg s.currentSendSeq p
  /-- `pendingTimestamp` fits in `TIME_W` bits (R25). -/
  timestamp_fits : timeOperand s.cfg s.pendingTimestamp = s.pendingTimestamp
  /-- `rxbuf` is within its capacity (R61). -/
  rxbuf_fits : fits s.cfg.rxbufCap s.rxbuf.length = true
  /-- I3: `rxbuf` is in one of its three forms. -/
  rxbuf_settled : s.fault = false → settled s.cfg s.rxbuf
  /-- I4. -/
  txq_fits : fits s.cfg.txqDepth s.txq.length = true
  /-- Every queued payload is one SEND accepts (R171). -/
  payloads_fit : ∀ p ∈ s.txq, fits s.cfg.maxPayload p.length = true

/-- The endpoint is up: not faulted, under a valid configuration. -/
def State.up (s : State) : Prop := s.fault = false ∧ s.cfg.valid = true

/-! ## Bits -/

/-- The number of 1 bits in a byte sequence (R101). -/
def onesCount (bs : Bytes) : Nat :=
  (bs.map fun b => (List.range 8).countP fun i => b.getLsbD i).sum

/-- `bs` with bit `i` of byte `k` flipped (R109). -/
def flipBit (bs : Bytes) (k i : Nat) : Bytes := bs.modify k fun b => b ^^^ BitVec.ofNat 8 (2 ^ i)

/-! ## Polynomials over GF(2) -/

/-- The polynomial whose coefficient of `x^i` is bit `i` of `n` (R5, R102). -/
noncomputable def natPoly (n : Nat) : Polynomial (ZMod 2) :=
  ∑ i ∈ Finset.range (n.log2 + 1), if n.testBit i then Polynomial.X ^ i else 0

/-- `poly(s)` (R9): the first byte holds the highest powers, and inside a byte bit 7 is the highest. -/
noncomputable def bytesPoly (s : Bytes) : Polynomial (ZMod 2) :=
  ∑ k ∈ Finset.range s.length, ∑ i ∈ Finset.range 8,
    if (s.getD k 0).getLsbD i then Polynomial.X ^ (8 * (s.length - 1 - k) + i) else 0

end Sys2Proof.Machine
end

