-- ==== Sys2Proof/WellFormed.lean ====
section
/-! DEFINITION. Which instructions are well formed under a configuration: those whose operands are in the
ranges spec/opcode_table.json and the rules it cites give them. -/

namespace Sys2Proof

/-- The operand checks. Instructions not named by a check accept every operand of their type. The bounds that
R205 makes refusals of the operation (`MAX_PAYLOAD` for SEND, `DEG_MAX` for RESET, `RXBUF_CAP` for CYCLE), and that of
SUBMIT's payload (log entry 13), are tested by the meanings, which refuse by name, and not here. -/
def Instr.wf (c : Cfg) : Instr → Bool
  -- `TIME_W` is a positive integer or unbounded (R5)
  | .reset cfg => cfg.timeW != some 0
  -- a byte sequence of length at least 1 (R105)
  | .appendChecksum bytes => !bytes.isEmpty
  -- the byte classes are told apart by value, so the reserved values must differ (R71)
  | .start => c.reservedDistinct
  | .stop => c.reservedDistinct
  | .escape => c.reservedDistinct
  -- a LITERAL is any value but the three reserved ones (R71)
  | .literal b => !c.isReserved b
  -- the checksum block is the last `W` body bytes (R75)
  | .data _ _ checksum => checksum.length == c.checksumBytes
  | .ack _ _ checksum => checksum.length == c.checksumBytes
  -- a reserved `ackFlag` is 0x02..0xFF (R81)
  | .reservedAckflag flag _ _ checksum => decide (2 ≤ flag.toNat) && checksum.length == c.checksumBytes
  | .send _ => true
  | .cycle _ _ => true
  | .parity _ => true
  | .crcRemainder _ _ => true
  | .verify _ => true
  | .encode _ => true
  | .tryDecode => true
  | .submit _ _ => true
  | .onFrameReceived _ => true
  | .onTick _ => true
  | .dataframe _ _ => true
  | .ackframe _ => true

end Sys2Proof
end

