-- ==== Sys2Proof/Certificates/Slice0/Obligations.lean ====
section
/-! DEFINITION. The statements about the endpoint, from the numbered rules of spec/. -/

open Sys2Proof Sys2Proof.Machine

/-! ## RESET, the latch, the invariant -/

/-- R35 with R220: what RESET leaves in every piece of state that has a reset value. No CYCLE has been seen
then (R205): `lastNow`, the model's own field of log entry 12, is 0. That an invalid configuration is latched
and everything else cleared all the same is log entry 17. -/
def Obligations.ResetLeavesSpecValues : Prop :=
  ∀ (cfg : Cfg) (s : State), fits s.degMax (deg cfg.g).toNat = true →
    ∃ t, exec (.reset cfg) s = .next t ∧
      t.fault = !cfg.valid ∧ t.sendState = .idle ∧ t.currentSendSeq = 0 ∧ t.nextExpectedSeq = 0 ∧
      t.rxbuf = [] ∧ t.txq = [] ∧ t.cfg = cfg ∧ t.tx = [] ∧ t.deliveries = [] ∧ t.events = [] ∧
      t.degMax = s.degMax ∧ t.inbox = s.inbox ∧ t.lastNow = 0 ∧
      ∀ now rx, exec (.cycle now rx) t ≠ .refused .timeBackward

/-- R6: which configurations RESET takes without setting `fault`. -/
def Obligations.ConfigurationValidity : Prop :=
  ∀ (cfg : Cfg) (s : State), fits s.degMax (deg cfg.g).toNat = true →
    ∃ t, exec (.reset cfg) s = .next t ∧
      (t.fault = false ↔
        (cfg.start ≠ cfg.stop ∧ cfg.start ≠ cfg.escape ∧ cfg.stop ≠ cfg.escape) ∧
        (cfg.codec = .crc → 1 ≤ deg cfg.g) ∧ (2 ≤ cfg.seqMod ∧ cfg.seqMod ≤ 256) ∧
        (∀ w, cfg.timeW = some w → cfg.timeout < 2 ^ w))

/-- R28: RESET sets the latch iff the configuration is invalid, nothing else writes it, and while it is set
every operation but RESET is refused; that the pure operations, the byte rows, the frame rows and the builders are
refused too is log entry 25. -/
def Obligations.FaultedEndpointRefuses : Prop :=
  (∀ (cfg : Cfg) (s t : State), exec (.reset cfg) s = .next t → (t.fault = true ↔ cfg.valid = false)) ∧
  ∀ (i : Instr) (s : State), (∀ cfg, i ≠ .reset cfg) →
    (s.fault = true → exec i s = .refused .faulted) ∧ (∀ t, exec i s = .next t → t.fault = s.fault)

/-- R194, R28: RESET alone raises `ConfigError`; it latches, and a RESET with a valid configuration is the way
out. R194 names SEND and CYCLE as refused meanwhile and R28 every operation; that every other row of the table is
refused too is log entry 25. -/
def Obligations.ConfigErrorLatches : Prop :=
  (∀ (i : Instr) (s t : State), exec i s = .next t → t.result = .configError →
    ∃ cfg, i = .reset cfg ∧ cfg.valid = false) ∧
  ∀ (bad good : Cfg) (s : State), bad.valid = false → good.valid = true →
    fits s.degMax (deg bad.g).toNat = true → fits s.degMax (deg good.g).toNat = true →
    ∃ t, exec (.reset bad) s = .next t ∧ t.fault = true ∧ t.result = .configError ∧ t.tx = [] ∧
      t.deliveries = [] ∧
      (∀ i, (∀ cfg, i ≠ .reset cfg) → exec i t = .refused .faulted) ∧
      ∃ u, exec (.reset good) t = .next u ∧ u.fault = false ∧ u.result = .none

/-- R205 with R61, R141, R152 and V-A20: the operations that have no step, and no others. The model's own parts:
`DEG_MAX` is tested whichever codec is chosen (log entry 6); `lastNow` records the time of the last CYCLE, and
neither SUBMIT nor an Idle ON_TICK is refused for its time (log entry 12); a SUBMIT whose payload is too long is
refused once it is not `busy` (log entry 13); the byte rows share the overflow refusal of CYCLE (log entry 15);
every row but RESET is refused while faulted (log entry 25). -/
def Obligations.RefusalsAreThoseListed : Prop :=
  ∀ (i : Instr) (s : State),
    (∀ e, exec i s ≠ .fault e) ∧
    ∀ r, exec i s = .refused r ↔
      (s.fault = true ∧ (∀ cfg, i ≠ .reset cfg) ∧ r = .faulted) ∨
      (∃ cfg, i = .reset cfg ∧ fits s.degMax (deg cfg.g).toNat = false ∧ r = .cfgNotExpressible) ∨
      (s.fault = false ∧
        ((∃ p, i = .send p ∧ fits s.cfg.maxPayload p.length = false ∧ r = .payloadTooLong) ∨
        (∃ p now, i = .submit p now ∧ s.sendState = .idle ∧ fits s.cfg.maxPayload p.length = false ∧
          r = .payloadTooLong) ∨
        (i = .appendChecksum [] ∧ r = .emptyInput) ∨
        (∃ now, i = .onTick now ∧ s.cfg.timeW = none ∧ s.sendState = .awaitingAck ∧ now < s.pendingTimestamp ∧
          r = .timeBackward) ∨
        (∃ now rx, i = .cycle now rx ∧
          (if s.cfg.timeW = none ∧ (now < s.lastNow ∨ s.sendState = .awaitingAck ∧ now < s.pendingTimestamp) then
            r = .timeBackward
          else fits s.cfg.rxbufCap (s.rxbuf.length + rx.length) = false ∧ r = .rxbufOverflow)) ∨
        ((i = .start ∨ i = .stop ∨ i = .escape ∨ ∃ b, i = .literal b) ∧
          fits s.cfg.rxbufCap (s.rxbuf.length + 1) = false ∧ r = .rxbufOverflow)))

/-- R220, R60: the configuration is latched by RESET, an invalid one too (log entry 17), and constant until the
next; nothing writes the model's own fields `degMax` (log entry 6) and `inbox`, the requests that wait (log
entry 1). -/
def Obligations.ConfigurationLatched : Prop :=
  ∀ (i : Instr) (s t : State), exec i s = .next t →
    ((∃ cfg, i = .reset cfg ∧ t.cfg = cfg) ∨ ((∀ cfg, i ≠ .reset cfg) ∧ t.cfg = s.cfg)) ∧
      t.degMax = s.degMax ∧ t.inbox = s.inbox

/-- R34: the invariant holds right after reset (under the configuration of log entry 5). -/
def Obligations.InitialStateSound : Prop := State.reset.Inv

/-- R34: every step keeps the invariant, I1 to I4 among its clauses. Where it speaks of a configuration that
raised `ConfigError`, it rests on log entry 17. -/
def Obligations.StepKeepsInvariant : Prop :=
  ∀ s t : State, s.Inv → step s = .next t → t.Inv

/-- R32: the register map shows the latched configuration and the two status bits. That it shows a number
wider than its register whole, after a RESET that raised `ConfigError`, is log entry 27. -/
def Obligations.RegisterMapShowsState : Prop :=
  ∀ s : State,
    s.register 0 = some s.cfg.start.toNat ∧ s.register 1 = some s.cfg.stop.toNat ∧
    s.register 2 = some s.cfg.escape.toNat ∧
    s.register 3 = some (if s.cfg.codec = .crc then 1 else 0) ∧ s.register 4 = some s.cfg.g ∧
    s.register 5 = some s.cfg.seqMod ∧ s.register 6 = some s.cfg.timeout ∧
    (∃ v, s.register 7 = some v ∧ v < 4 ∧ v.testBit 0 = s.fault ∧
      (v.testBit 1 = true ↔ s.sendState = .awaitingAck)) ∧
    ∀ n, 8 ≤ n → s.register n = none

/-- R195: the table of the thirteen events, each with its code and its information; the codes are 0 to 12, and
an event is told by its code and its information. -/
def Obligations.EventsToldByCode : Prop :=
  (∀ (seq : Byte) (count : Nat),
    ([.txData seq, .txRetx seq, .txAck seq, .deliver seq, .ackAccept seq, .ackIgnored seq, .dupData seq,
      .dropChecksum, .dropShort, .dropReserved, .dropFuture seq, .resync, .garbage count] : List Event).map
        (fun e => (e.code, e.info)) =
      [(0, some seq.toNat), (1, some seq.toNat), (2, some seq.toNat), (3, some seq.toNat), (4, some seq.toNat),
        (5, some seq.toNat), (6, some seq.toNat), (7, none), (8, none), (9, none), (10, some seq.toNat),
        (11, none), (12, some count)]) ∧
  ∀ e f : Event, e.code ≤ 12 ∧ (e.code = f.code → e.info = f.info → e = f)

/-! ## Error-Detection Codec -/

/-- R7: `deg`, `d`, `W` and `PAD`. -/
def Obligations.ChecksumWidths : Prop :=
  deg 0 = -1 ∧
  (∀ g : Nat, g ≠ 0 → ∃ k : Nat, deg g = k ∧ 2 ^ k ≤ g ∧ g < 2 ^ (k + 1)) ∧
  ∀ c : Cfg,
    (c.codec = .parity → c.checksumBits = 1 ∧ c.checksumBytes = 1 ∧ c.padBits = 7) ∧
    (c.codec = .crc → 1 ≤ deg c.g → (c.checksumBits : Int) = deg c.g) ∧
    c.checksumBits ≤ 8 * c.checksumBytes ∧ 8 * c.checksumBytes < c.checksumBits + 8 ∧
    c.padBits = 8 * c.checksumBytes - c.checksumBits ∧ c.padBits ≤ 7

/-- R101: PARITY is the number of 1 bits modulo 2; nothing else changes. -/
def Obligations.ParityIsBitCountModTwo : Prop :=
  ∀ (bytes : Bytes) (s : State), s.fault = false →
    exec (.parity bytes) s = .next { s.begin with result := .bit (decide (onesCount bytes % 2 = 1)) }

/-- R102: CRC_REMAINDER is the remainder of polynomial division over GF(2), of width `deg(G)`. -/
def Obligations.CrcIsPolynomialRemainder : Prop :=
  ∀ (bytes : Bytes) (g : Nat) (s : State), s.fault = false → 1 ≤ deg g →
    ∃ r, exec (.crcRemainder bytes g) s = .next { s.begin with result := .remainder r } ∧
      r < 2 ^ (deg g).toNat ∧
      natPoly r = (bytesPoly bytes * Polynomial.X ^ (deg g).toNat) % natPoly g

/-- CRC_REMAINDER with `deg(G) <= 0`, for which R102 states no result, completes with some value (the free
value of log entry 10). -/
def Obligations.CrcShortGeneratorCompletes : Prop :=
  ∀ (bytes : Bytes) (g : Nat) (s : State), s.fault = false → deg g < 1 →
    ∃ r, exec (.crcRemainder bytes g) s = .next { s.begin with result := .remainder r }

/-- R103: the shift register computes the same remainder. -/
def Obligations.CrcShiftRegisterAgrees : Prop :=
  ∀ (bytes : Bytes) (g : Nat) (s : State), s.fault = false → 1 ≤ deg g →
    exec (.crcRemainder bytes g) s = .next { s.begin with result := .remainder (crcSerial bytes g) }

/-- R104, R105: APPEND_CHECKSUM appends `R << PAD` in `W` bytes, most significant first, and refuses the
empty sequence. -/
def Obligations.ChecksumBlockIsLeftAligned : Prop :=
  ∀ (bytes : Bytes) (s : State), s.fault = false →
    (bytes = [] → exec (.appendChecksum bytes) s = .refused .emptyInput) ∧
    (bytes ≠ [] → ∃ block,
      exec (.appendChecksum bytes) s = .next { s.begin with result := .bytes (bytes ++ block) } ∧
      block.length = s.cfg.checksumBytes ∧
      (s.cfg.codec = .parity → block = [if onesCount bytes % 2 = 1 then 0x80 else 0x00]) ∧
      (s.cfg.codec = .crc → 1 ≤ deg s.cfg.g → ∃ r, r < 2 ^ s.cfg.checksumBits ∧
        natPoly r = (bytesPoly bytes * Polynomial.X ^ s.cfg.checksumBits) % natPoly s.cfg.g ∧
        beNat block = r * 2 ^ s.cfg.padBits))

/-- R106, R107: VERIFY is a length check and then, for CRC, divisibility by `G`; for Parity, a last byte
that holds the parity bit over seven zero bits. -/
def Obligations.VerifyFollowsItsRule : Prop :=
  ∀ (full : Bytes) (s : State), s.fault = false → s.cfg.valid = true →
    ∃ v, exec (.verify full) s = .next { s.begin with result := .verdict v } ∧
      (v = true ↔ s.cfg.checksumBytes + 1 ≤ full.length ∧
        match s.cfg.codec with
        | .crc => natPoly s.cfg.g ∣ bytesPoly full * Polynomial.X ^ s.cfg.checksumBits
        | .parity => ∃ covered last, full = covered ++ [last] ∧
            (last = 0x00 ∧ onesCount covered % 2 = 0 ∨ last = 0x80 ∧ onesCount covered % 2 = 1))

/-- R108: what APPEND_CHECKSUM makes, VERIFY accepts. -/
def Obligations.AppendedChecksumVerifies : Prop :=
  ∀ (bytes : Bytes) (s : State), s.fault = false → s.cfg.valid = true → bytes ≠ [] →
    ∃ full, exec (.appendChecksum bytes) s = .next { s.begin with result := .bytes full } ∧
      exec (.verify full) s = .next { s.begin with result := .verdict true }

/-- R109: flipping any one bit is caught by Parity always, and by CRC iff `G` has at least two terms. -/
def Obligations.SingleBitErrorsDetected : Prop :=
  ∀ (bytes : Bytes) (s : State), s.fault = false → s.cfg.valid = true → bytes ≠ [] →
    ∃ full, exec (.appendChecksum bytes) s = .next { s.begin with result := .bytes full } ∧
      ∀ k i, k < full.length → i < 8 →
        exec (.verify (flipBit full k i)) s =
          .next { s.begin with
            result := .verdict (decide (s.cfg.codec = .crc ∧ s.cfg.g = 2 ^ s.cfg.checksumBits)) }

/-- R110: Parity is the CRC of `x + 1`, but for the pad bits VERIFY tests. -/
def Obligations.ParityIsCrcOfXPlusOne : Prop :=
  ∀ (bytes : Bytes) (s sp sc : State), s.fault = false →
    sp = { s with cfg := { s.cfg with codec := .parity } } →
    sc = { s with cfg := { s.cfg with codec := .crc, g := 3 } } →
    (∃ p : Bool, exec (.parity bytes) s = .next { s.begin with result := .bit p } ∧
      exec (.crcRemainder bytes 3) s = .next { s.begin with result := .remainder p.toNat }) ∧
    (bytes ≠ [] → ∃ full, exec (.appendChecksum bytes) sp = .next { sp.begin with result := .bytes full } ∧
      exec (.appendChecksum bytes) sc = .next { sc.begin with result := .bytes full }) ∧
    exec (.verify bytes) sc = .next { sc.begin with
      result := .verdict (decide (2 ≤ bytes.length ∧ onesCount bytes % 2 = 0)) } ∧
    exec (.verify bytes) sp = .next { sp.begin with
      result := .verdict (decide (2 ≤ bytes.length ∧ onesCount bytes % 2 = 0 ∧
        (bytes.getLast? = some 0x00 ∨ bytes.getLast? = some 0x80))) }

/-- R111: a generator of one term is valid and detects nothing. -/
def Obligations.SingleTermGeneratorDetectsNothing : Prop :=
  ∀ (bytes : Bytes) (d : Nat) (s : State), s.fault = false → 1 ≤ d →
    s.cfg.codec = .crc → s.cfg.g = 2 ^ d →
    s.cfg.valid = ({ s.cfg with codec := .parity } : Cfg).valid ∧
    exec (.crcRemainder bytes (2 ^ d)) s = .next { s.begin with result := .remainder 0 } ∧
    (bytes ≠ [] → exec (.appendChecksum bytes) s =
      .next { s.begin with result := .bytes (bytes ++ List.replicate ((d + 7) / 8) 0) }) ∧
    exec (.verify bytes) s =
      .next { s.begin with result := .verdict (decide ((d + 7) / 8 + 1 ≤ bytes.length)) }

/-! ## Framer -/

/-- R121: ENCODE puts the delimiters around the stuffed body. -/
def Obligations.EncodeStuffsReservedBytes : Prop :=
  ∀ (body : Bytes) (s : State), s.fault = false →
    ∃ wire, exec (.encode body) s = .next { s.begin with result := .bytes wire } ∧
      wire = [s.cfg.start] ++
        (body.map fun b =>
          if b = s.cfg.start ∨ b = s.cfg.stop ∨ b = s.cfg.escape then [s.cfg.escape, b] else [b]).flatten ++
        [s.cfg.stop] ∧
      wire.length = 2 + body.length + body.countP s.cfg.isReserved

/-- R126: TRY_DECODE takes ENCODE back, behind garbage and before any tail, and ENCODE leaves no unescaped
reserved byte between the delimiters. -/
def Obligations.EncodedFrameDecodesBack : Prop :=
  ∀ (body garbage tail : Bytes) (s : State), s.fault = false → s.cfg.reservedDistinct = true →
    s.cfg.start ∉ garbage → endsInEscape s.cfg garbage = false →
    ∃ wire, exec (.encode body) s = .next { s.begin with result := .bytes wire } ∧
      exec .tryDecode { s with rxbuf := garbage ++ wire ++ tail } =
        .next { s.begin with
          rxbuf := tail
          result := .frame body
          events := if garbage = [] then [] else [.garbage garbage.length] } ∧
      (∃ inner, wire = [s.cfg.start] ++ inner ++ [s.cfg.stop] ∧ endsInEscape s.cfg inner = false ∧
        s.cfg.start ∉ unescaped s.cfg inner ∧ s.cfg.stop ∉ unescaped s.cfg inner)

/-- R122, R125: one call of TRY_DECODE takes the first frame of the stream, or answers `incomplete` and
keeps what a longer buffer still needs; it writes `rxbuf`, the result and the events only. R123, R124, R195: its
events are one count of the garbage before the `START`, if there is any, and then one for each `START` inside a
frame. -/
def Obligations.TryDecodeTakesFirstFrame : Prop :=
  ∀ s : State, s.fault = false →
    ∃ t taken, exec .tryDecode s = .next t ∧ s.rxbuf = taken ++ t.rxbuf ∧
      t = { s.begin with rxbuf := t.rxbuf, result := t.result, events := t.events } ∧
      (∀ e ∈ t.events, e.framing = true) ∧
      let reported := framesReported s.cfg .hunt 0 0 s.rxbuf
      ((∃ body garbage resyncs, t.result = .frame body ∧ 2 ≤ taken.length ∧
          streamRun s.cfg .hunt taken = (.hunt, [body]) ∧
          reported.1.head? = some ⟨garbage, resyncs, body⟩ ∧ t.events = framingEvents garbage resyncs) ∨
        (t.result = .incomplete ∧ settled s.cfg t.rxbuf ∧
          streamRun s.cfg .hunt s.rxbuf = ((streamRun s.cfg .hunt t.rxbuf).1, []) ∧
          reported.1 = [] ∧ t.events = framingEvents reported.2.1 reported.2.2))

/-- R127: the frames of a stream are those the four-state machine emits, and the buffer shows its state. -/
def Obligations.StreamingMachineExtractsSameFrames : Prop :=
  ∀ (batches : List Bytes) (s : State), s.cfg.reservedDistinct = true → s.rxbuf = [] →
    (s.feed batches).1 = (streamRun s.cfg .hunt batches.flatten).2 ∧
    let machine := (streamRun s.cfg .hunt batches.flatten).1
    let buffer := (s.feed batches).2.rxbuf
    (buffer = [] ↔ machine = .hunt) ∧ (buffer = [s.cfg.escape] ↔ machine = .huntEsc) ∧
      (buffer.head? = some s.cfg.start ↔ ∃ acc, machine = .collect acc ∨ machine = .collectEsc acc)

/-- R128: neither the frames, nor the buffer left, nor the sum of the garbage counts depends on how the
stream is cut. -/
def Obligations.FramesIndependentOfChunking : Prop :=
  ∀ (first second : List Bytes) (s : State), s.cfg.reservedDistinct = true → settled s.cfg s.rxbuf →
    first.flatten = second.flatten →
    (s.feed first).1 = (s.feed second).1 ∧
    (s.feed first).2.rxbuf = (s.feed second).2.rxbuf ∧
    ((s.feed first).2.events.map Event.garbageBytes).sum = ((s.feed second).2.events.map Event.garbageBytes).sum

/-- R71: a byte of a class reaches the framer as that byte appended and one TRY_DECODE (log entry 15). -/
def Obligations.WireByteAppendsThenScans : Prop :=
  ∀ (i : Instr) (b : Byte) (s : State),
    i = .start ∧ b = s.cfg.start ∨ i = .stop ∧ b = s.cfg.stop ∨ i = .escape ∧ b = s.cfg.escape ∨ i = .literal b →
    fits s.cfg.rxbufCap (s.rxbuf.length + 1) = true →
    exec i s = exec .tryDecode { s with rxbuf := s.rxbuf ++ [b] }

/-- R127, R71: on a buffer that holds no complete frame, a byte row is one transition of the four-state
machine (log entry 15). -/
def Obligations.WireByteIsOneStreamTransition : Prop :=
  ∀ (i : Instr) (b : Byte) (s : State),
    i = .start ∧ b = s.cfg.start ∨ i = .stop ∧ b = s.cfg.stop ∨ i = .escape ∧ b = s.cfg.escape ∨
      i = .literal b ∧ s.cfg.isReserved b = false →
    s.fault = false → s.cfg.reservedDistinct = true → settled s.cfg s.rxbuf →
    fits s.cfg.rxbufCap (s.rxbuf.length + 1) = true →
    ∃ t, exec i s = .next t ∧
      t = { s.begin with rxbuf := t.rxbuf, result := t.result, events := t.events } ∧
      settled s.cfg t.rxbuf ∧
      let before := (streamRun s.cfg .hunt s.rxbuf).1
      (streamRun s.cfg .hunt t.rxbuf).1 = (streamByte s.cfg before b).1 ∧
      t.result = (match (streamByte s.cfg before b).2 with | some body => .frame body | none => .incomplete) ∧
      t.events = (match before with
        | .hunt => if b = s.cfg.escape ∨ b = s.cfg.start then [] else [.garbage 1]
        | .huntEsc => [.garbage 2]
        | .collect _ => if b = s.cfg.start then [.resync] else []
        | .collectEsc _ => [])

/-! ## Frames -/

/-- R89: the builders are ENCODE of APPEND_CHECKSUM of header and payload. -/
def Obligations.BuildersComposeEncodeAndChecksum : Prop :=
  ∀ (seq : Byte) (payload : Bytes) (s : State), s.fault = false →
    (∃ body wire, exec (.appendChecksum ([0x00, seq] ++ payload)) s = .next { s.begin with result := .bytes body } ∧
      exec (.encode body) s = .next { s.begin with result := .bytes wire } ∧
      exec (.dataframe seq payload) s = .next { s.begin with result := .bytes wire }) ∧
    ∃ body wire, exec (.appendChecksum [0x01, seq]) s = .next { s.begin with result := .bytes body } ∧
      exec (.encode body) s = .next { s.begin with result := .bytes wire } ∧
      exec (.ackframe seq) s = .next { s.begin with result := .bytes wire }

/-- R85: how long wire frames are. -/
def Obligations.WireFrameLengths : Prop :=
  ∀ (seq : Byte) (payload : Bytes) (s : State), s.fault = false →
    (∃ wire, exec (.dataframe seq payload) s = .next { s.begin with result := .bytes wire } ∧
      4 + payload.length + s.cfg.checksumBytes ≤ wire.length ∧
      wire.length ≤ 2 + 2 * (2 + payload.length + s.cfg.checksumBytes)) ∧
    ∃ wire, exec (.ackframe seq) s = .next { s.begin with result := .bytes wire } ∧
      4 + s.cfg.checksumBytes ≤ wire.length ∧ wire.length ≤ 2 + 2 * (2 + s.cfg.checksumBytes)

/-- R80, R75: a body row is ON_FRAME_RECEIVED on the body it stands for, whatever the body
(log entry 16). -/
def Obligations.FrameRowsAreBodies : Prop :=
  ∀ (raw : Bytes) (s : State), exec (classifyBody s.cfg raw) s = exec (.onFrameReceived raw) s

/-! ## ARQ Controller -/

/-- R141: SUBMIT transmits and stores one data frame with the time, a `now` of `TIME_W` bits, or answers
`busy`. Its operand is a payload of at most `MAX_PAYLOAD` bytes; that `busy` comes first, whatever the length of
the payload, is log entry 13. -/
def Obligations.SubmitSendsOneFrame : Prop :=
  ∀ (payload : Bytes) (now : Nat) (s : State), s.fault = false →
    (s.sendState = .awaitingAck → exec (.submit payload now) s = .next { s.begin with result := .busy }) ∧
    (s.sendState = .idle → fits s.cfg.maxPayload payload.length = true → ∃ wire time,
      exec (.dataframe s.currentSendSeq payload) s = .next { s.begin with result := .bytes wire } ∧
      ((∀ w, s.cfg.timeW = some w → now < 2 ^ w) → time = now) ∧
      exec (.submit payload now) s = .next { s.begin with
        tx := wire
        pendingFrame := wire
        pendingTimestamp := time
        sendState := .awaitingAck
        events := [.txData s.currentSendSeq]
        result := .sent })

/-- R191: a body that fails VERIFY changes nothing and is reported as transport damage. -/
def Obligations.DamagedBodyDropped : Prop :=
  ∀ (raw : Bytes) (s : State),
    exec (.verify raw) s = .next { s.begin with result := .verdict false } →
    exec (.onFrameReceived raw) s = .next { s.begin with events := [.dropChecksum] }

/-- R83, R143: a body that verifies with one header byte only is dropped; a body without one never
verifies. -/
def Obligations.ShortBodyDropped : Prop :=
  ∀ (raw : Bytes) (s : State), s.fault = false → raw.length < 2 + s.cfg.checksumBytes →
    exec (.onFrameReceived raw) s =
      .next { s.begin with events := [if verify s.cfg raw then .dropShort else .dropChecksum] } ∧
    (verify s.cfg raw = true → raw.length = 1 + s.cfg.checksumBytes)

/-- R150, R81, R82: a verified body with a reserved `ackFlag`, or data with `seq >= N`, is dropped.
The rows are log entry 16. -/
def Obligations.ReservedBodyDropped : Prop :=
  ∀ (flag seq : Byte) (payload checksum : Bytes) (s : State), s.fault = false →
    checksum.length = s.cfg.checksumBytes → verify s.cfg (flag :: seq :: (payload ++ checksum)) = true →
    (2 ≤ flag.toNat → ∀ i, i = .reservedAckflag flag seq payload checksum ∨
        i = .onFrameReceived (flag :: seq :: (payload ++ checksum)) →
      exec i s = .next { s.begin with events := [.dropReserved] }) ∧
    (flag = 0x00 → s.cfg.seqMod ≤ seq.toNat → ∀ i, i = .data seq payload checksum ∨
        i = .onFrameReceived (flag :: seq :: (payload ++ checksum)) →
      exec i s = .next { s.begin with events := [.dropReserved] })

/-- R145: the acknowledgment arm. What the two pending fields become is unspecified, so any values may stand
there (log entry 8); `freeCount`, the model's own counter, picks them and advances (log entry 9). The row ACK is
log entry 16. -/
def Obligations.AcknowledgmentFreesSender : Prop :=
  ∀ (i : Instr) (seq : Byte) (payload checksum : Bytes) (s : State), s.fault = false →
    checksum.length = s.cfg.checksumBytes → verify s.cfg (0x01 :: seq :: (payload ++ checksum)) = true →
    i = .ack seq payload checksum ∨ i = .onFrameReceived (0x01 :: seq :: (payload ++ checksum)) →
    (s.sendState = .awaitingAck ∧ seq = s.currentSendSeq → ∃ frame time,
      exec i s = .next { s.begin with
        sendState := .idle
        pendingFrame := frame
        pendingTimestamp := time
        currentSendSeq := BitVec.ofNat 8 ((s.currentSendSeq.toNat + 1) % s.cfg.seqMod)
        freeCount := s.freeCount + 1
        events := [.ackAccept seq] }) ∧
    (¬(s.sendState = .awaitingAck ∧ seq = s.currentSendSeq) →
      exec i s = .next { s.begin with events := [.ackIgnored seq] })

/-- R146: data in order is delivered, acknowledged, and the expected number advances. The row DATA is log entry 16. -/
def Obligations.InOrderDataDelivered : Prop :=
  ∀ (i : Instr) (seq : Byte) (payload checksum : Bytes) (s : State), s.fault = false →
    checksum.length = s.cfg.checksumBytes → verify s.cfg (0x00 :: seq :: (payload ++ checksum)) = true →
    i = .data seq payload checksum ∨ i = .onFrameReceived (0x00 :: seq :: (payload ++ checksum)) →
    seq.toNat < s.cfg.seqMod → seq = s.nextExpectedSeq →
    ∃ wire, exec (.ackframe seq) s = .next { s.begin with result := .bytes wire } ∧
      exec i s = .next { s.begin with
        deliveries := [payload]
        tx := wire
        nextExpectedSeq := BitVec.ofNat 8 ((s.nextExpectedSeq.toNat + 1) % s.cfg.seqMod)
        events := [.deliver seq, .txAck seq] }

/-- R147 with the order of R149: a duplicate is acknowledged again and not delivered. The row DATA is log entry 16. -/
def Obligations.DuplicateDataReacknowledged : Prop :=
  ∀ (i : Instr) (seq : Byte) (payload checksum : Bytes) (s : State), s.fault = false →
    checksum.length = s.cfg.checksumBytes → verify s.cfg (0x00 :: seq :: (payload ++ checksum)) = true →
    i = .data seq payload checksum ∨ i = .onFrameReceived (0x00 :: seq :: (payload ++ checksum)) →
    seq.toNat < s.cfg.seqMod → s.nextExpectedSeq.toNat < s.cfg.seqMod →
    1 ≤ ((s.nextExpectedSeq.toNat : Int) - seq.toNat) % s.cfg.seqMod →
    ((s.nextExpectedSeq.toNat : Int) - seq.toNat) % s.cfg.seqMod ≤ s.cfg.seqMod / 2 →
    ∃ wire, exec (.ackframe seq) s = .next { s.begin with result := .bytes wire } ∧
      exec i s = .next { s.begin with tx := wire, events := [.dupData seq, .txAck seq] }

/-- R148 with the order of R149: data ahead of sequence is dropped. The row DATA is log entry 16. -/
def Obligations.AheadDataDropped : Prop :=
  ∀ (i : Instr) (seq : Byte) (payload checksum : Bytes) (s : State), s.fault = false →
    checksum.length = s.cfg.checksumBytes → verify s.cfg (0x00 :: seq :: (payload ++ checksum)) = true →
    i = .data seq payload checksum ∨ i = .onFrameReceived (0x00 :: seq :: (payload ++ checksum)) →
    seq.toNat < s.cfg.seqMod → s.nextExpectedSeq.toNat < s.cfg.seqMod →
    (s.cfg.seqMod : Int) / 2 < ((s.nextExpectedSeq.toNat : Int) - seq.toNat) % s.cfg.seqMod →
    exec i s = .next { s.begin with events := [.dropFuture seq] }

/-- R149: equal, earlier or ahead, by the distance modulo `N`; `floor(N / 2)` numbers are earlier. -/
def Obligations.SequenceOrderIsHalfWindow : Prop :=
  ∀ (c : Cfg) (seq expected : Byte), seq.toNat < c.seqMod → expected.toNat < c.seqMod → c.seqMod ≤ 256 →
    ((((expected.toNat : Int) - seq.toNat) % c.seqMod = 0) ↔ seq = expected) ∧
    (earlier c seq expected = true ↔
      1 ≤ ((expected.toNat : Int) - seq.toNat) % c.seqMod ∧
        ((expected.toNat : Int) - seq.toNat) % c.seqMod ≤ c.seqMod / 2) ∧
    (List.range c.seqMod).countP (fun n => earlier c (BitVec.ofNat 8 n) expected) = c.seqMod / 2

/-- NA's idempotent duplicate suppression (R147): the frame that was delivered, received again at once, is
acknowledged again with the same bytes and not delivered again. -/
def Obligations.DeliveredFrameNotRedelivered : Prop :=
  ∀ (raw : Bytes) (s t : State), s.cfg.valid = true →
    exec (.onFrameReceived raw) s = .next t → t.deliveries ≠ [] →
    ∃ u, exec (.onFrameReceived raw) t = .next u ∧ u.deliveries = [] ∧ u.tx = t.tx ∧
      u.nextExpectedSeq = t.nextExpectedSeq

/-- R151 with the time arithmetic of R152: ON_TICK retransmits the stored frame iff more than `T` has
passed. The timestamp is then `now`, for a `now` of `TIME_W` bits. -/
def Obligations.TimerRetransmitsVerbatim : Prop :=
  ∀ (now e : Nat) (s : State), s.fault = false →
    (s.sendState = .idle → exec (.onTick now) s = .next s.begin) ∧
    (s.sendState = .awaitingAck →
      (s.cfg.timeW = none → s.pendingTimestamp ≤ now ∧ e = now - s.pendingTimestamp) →
      (∀ w, s.cfg.timeW = some w → (e : Int) = ((now : Int) - s.pendingTimestamp) % 2 ^ w) →
      ∃ time, ((∀ w, s.cfg.timeW = some w → now < 2 ^ w) → time = now) ∧
        exec (.onTick now) s = .next
          (if s.cfg.timeout < e then
            { s.begin with
              tx := s.pendingFrame
              pendingTimestamp := time
              events := [.txRetx s.currentSendSeq] }
          else s.begin))

/-- R109, R191 and NA's damaged-frame scenario: one flipped bit anywhere in the body of a data frame or of an
acknowledgment is caught, and the body has no effect, under a codec that detects single-bit errors. -/
def Obligations.FlippedBitHasNoEffect : Prop :=
  ∀ (header payload : Bytes) (s : State), s.fault = false → s.cfg.valid = true → header.length = 2 →
    ¬(s.cfg.codec = .crc ∧ s.cfg.g = 2 ^ s.cfg.checksumBits) →
    ∃ body, exec (.appendChecksum (header ++ payload)) s = .next { s.begin with result := .bytes body } ∧
      ∀ k i, k < body.length → i < 8 →
        exec (.onFrameReceived (flipBit body k i)) s = .next { s.begin with events := [.dropChecksum] }

/-! ## Link Endpoint -/

/-- R171: SEND refuses a payload that is too long, answers `full`, or queues the payload at the tail. -/
def Obligations.SendQueuesInOrder : Prop :=
  ∀ (payload : Bytes) (s : State),
    (s.fault = true → exec (.send payload) s = .refused .faulted) ∧
    (s.fault = false → fits s.cfg.maxPayload payload.length = false →
      exec (.send payload) s = .refused .payloadTooLong) ∧
    (s.fault = false → fits s.cfg.maxPayload payload.length = true →
      (∀ depth, s.cfg.txqDepth = some depth → s.txq.length = depth →
        exec (.send payload) s = .next { s.begin with result := .full }) ∧
      ((∀ depth, s.cfg.txqDepth = some depth → s.txq.length < depth) →
        exec (.send payload) s = .next { s.begin with txq := s.txq ++ [payload], result := .accepted }))

/-- R172 to R177: the four phases of CYCLE and every event in its place. `reported` is the frames the stream
`rxbuf ++ rx` holds, each with what TRY_DECODE gives up before it. The stored times are `now` in `TIME_W` bits
(log entry 11), and `lastNow` is the model's own field (log entry 12). -/
def Obligations.CycleRunsFourPhases : Prop :=
  ∀ (now : Nat) (rx : Bytes) (s : State), s.fault = false →
    (s.cfg.timeW = none → s.lastNow ≤ now ∧ (s.sendState = .awaitingAck → s.pendingTimestamp ≤ now)) →
    fits s.cfg.rxbufCap (s.rxbuf.length + rx.length) = true →
    let ticked : State :=
      if s.sendState = .awaitingAck ∧ s.cfg.timeout < elapsed s.cfg now s.pendingTimestamp then
        { s.begin with
          tx := s.pendingFrame
          pendingTimestamp := timeOperand s.cfg now
          events := [.txRetx s.currentSendSeq] }
      else s.begin
    let reported := framesReported s.cfg .hunt 0 0 (s.rxbuf ++ rx)
    let handled := (reported.1.foldl State.receives ticked).reports reported.2.1 reported.2.2
    let started : State :=
      match s.txq, handled.sendState with
      | payload :: rest, .idle =>
        { handled with
          txq := rest
          tx := handled.tx ++ dataFrame s.cfg handled.currentSendSeq payload
          pendingFrame := dataFrame s.cfg handled.currentSendSeq payload
          pendingTimestamp := timeOperand s.cfg now
          sendState := .awaitingAck
          events := handled.events ++ [.txData handled.currentSendSeq] }
      | _, _ => handled
    ∃ buffer,
      exec (.cycle now rx) s = .next { started with
        rxbuf := buffer
        lastNow := timeOperand s.cfg now
        result := .outputs } ∧
      reported.1.map Framed.body = (streamRun s.cfg .hunt (s.rxbuf ++ rx)).2 ∧
      settled s.cfg buffer ∧ (∃ taken, s.rxbuf ++ rx = taken ++ buffer) ∧
      (streamRun s.cfg .hunt buffer) = ((streamRun s.cfg .hunt (s.rxbuf ++ rx)).1, [])

/-- R221, R224: a cycle that finds nothing to do changes nothing but the time last seen (log entry 12) and
the outputs. -/
def Obligations.QuietCycleChangesNothing : Prop :=
  ∀ (now : Nat) (s : State), s.fault = false → s.sendState = .idle → s.txq = [] → settled s.cfg s.rxbuf →
    s.cfg.reservedDistinct = true → fits s.cfg.rxbufCap s.rxbuf.length = true →
    (s.cfg.timeW = none → s.lastNow ≤ now) →
    exec (.cycle now []) s = .next { s.begin with lastNow := timeOperand s.cfg now, result := .outputs }

/-! ## The whole machine -/

/-- R153, R22: outside RESET the sender advances, by one, only with an accepted acknowledgment of the number
it awaits; without one it keeps awaiting, with the same frame. -/
def Obligations.SenderAdvancesOnlyByAcknowledgment : Prop :=
  ∀ (i : Instr) (s t : State), (∀ cfg, i ≠ .reset cfg) → exec i s = .next t →
    (t.events.filterMap Event.accepted? = [] ∧ t.currentSendSeq = s.currentSendSeq ∧
      (s.sendState = .awaitingAck → t.sendState = .awaitingAck ∧ t.pendingFrame = s.pendingFrame)) ∨
    (t.events.filterMap Event.accepted? = [s.currentSendSeq] ∧ s.sendState = .awaitingAck ∧
      t.currentSendSeq = BitVec.ofNat 8 ((s.currentSendSeq.toNat + 1) % s.cfg.seqMod))

/-- R154, R23: outside RESET the receiver advances once per delivery, and the numbers delivered are
consecutive from the one expected. -/
def Obligations.ReceiverAdvancesByDeliveries : Prop :=
  ∀ (i : Instr) (s t : State), (∀ cfg, i ≠ .reset cfg) → exec i s = .next t →
    t.nextExpectedSeq = (nextSeq s.cfg)^[t.deliveries.length] s.nextExpectedSeq ∧
    t.events.filterMap Event.delivered? =
      (List.range t.deliveries.length).map fun k => (nextSeq s.cfg)^[k] s.nextExpectedSeq

/-- R177: what an operation transmits is, frame by frame and in the order of its events, the frame pending
before, acknowledgments, and the frame pending after. -/
def Obligations.TransmittedBytesFollowEvents : Prop :=
  ∀ (i : Instr) (s t : State), (∀ cfg, i ≠ .reset cfg) → exec i s = .next t →
    t.tx = t.events.flatMap (Event.transmits s.cfg s.pendingFrame t.pendingFrame) ∧
    (t.events.filterMap Event.rank?).Pairwise (· ≤ ·) ∧
    (t.events.filterMap Event.rank?).count 0 ≤ 1 ∧ (t.events.filterMap Event.rank?).count 2 ≤ 1

/-- R26, R27, R50: `rxbuf` is appended to by CYCLE, and by a byte row (log entry 15), and otherwise only trimmed
from the front; `txq` is pushed by SEND and popped by CYCLE, which starts the head. -/
def Obligations.StoresChangeOnlyByTheirPrimitives : Prop :=
  ∀ (i : Instr) (s t : State), (∀ cfg, i ≠ .reset cfg) → exec i s = .next t →
    (∃ taken,
      s.rxbuf ++ (match i with
        | .cycle _ rx => rx
        | .start => [s.cfg.start]
        | .stop => [s.cfg.stop]
        | .escape => [s.cfg.escape]
        | .literal b => [b]
        | _ => []) = taken ++ t.rxbuf) ∧
    (t.txq = s.txq ∨
      (∃ payload, i = .send payload ∧ t.txq = s.txq ++ [payload] ∧ t.result = .accepted) ∨
      (∃ now rx payload, i = .cycle now rx ∧ s.txq = payload :: t.txq ∧ t.sendState = .awaitingAck ∧
        t.pendingFrame = dataFrame s.cfg t.currentSendSeq payload))

/-- R20: the two halves of the state are independent. Another expected number changes nothing but itself,
the outputs and their events; another sender half does not change what is received. -/
def Obligations.HalvesAreIndependent : Prop :=
  ∀ (i : Instr) (s t : State), exec i s = .next t →
    (∀ expected, ∃ u, exec i { s with nextExpectedSeq := expected } = .next u ∧
      u = { t with
        nextExpectedSeq := u.nextExpectedSeq
        tx := u.tx
        deliveries := u.deliveries
        events := u.events }) ∧
    ∀ sender seq frame time u,
      exec i { s with
        sendState := sender
        currentSendSeq := seq
        pendingFrame := frame
        pendingTimestamp := time } = .next u →
      u.nextExpectedSeq = t.nextExpectedSeq ∧ u.deliveries = t.deliveries ∧ u.rxbuf = t.rxbuf

/-- NA's concrete scenario (R155): one payload over a clean medium is delivered once, acknowledged once, and
frees the sender. -/
def Obligations.OneExchangeDeliversOnce : Prop :=
  ∀ (a b : State) (payload : Bytes) (n1 n2 n3 : Nat),
    a.fault = false → b.fault = false → a.cfg.valid = true →
    b.cfg = { a.cfg with
      timeout := b.cfg.timeout
      timeW := b.cfg.timeW
      maxPayload := b.cfg.maxPayload
      rxbufCap := b.cfg.rxbufCap
      txqDepth := b.cfg.txqDepth } →
    a.sendState = .idle → a.txq = [payload] → a.rxbuf = [] →
    b.sendState = .idle → b.txq = [] → b.rxbuf = [] →
    b.nextExpectedSeq = a.currentSendSeq → a.currentSendSeq.toNat < a.cfg.seqMod →
    (a.cfg.timeW = none → a.lastNow ≤ n1 ∧ n1 ≤ n3) → (b.cfg.timeW = none → b.lastNow ≤ n2) →
    fits b.cfg.rxbufCap (dataFrame a.cfg a.currentSendSeq payload).length = true →
    fits a.cfg.rxbufCap (ackFrame a.cfg a.currentSendSeq).length = true →
    ∃ a1 b1 a2,
      exec (.cycle n1 []) a = .next a1 ∧ exec (.cycle n2 a1.tx) b = .next b1 ∧
      exec (.cycle n3 b1.tx) a1 = .next a2 ∧
      a1.tx = dataFrame a.cfg a.currentSendSeq payload ∧ a1.sendState = .awaitingAck ∧
      b1.deliveries = [payload] ∧ b1.tx = ackFrame a.cfg a.currentSendSeq ∧
      a2.sendState = .idle ∧ a2.deliveries = [] ∧ a2.currentSendSeq = b1.nextExpectedSeq

/-- R155 (b): a frame the medium drops is sent again, byte for byte, once more than `T` has passed, and the
payload arrives. -/
def Obligations.LostFrameIsRecovered : Prop :=
  ∀ (a b : State) (payload : Bytes) (n1 n2 n3 n4 : Nat),
    a.fault = false → b.fault = false → a.cfg.valid = true →
    b.cfg = { a.cfg with
      timeout := b.cfg.timeout
      timeW := b.cfg.timeW
      maxPayload := b.cfg.maxPayload
      rxbufCap := b.cfg.rxbufCap
      txqDepth := b.cfg.txqDepth } →
    a.sendState = .idle → a.txq = [payload] → a.rxbuf = [] →
    b.sendState = .idle → b.txq = [] → b.rxbuf = [] →
    b.nextExpectedSeq = a.currentSendSeq → a.currentSendSeq.toNat < a.cfg.seqMod →
    (a.cfg.timeW = none → a.lastNow ≤ n1 ∧ n1 + a.cfg.timeout < n2 ∧ n2 ≤ n4) →
    (∀ w, a.cfg.timeW = some w → (a.cfg.timeout : Int) < ((n2 : Int) - n1) % 2 ^ w) →
    (b.cfg.timeW = none → b.lastNow ≤ n3) →
    fits b.cfg.rxbufCap (dataFrame a.cfg a.currentSendSeq payload).length = true →
    fits a.cfg.rxbufCap (ackFrame a.cfg a.currentSendSeq).length = true →
    ∃ a1 a2 b1 a3,
      exec (.cycle n1 []) a = .next a1 ∧ exec (.cycle n2 []) a1 = .next a2 ∧
      a2.tx = a1.tx ∧ a2.events = [.txRetx a.currentSendSeq] ∧
      exec (.cycle n3 a2.tx) b = .next b1 ∧ exec (.cycle n4 b1.tx) a2 = .next a3 ∧
      b1.deliveries = [payload] ∧ a3.sendState = .idle ∧ a3.deliveries = [] ∧
      a3.currentSendSeq = b1.nextExpectedSeq

/-- R155 (a): whatever two endpoints reset together send and poll over a medium that loses and damages but
keeps order and forges nothing, the payloads delivered at `b` are those accepted at `a`, in order and once
each, but for those still queued and at most one on its way. The relation `Link`, whose medium is described by the
bodies an endpoint completes, is log entry 20. -/
def Obligations.PayloadsDeliveredOnceInOrder : Prop :=
  ∀ l l' : Link, l.Fresh → Relation.ReflTransGen Link.Step l l' →
    ∃ outstanding, l'.accepted = l'.delivered ++ outstanding ++ l'.a.txq ∧ outstanding.length ≤ 1 ∧
      (l'.a.sendState = .idle → outstanding = [])

/-! ## Decoding and stepping -/

/-- R71, R75, R80, R87, and the operand coding of log entry 2: what the encoder writes, the decoder reads
back, for every well-formed instruction. -/
def Obligations.DecodeEncodeRoundTrip : Prop :=
  ∀ (c : Cfg) (i : Instr), i.wf c = true → decode c (encode c i) = .ok i

/-- R71, R75, R81: the decoder yields well-formed instructions only. Of a command it holds by the model's own
coding of the operands: APPEND_CHECKSUM never gets the empty sequence (log entry 2), and RESET never a `TIME_W` of
0 (log entries 2 and 18). -/
def Obligations.DecoderYieldsWellFormed : Prop :=
  ∀ (c : Cfg) (r : Request) (i : Instr), c.reservedDistinct = true → decode c r = .ok i → i.wf c = true

/-- R71, R75, R80: outside the command port an encoding has one meaning, so the encoder gives it back; a
body too short for a header belongs to no frame type (R83). -/
def Obligations.WireEncodingsAreUnique : Prop :=
  ∀ (c : Cfg) (r : Request) (i : Instr), (∀ bytes, r ≠ .command bytes) →
    (∀ raw, r = .body raw → 2 + c.checksumBytes ≤ raw.length) → decode c r = .ok i → encode c i = r

/-- A step takes the oldest request, decodes it and executes it; with none it does nothing (R202); a command
the decoder refuses stops the machine (log entries 1 and 3). -/
def Obligations.StepRunsDecodedRequest : Prop :=
  (∀ s : State, s.inbox = [] → step s = .next s) ∧
  (∀ (s : State) (r : Request) (rest : List Request) (i : Instr), s.inbox = r :: rest →
    decode s.cfg r = .ok i → step s = exec i { s with inbox := rest }) ∧
  ∀ (s : State) (r : Request) (rest : List Request) (e : DecodeError), s.inbox = r :: rest →
    decode s.cfg r = .error e → step s = .fault (.undecodable e)

/-- Words written out from the spec's tables (R71, R75, R80, R87) decode to the instructions they stand
for. -/
def Obligations.DecodedWordsFromSpec : Prop :=
  decode Cfg.default (.wire 0x7B) = .ok .start ∧ decode Cfg.default (.wire 0x7D) = .ok .stop ∧
  decode Cfg.default (.wire 0x5C) = .ok .escape ∧ decode Cfg.default (.wire 0x41) = .ok (.literal 0x41) ∧
  decode Cfg.default (.body [0x00, 0x00, 0x68, 0x69, 0x80]) = .ok (.data 0 [0x68, 0x69] [0x80]) ∧
  decode Cfg.default (.body [0x01, 0x00, 0x80]) = .ok (.ack 0 [] [0x80]) ∧
  decode Cfg.default (.body [0x02, 0x00, 0x80]) = .ok (.reservedAckflag 0x02 0 [] [0x80]) ∧
  decodeTableWord 8 0x1 = some (.send []) ∧ decodeTableWord 8 0x8 = some .tryDecode ∧
  decodeTableWord 8 0xB = some (.onTick 0)

/-- Section 2 of spec/93_implementation_defined.md: operation numbers 12 and above are not defined; the
machine stops there by name (log entry 3). -/
def Obligations.UndefinedOperationNumbersStop : Prop :=
  ∀ (s : State) (number : Byte) (operands : Bytes) (rest : List Request), 12 ≤ number.toNat →
    s.inbox = .command (number :: operands) :: rest →
    step s = .fault (.undecodable (.undefinedOperation number))
end

