-- ==== Sys2Proof/Laws/State.lean ====
section
/-! SUPPORT. One lemma per field per update of the state, each true by rfl, so that no later proof unfolds a
record update. -/

namespace Sys2Proof.Machine

variable (s : State)

/-! ## begin -/

@[simp] theorem State.begin_fault : (s.begin).fault = s.fault := rfl
@[simp] theorem State.begin_sendState : (s.begin).sendState = s.sendState := rfl
@[simp] theorem State.begin_currentSendSeq : (s.begin).currentSendSeq = s.currentSendSeq := rfl
@[simp] theorem State.begin_nextExpectedSeq : (s.begin).nextExpectedSeq = s.nextExpectedSeq := rfl
@[simp] theorem State.begin_pendingFrame : (s.begin).pendingFrame = s.pendingFrame := rfl
@[simp] theorem State.begin_pendingTimestamp : (s.begin).pendingTimestamp = s.pendingTimestamp := rfl
@[simp] theorem State.begin_rxbuf : (s.begin).rxbuf = s.rxbuf := rfl
@[simp] theorem State.begin_txq : (s.begin).txq = s.txq := rfl
@[simp] theorem State.begin_cfg : (s.begin).cfg = s.cfg := rfl
@[simp] theorem State.begin_degMax : (s.begin).degMax = s.degMax := rfl
@[simp] theorem State.begin_result : (s.begin).result = .none := rfl
@[simp] theorem State.begin_tx : (s.begin).tx = [] := rfl
@[simp] theorem State.begin_deliveries : (s.begin).deliveries = [] := rfl
@[simp] theorem State.begin_events : (s.begin).events = [] := rfl
@[simp] theorem State.begin_lastNow : (s.begin).lastNow = s.lastNow := rfl
@[simp] theorem State.begin_freeCount : (s.begin).freeCount = s.freeCount := rfl
@[simp] theorem State.begin_inbox : (s.begin).inbox = s.inbox := rfl

/-! ## transmit -/

@[simp] theorem State.transmit_fault (b : Bytes) : (s.transmit b).fault = s.fault := rfl
@[simp] theorem State.transmit_sendState (b : Bytes) : (s.transmit b).sendState = s.sendState := rfl
@[simp] theorem State.transmit_currentSendSeq (b : Bytes) : (s.transmit b).currentSendSeq = s.currentSendSeq := rfl
@[simp] theorem State.transmit_nextExpectedSeq (b : Bytes) : (s.transmit b).nextExpectedSeq = s.nextExpectedSeq := rfl
@[simp] theorem State.transmit_pendingFrame (b : Bytes) : (s.transmit b).pendingFrame = s.pendingFrame := rfl
@[simp] theorem State.transmit_pendingTimestamp (b : Bytes) : (s.transmit b).pendingTimestamp = s.pendingTimestamp :=
    rfl
@[simp] theorem State.transmit_rxbuf (b : Bytes) : (s.transmit b).rxbuf = s.rxbuf := rfl
@[simp] theorem State.transmit_txq (b : Bytes) : (s.transmit b).txq = s.txq := rfl
@[simp] theorem State.transmit_cfg (b : Bytes) : (s.transmit b).cfg = s.cfg := rfl
@[simp] theorem State.transmit_degMax (b : Bytes) : (s.transmit b).degMax = s.degMax := rfl
@[simp] theorem State.transmit_result (b : Bytes) : (s.transmit b).result = s.result := rfl
@[simp] theorem State.transmit_tx (b : Bytes) : (s.transmit b).tx = s.tx ++ b := rfl
@[simp] theorem State.transmit_deliveries (b : Bytes) : (s.transmit b).deliveries = s.deliveries := rfl
@[simp] theorem State.transmit_events (b : Bytes) : (s.transmit b).events = s.events := rfl
@[simp] theorem State.transmit_lastNow (b : Bytes) : (s.transmit b).lastNow = s.lastNow := rfl
@[simp] theorem State.transmit_freeCount (b : Bytes) : (s.transmit b).freeCount = s.freeCount := rfl
@[simp] theorem State.transmit_inbox (b : Bytes) : (s.transmit b).inbox = s.inbox := rfl

/-! ## deliver -/

@[simp] theorem State.deliver_fault (p : Bytes) : (s.deliver p).fault = s.fault := rfl
@[simp] theorem State.deliver_sendState (p : Bytes) : (s.deliver p).sendState = s.sendState := rfl
@[simp] theorem State.deliver_currentSendSeq (p : Bytes) : (s.deliver p).currentSendSeq = s.currentSendSeq := rfl
@[simp] theorem State.deliver_nextExpectedSeq (p : Bytes) : (s.deliver p).nextExpectedSeq = s.nextExpectedSeq := rfl
@[simp] theorem State.deliver_pendingFrame (p : Bytes) : (s.deliver p).pendingFrame = s.pendingFrame := rfl
@[simp] theorem State.deliver_pendingTimestamp (p : Bytes) : (s.deliver p).pendingTimestamp = s.pendingTimestamp := rfl
@[simp] theorem State.deliver_rxbuf (p : Bytes) : (s.deliver p).rxbuf = s.rxbuf := rfl
@[simp] theorem State.deliver_txq (p : Bytes) : (s.deliver p).txq = s.txq := rfl
@[simp] theorem State.deliver_cfg (p : Bytes) : (s.deliver p).cfg = s.cfg := rfl
@[simp] theorem State.deliver_degMax (p : Bytes) : (s.deliver p).degMax = s.degMax := rfl
@[simp] theorem State.deliver_result (p : Bytes) : (s.deliver p).result = s.result := rfl
@[simp] theorem State.deliver_tx (p : Bytes) : (s.deliver p).tx = s.tx := rfl
@[simp] theorem State.deliver_deliveries (p : Bytes) : (s.deliver p).deliveries = s.deliveries ++ [p] := rfl
@[simp] theorem State.deliver_events (p : Bytes) : (s.deliver p).events = s.events := rfl
@[simp] theorem State.deliver_lastNow (p : Bytes) : (s.deliver p).lastNow = s.lastNow := rfl
@[simp] theorem State.deliver_freeCount (p : Bytes) : (s.deliver p).freeCount = s.freeCount := rfl
@[simp] theorem State.deliver_inbox (p : Bytes) : (s.deliver p).inbox = s.inbox := rfl

/-! ## event -/

@[simp] theorem State.event_fault (e : Event) : (s.event e).fault = s.fault := rfl
@[simp] theorem State.event_sendState (e : Event) : (s.event e).sendState = s.sendState := rfl
@[simp] theorem State.event_currentSendSeq (e : Event) : (s.event e).currentSendSeq = s.currentSendSeq := rfl
@[simp] theorem State.event_nextExpectedSeq (e : Event) : (s.event e).nextExpectedSeq = s.nextExpectedSeq := rfl
@[simp] theorem State.event_pendingFrame (e : Event) : (s.event e).pendingFrame = s.pendingFrame := rfl
@[simp] theorem State.event_pendingTimestamp (e : Event) : (s.event e).pendingTimestamp = s.pendingTimestamp := rfl
@[simp] theorem State.event_rxbuf (e : Event) : (s.event e).rxbuf = s.rxbuf := rfl
@[simp] theorem State.event_txq (e : Event) : (s.event e).txq = s.txq := rfl
@[simp] theorem State.event_cfg (e : Event) : (s.event e).cfg = s.cfg := rfl
@[simp] theorem State.event_degMax (e : Event) : (s.event e).degMax = s.degMax := rfl
@[simp] theorem State.event_result (e : Event) : (s.event e).result = s.result := rfl
@[simp] theorem State.event_tx (e : Event) : (s.event e).tx = s.tx := rfl
@[simp] theorem State.event_deliveries (e : Event) : (s.event e).deliveries = s.deliveries := rfl
@[simp] theorem State.event_events (e : Event) : (s.event e).events = s.events ++ [e] := rfl
@[simp] theorem State.event_lastNow (e : Event) : (s.event e).lastNow = s.lastNow := rfl
@[simp] theorem State.event_freeCount (e : Event) : (s.event e).freeCount = s.freeCount := rfl
@[simp] theorem State.event_inbox (e : Event) : (s.event e).inbox = s.inbox := rfl

/-! ## returns -/

@[simp] theorem State.returns_fault (r : Result) : (s.returns r).fault = s.fault := rfl
@[simp] theorem State.returns_sendState (r : Result) : (s.returns r).sendState = s.sendState := rfl
@[simp] theorem State.returns_currentSendSeq (r : Result) : (s.returns r).currentSendSeq = s.currentSendSeq := rfl
@[simp] theorem State.returns_nextExpectedSeq (r : Result) : (s.returns r).nextExpectedSeq = s.nextExpectedSeq := rfl
@[simp] theorem State.returns_pendingFrame (r : Result) : (s.returns r).pendingFrame = s.pendingFrame := rfl
@[simp] theorem State.returns_pendingTimestamp (r : Result) : (s.returns r).pendingTimestamp = s.pendingTimestamp := rfl
@[simp] theorem State.returns_rxbuf (r : Result) : (s.returns r).rxbuf = s.rxbuf := rfl
@[simp] theorem State.returns_txq (r : Result) : (s.returns r).txq = s.txq := rfl
@[simp] theorem State.returns_cfg (r : Result) : (s.returns r).cfg = s.cfg := rfl
@[simp] theorem State.returns_degMax (r : Result) : (s.returns r).degMax = s.degMax := rfl
@[simp] theorem State.returns_result (r : Result) : (s.returns r).result = r := rfl
@[simp] theorem State.returns_tx (r : Result) : (s.returns r).tx = s.tx := rfl
@[simp] theorem State.returns_deliveries (r : Result) : (s.returns r).deliveries = s.deliveries := rfl
@[simp] theorem State.returns_events (r : Result) : (s.returns r).events = s.events := rfl
@[simp] theorem State.returns_lastNow (r : Result) : (s.returns r).lastNow = s.lastNow := rfl
@[simp] theorem State.returns_freeCount (r : Result) : (s.returns r).freeCount = s.freeCount := rfl
@[simp] theorem State.returns_inbox (r : Result) : (s.returns r).inbox = s.inbox := rfl

/-! ## bufTrim -/

@[simp] theorem State.bufTrim_fault (k : Nat) : (s.bufTrim k).fault = s.fault := rfl
@[simp] theorem State.bufTrim_sendState (k : Nat) : (s.bufTrim k).sendState = s.sendState := rfl
@[simp] theorem State.bufTrim_currentSendSeq (k : Nat) : (s.bufTrim k).currentSendSeq = s.currentSendSeq := rfl
@[simp] theorem State.bufTrim_nextExpectedSeq (k : Nat) : (s.bufTrim k).nextExpectedSeq = s.nextExpectedSeq := rfl
@[simp] theorem State.bufTrim_pendingFrame (k : Nat) : (s.bufTrim k).pendingFrame = s.pendingFrame := rfl
@[simp] theorem State.bufTrim_pendingTimestamp (k : Nat) : (s.bufTrim k).pendingTimestamp = s.pendingTimestamp := rfl
@[simp] theorem State.bufTrim_rxbuf (k : Nat) : (s.bufTrim k).rxbuf = s.rxbuf.drop k := rfl
@[simp] theorem State.bufTrim_txq (k : Nat) : (s.bufTrim k).txq = s.txq := rfl
@[simp] theorem State.bufTrim_cfg (k : Nat) : (s.bufTrim k).cfg = s.cfg := rfl
@[simp] theorem State.bufTrim_degMax (k : Nat) : (s.bufTrim k).degMax = s.degMax := rfl
@[simp] theorem State.bufTrim_result (k : Nat) : (s.bufTrim k).result = s.result := rfl
@[simp] theorem State.bufTrim_tx (k : Nat) : (s.bufTrim k).tx = s.tx := rfl
@[simp] theorem State.bufTrim_deliveries (k : Nat) : (s.bufTrim k).deliveries = s.deliveries := rfl
@[simp] theorem State.bufTrim_events (k : Nat) : (s.bufTrim k).events = s.events := rfl
@[simp] theorem State.bufTrim_lastNow (k : Nat) : (s.bufTrim k).lastNow = s.lastNow := rfl
@[simp] theorem State.bufTrim_freeCount (k : Nat) : (s.bufTrim k).freeCount = s.freeCount := rfl
@[simp] theorem State.bufTrim_inbox (k : Nat) : (s.bufTrim k).inbox = s.inbox := rfl

/-! ## qPush -/

@[simp] theorem State.qPush_fault (p : Bytes) : (s.qPush p).fault = s.fault := rfl
@[simp] theorem State.qPush_sendState (p : Bytes) : (s.qPush p).sendState = s.sendState := rfl
@[simp] theorem State.qPush_currentSendSeq (p : Bytes) : (s.qPush p).currentSendSeq = s.currentSendSeq := rfl
@[simp] theorem State.qPush_nextExpectedSeq (p : Bytes) : (s.qPush p).nextExpectedSeq = s.nextExpectedSeq := rfl
@[simp] theorem State.qPush_pendingFrame (p : Bytes) : (s.qPush p).pendingFrame = s.pendingFrame := rfl
@[simp] theorem State.qPush_pendingTimestamp (p : Bytes) : (s.qPush p).pendingTimestamp = s.pendingTimestamp := rfl
@[simp] theorem State.qPush_rxbuf (p : Bytes) : (s.qPush p).rxbuf = s.rxbuf := rfl
@[simp] theorem State.qPush_txq (p : Bytes) : (s.qPush p).txq = s.txq ++ [p] := rfl
@[simp] theorem State.qPush_cfg (p : Bytes) : (s.qPush p).cfg = s.cfg := rfl
@[simp] theorem State.qPush_degMax (p : Bytes) : (s.qPush p).degMax = s.degMax := rfl
@[simp] theorem State.qPush_result (p : Bytes) : (s.qPush p).result = s.result := rfl
@[simp] theorem State.qPush_tx (p : Bytes) : (s.qPush p).tx = s.tx := rfl
@[simp] theorem State.qPush_deliveries (p : Bytes) : (s.qPush p).deliveries = s.deliveries := rfl
@[simp] theorem State.qPush_events (p : Bytes) : (s.qPush p).events = s.events := rfl
@[simp] theorem State.qPush_lastNow (p : Bytes) : (s.qPush p).lastNow = s.lastNow := rfl
@[simp] theorem State.qPush_freeCount (p : Bytes) : (s.qPush p).freeCount = s.freeCount := rfl
@[simp] theorem State.qPush_inbox (p : Bytes) : (s.qPush p).inbox = s.inbox := rfl

/-! ## qPop -/

@[simp] theorem State.qPop_fault : (s.qPop).fault = s.fault := rfl
@[simp] theorem State.qPop_sendState : (s.qPop).sendState = s.sendState := rfl
@[simp] theorem State.qPop_currentSendSeq : (s.qPop).currentSendSeq = s.currentSendSeq := rfl
@[simp] theorem State.qPop_nextExpectedSeq : (s.qPop).nextExpectedSeq = s.nextExpectedSeq := rfl
@[simp] theorem State.qPop_pendingFrame : (s.qPop).pendingFrame = s.pendingFrame := rfl
@[simp] theorem State.qPop_pendingTimestamp : (s.qPop).pendingTimestamp = s.pendingTimestamp := rfl
@[simp] theorem State.qPop_rxbuf : (s.qPop).rxbuf = s.rxbuf := rfl
@[simp] theorem State.qPop_txq : (s.qPop).txq = s.txq.drop 1 := rfl
@[simp] theorem State.qPop_cfg : (s.qPop).cfg = s.cfg := rfl
@[simp] theorem State.qPop_degMax : (s.qPop).degMax = s.degMax := rfl
@[simp] theorem State.qPop_result : (s.qPop).result = s.result := rfl
@[simp] theorem State.qPop_tx : (s.qPop).tx = s.tx := rfl
@[simp] theorem State.qPop_deliveries : (s.qPop).deliveries = s.deliveries := rfl
@[simp] theorem State.qPop_events : (s.qPop).events = s.events := rfl
@[simp] theorem State.qPop_lastNow : (s.qPop).lastNow = s.lastNow := rfl
@[simp] theorem State.qPop_freeCount : (s.qPop).freeCount = s.freeCount := rfl
@[simp] theorem State.qPop_inbox : (s.qPop).inbox = s.inbox := rfl

/-! ## forgetPending -/

@[simp] theorem State.forgetPending_fault : (s.forgetPending).fault = s.fault := rfl
@[simp] theorem State.forgetPending_sendState : (s.forgetPending).sendState = s.sendState := rfl
@[simp] theorem State.forgetPending_currentSendSeq : (s.forgetPending).currentSendSeq = s.currentSendSeq := rfl
@[simp] theorem State.forgetPending_nextExpectedSeq : (s.forgetPending).nextExpectedSeq = s.nextExpectedSeq := rfl
@[simp] theorem State.forgetPending_pendingFrame : (s.forgetPending).pendingFrame = Config.freeFrame s.freeCount := rfl
@[simp] theorem State.forgetPending_pendingTimestamp : (s.forgetPending).pendingTimestamp =
    timeOperand s.cfg (Config.freeTime s.freeCount) := rfl
@[simp] theorem State.forgetPending_rxbuf : (s.forgetPending).rxbuf = s.rxbuf := rfl
@[simp] theorem State.forgetPending_txq : (s.forgetPending).txq = s.txq := rfl
@[simp] theorem State.forgetPending_cfg : (s.forgetPending).cfg = s.cfg := rfl
@[simp] theorem State.forgetPending_degMax : (s.forgetPending).degMax = s.degMax := rfl
@[simp] theorem State.forgetPending_result : (s.forgetPending).result = s.result := rfl
@[simp] theorem State.forgetPending_tx : (s.forgetPending).tx = s.tx := rfl
@[simp] theorem State.forgetPending_deliveries : (s.forgetPending).deliveries = s.deliveries := rfl
@[simp] theorem State.forgetPending_events : (s.forgetPending).events = s.events := rfl
@[simp] theorem State.forgetPending_lastNow : (s.forgetPending).lastNow = s.lastNow := rfl
@[simp] theorem State.forgetPending_freeCount : (s.forgetPending).freeCount = s.freeCount + 1 := rfl
@[simp] theorem State.forgetPending_inbox : (s.forgetPending).inbox = s.inbox := rfl

/-! ## raiseConfigError -/

@[simp] theorem State.raiseConfigError_fault : (s.raiseConfigError).fault = true := rfl
@[simp] theorem State.raiseConfigError_sendState : (s.raiseConfigError).sendState = s.sendState := rfl
@[simp] theorem State.raiseConfigError_currentSendSeq : (s.raiseConfigError).currentSendSeq = s.currentSendSeq := rfl
@[simp] theorem State.raiseConfigError_nextExpectedSeq : (s.raiseConfigError).nextExpectedSeq = s.nextExpectedSeq := rfl
@[simp] theorem State.raiseConfigError_pendingFrame : (s.raiseConfigError).pendingFrame = s.pendingFrame := rfl
@[simp] theorem State.raiseConfigError_pendingTimestamp : (s.raiseConfigError).pendingTimestamp =
    s.pendingTimestamp := rfl
@[simp] theorem State.raiseConfigError_rxbuf : (s.raiseConfigError).rxbuf = s.rxbuf := rfl
@[simp] theorem State.raiseConfigError_txq : (s.raiseConfigError).txq = s.txq := rfl
@[simp] theorem State.raiseConfigError_cfg : (s.raiseConfigError).cfg = s.cfg := rfl
@[simp] theorem State.raiseConfigError_degMax : (s.raiseConfigError).degMax = s.degMax := rfl
@[simp] theorem State.raiseConfigError_result : (s.raiseConfigError).result = .configError := rfl
@[simp] theorem State.raiseConfigError_tx : (s.raiseConfigError).tx = s.tx := rfl
@[simp] theorem State.raiseConfigError_deliveries : (s.raiseConfigError).deliveries = s.deliveries := rfl
@[simp] theorem State.raiseConfigError_events : (s.raiseConfigError).events = s.events := rfl
@[simp] theorem State.raiseConfigError_lastNow : (s.raiseConfigError).lastNow = s.lastNow := rfl
@[simp] theorem State.raiseConfigError_freeCount : (s.raiseConfigError).freeCount = s.freeCount := rfl
@[simp] theorem State.raiseConfigError_inbox : (s.raiseConfigError).inbox = s.inbox := rfl

/-! ## request -/

@[simp] theorem State.request_fault (r : Request) : (s.request r).fault = s.fault := rfl
@[simp] theorem State.request_sendState (r : Request) : (s.request r).sendState = s.sendState := rfl
@[simp] theorem State.request_currentSendSeq (r : Request) : (s.request r).currentSendSeq = s.currentSendSeq := rfl
@[simp] theorem State.request_nextExpectedSeq (r : Request) : (s.request r).nextExpectedSeq = s.nextExpectedSeq := rfl
@[simp] theorem State.request_pendingFrame (r : Request) : (s.request r).pendingFrame = s.pendingFrame := rfl
@[simp] theorem State.request_pendingTimestamp (r : Request) : (s.request r).pendingTimestamp = s.pendingTimestamp :=
    rfl
@[simp] theorem State.request_rxbuf (r : Request) : (s.request r).rxbuf = s.rxbuf := rfl
@[simp] theorem State.request_txq (r : Request) : (s.request r).txq = s.txq := rfl
@[simp] theorem State.request_cfg (r : Request) : (s.request r).cfg = s.cfg := rfl
@[simp] theorem State.request_degMax (r : Request) : (s.request r).degMax = s.degMax := rfl
@[simp] theorem State.request_result (r : Request) : (s.request r).result = s.result := rfl
@[simp] theorem State.request_tx (r : Request) : (s.request r).tx = s.tx := rfl
@[simp] theorem State.request_deliveries (r : Request) : (s.request r).deliveries = s.deliveries := rfl
@[simp] theorem State.request_events (r : Request) : (s.request r).events = s.events := rfl
@[simp] theorem State.request_lastNow (r : Request) : (s.request r).lastNow = s.lastNow := rfl
@[simp] theorem State.request_freeCount (r : Request) : (s.request r).freeCount = s.freeCount := rfl
@[simp] theorem State.request_inbox (r : Request) : (s.request r).inbox = r :: s.inbox := rfl

/-! ## cleared -/

@[simp] theorem State.cleared_fault (c : Cfg) : (s.cleared c).fault = false := rfl
@[simp] theorem State.cleared_sendState (c : Cfg) : (s.cleared c).sendState = .idle := rfl
@[simp] theorem State.cleared_currentSendSeq (c : Cfg) : (s.cleared c).currentSendSeq = 0 := rfl
@[simp] theorem State.cleared_nextExpectedSeq (c : Cfg) : (s.cleared c).nextExpectedSeq = 0 := rfl
@[simp] theorem State.cleared_pendingFrame (c : Cfg) : (s.cleared c).pendingFrame = Config.freeFrame s.freeCount := rfl
@[simp] theorem State.cleared_pendingTimestamp (c : Cfg) : (s.cleared c).pendingTimestamp =
    timeOperand c (Config.freeTime s.freeCount) := rfl
@[simp] theorem State.cleared_rxbuf (c : Cfg) : (s.cleared c).rxbuf = [] := rfl
@[simp] theorem State.cleared_txq (c : Cfg) : (s.cleared c).txq = [] := rfl
@[simp] theorem State.cleared_cfg (c : Cfg) : (s.cleared c).cfg = c := rfl
@[simp] theorem State.cleared_degMax (c : Cfg) : (s.cleared c).degMax = s.degMax := rfl
@[simp] theorem State.cleared_result (c : Cfg) : (s.cleared c).result = .none := rfl
@[simp] theorem State.cleared_tx (c : Cfg) : (s.cleared c).tx = [] := rfl
@[simp] theorem State.cleared_deliveries (c : Cfg) : (s.cleared c).deliveries = [] := rfl
@[simp] theorem State.cleared_events (c : Cfg) : (s.cleared c).events = [] := rfl
@[simp] theorem State.cleared_lastNow (c : Cfg) : (s.cleared c).lastNow = 0 := rfl
@[simp] theorem State.cleared_freeCount (c : Cfg) : (s.cleared c).freeCount = s.freeCount + 1 := rfl
@[simp] theorem State.cleared_inbox (c : Cfg) : (s.cleared c).inbox = s.inbox := rfl

/-! ## dataInOrder -/

@[simp] theorem State.dataInOrder_fault (q : Byte) (p : Bytes) : (s.dataInOrder q p).fault = s.fault := rfl
@[simp] theorem State.dataInOrder_sendState (q : Byte) (p : Bytes) : (s.dataInOrder q p).sendState = s.sendState := rfl
@[simp] theorem State.dataInOrder_currentSendSeq (q : Byte) (p : Bytes) :
    (s.dataInOrder q p).currentSendSeq = s.currentSendSeq := rfl
@[simp] theorem State.dataInOrder_nextExpectedSeq (q : Byte) (p : Bytes) :
    (s.dataInOrder q p).nextExpectedSeq = nextSeq s.cfg s.nextExpectedSeq := rfl
@[simp] theorem State.dataInOrder_pendingFrame (q : Byte) (p : Bytes) :
    (s.dataInOrder q p).pendingFrame = s.pendingFrame := rfl
@[simp] theorem State.dataInOrder_pendingTimestamp (q : Byte) (p : Bytes) :
    (s.dataInOrder q p).pendingTimestamp = s.pendingTimestamp := rfl
@[simp] theorem State.dataInOrder_rxbuf (q : Byte) (p : Bytes) : (s.dataInOrder q p).rxbuf = s.rxbuf := rfl
@[simp] theorem State.dataInOrder_txq (q : Byte) (p : Bytes) : (s.dataInOrder q p).txq = s.txq := rfl
@[simp] theorem State.dataInOrder_cfg (q : Byte) (p : Bytes) : (s.dataInOrder q p).cfg = s.cfg := rfl
@[simp] theorem State.dataInOrder_degMax (q : Byte) (p : Bytes) : (s.dataInOrder q p).degMax = s.degMax := rfl
@[simp] theorem State.dataInOrder_result (q : Byte) (p : Bytes) : (s.dataInOrder q p).result = s.result := rfl
@[simp] theorem State.dataInOrder_tx (q : Byte) (p : Bytes) : (s.dataInOrder q p).tx = s.tx ++ ackFrame s.cfg q := rfl
@[simp] theorem State.dataInOrder_deliveries (q : Byte) (p : Bytes) :
    (s.dataInOrder q p).deliveries = s.deliveries ++ [p] := rfl
@[simp] theorem State.dataInOrder_events (q : Byte) (p : Bytes) :
    (s.dataInOrder q p).events = s.events ++ [.deliver q] ++ [.txAck q] := rfl
@[simp] theorem State.dataInOrder_lastNow (q : Byte) (p : Bytes) : (s.dataInOrder q p).lastNow = s.lastNow := rfl
@[simp] theorem State.dataInOrder_freeCount (q : Byte) (p : Bytes) : (s.dataInOrder q p).freeCount = s.freeCount := rfl
@[simp] theorem State.dataInOrder_inbox (q : Byte) (p : Bytes) : (s.dataInOrder q p).inbox = s.inbox := rfl

/-! ## dataDuplicate -/

@[simp] theorem State.dataDuplicate_fault (q : Byte) : (s.dataDuplicate q).fault = s.fault := rfl
@[simp] theorem State.dataDuplicate_sendState (q : Byte) : (s.dataDuplicate q).sendState = s.sendState := rfl
@[simp] theorem State.dataDuplicate_currentSendSeq (q : Byte) :
    (s.dataDuplicate q).currentSendSeq = s.currentSendSeq := rfl
@[simp] theorem State.dataDuplicate_nextExpectedSeq (q : Byte) :
    (s.dataDuplicate q).nextExpectedSeq = s.nextExpectedSeq := rfl
@[simp] theorem State.dataDuplicate_pendingFrame (q : Byte) : (s.dataDuplicate q).pendingFrame = s.pendingFrame := rfl
@[simp] theorem State.dataDuplicate_pendingTimestamp (q : Byte) :
    (s.dataDuplicate q).pendingTimestamp = s.pendingTimestamp := rfl
@[simp] theorem State.dataDuplicate_rxbuf (q : Byte) : (s.dataDuplicate q).rxbuf = s.rxbuf := rfl
@[simp] theorem State.dataDuplicate_txq (q : Byte) : (s.dataDuplicate q).txq = s.txq := rfl
@[simp] theorem State.dataDuplicate_cfg (q : Byte) : (s.dataDuplicate q).cfg = s.cfg := rfl
@[simp] theorem State.dataDuplicate_degMax (q : Byte) : (s.dataDuplicate q).degMax = s.degMax := rfl
@[simp] theorem State.dataDuplicate_result (q : Byte) : (s.dataDuplicate q).result = s.result := rfl
@[simp] theorem State.dataDuplicate_tx (q : Byte) : (s.dataDuplicate q).tx = s.tx ++ ackFrame s.cfg q := rfl
@[simp] theorem State.dataDuplicate_deliveries (q : Byte) : (s.dataDuplicate q).deliveries = s.deliveries := rfl
@[simp] theorem State.dataDuplicate_events (q : Byte) : (s.dataDuplicate q).events =
    s.events ++ [.dupData q] ++ [.txAck q] := rfl
@[simp] theorem State.dataDuplicate_lastNow (q : Byte) : (s.dataDuplicate q).lastNow = s.lastNow := rfl
@[simp] theorem State.dataDuplicate_freeCount (q : Byte) : (s.dataDuplicate q).freeCount = s.freeCount := rfl
@[simp] theorem State.dataDuplicate_inbox (q : Byte) : (s.dataDuplicate q).inbox = s.inbox := rfl

/-! ## dataAhead -/

@[simp] theorem State.dataAhead_fault (q : Byte) : (s.dataAhead q).fault = s.fault := rfl
@[simp] theorem State.dataAhead_sendState (q : Byte) : (s.dataAhead q).sendState = s.sendState := rfl
@[simp] theorem State.dataAhead_currentSendSeq (q : Byte) : (s.dataAhead q).currentSendSeq = s.currentSendSeq := rfl
@[simp] theorem State.dataAhead_nextExpectedSeq (q : Byte) : (s.dataAhead q).nextExpectedSeq = s.nextExpectedSeq := rfl
@[simp] theorem State.dataAhead_pendingFrame (q : Byte) : (s.dataAhead q).pendingFrame = s.pendingFrame := rfl
@[simp] theorem State.dataAhead_pendingTimestamp (q : Byte) :
    (s.dataAhead q).pendingTimestamp = s.pendingTimestamp := rfl
@[simp] theorem State.dataAhead_rxbuf (q : Byte) : (s.dataAhead q).rxbuf = s.rxbuf := rfl
@[simp] theorem State.dataAhead_txq (q : Byte) : (s.dataAhead q).txq = s.txq := rfl
@[simp] theorem State.dataAhead_cfg (q : Byte) : (s.dataAhead q).cfg = s.cfg := rfl
@[simp] theorem State.dataAhead_degMax (q : Byte) : (s.dataAhead q).degMax = s.degMax := rfl
@[simp] theorem State.dataAhead_result (q : Byte) : (s.dataAhead q).result = s.result := rfl
@[simp] theorem State.dataAhead_tx (q : Byte) : (s.dataAhead q).tx = s.tx := rfl
@[simp] theorem State.dataAhead_deliveries (q : Byte) : (s.dataAhead q).deliveries = s.deliveries := rfl
@[simp] theorem State.dataAhead_events (q : Byte) : (s.dataAhead q).events = s.events ++ [.dropFuture q] := rfl
@[simp] theorem State.dataAhead_lastNow (q : Byte) : (s.dataAhead q).lastNow = s.lastNow := rfl
@[simp] theorem State.dataAhead_freeCount (q : Byte) : (s.dataAhead q).freeCount = s.freeCount := rfl
@[simp] theorem State.dataAhead_inbox (q : Byte) : (s.dataAhead q).inbox = s.inbox := rfl

/-! ## tryDecode -/

@[simp] theorem State.tryDecode_fault : s.tryDecode.fault = s.fault := rfl
@[simp] theorem State.tryDecode_sendState : s.tryDecode.sendState = s.sendState := rfl
@[simp] theorem State.tryDecode_currentSendSeq : s.tryDecode.currentSendSeq = s.currentSendSeq := rfl
@[simp] theorem State.tryDecode_nextExpectedSeq : s.tryDecode.nextExpectedSeq = s.nextExpectedSeq := rfl
@[simp] theorem State.tryDecode_pendingFrame : s.tryDecode.pendingFrame = s.pendingFrame := rfl
@[simp] theorem State.tryDecode_pendingTimestamp : s.tryDecode.pendingTimestamp = s.pendingTimestamp := rfl
theorem State.tryDecode_rxbuf_eq_drop : s.tryDecode.rxbuf =
    s.rxbuf.drop (s.rxbuf.length - (scan s.cfg s.rxbuf).rest.length) := rfl
@[simp] theorem State.tryDecode_txq : s.tryDecode.txq = s.txq := rfl
@[simp] theorem State.tryDecode_cfg : s.tryDecode.cfg = s.cfg := rfl
@[simp] theorem State.tryDecode_degMax : s.tryDecode.degMax = s.degMax := rfl
@[simp] theorem State.tryDecode_result : s.tryDecode.result = scanResult (scan s.cfg s.rxbuf) := rfl
@[simp] theorem State.tryDecode_tx : s.tryDecode.tx = s.tx := rfl
@[simp] theorem State.tryDecode_deliveries : s.tryDecode.deliveries = s.deliveries := rfl
@[simp] theorem State.tryDecode_events : s.tryDecode.events = s.events ++ scanEvents (scan s.cfg s.rxbuf) := rfl
@[simp] theorem State.tryDecode_lastNow : s.tryDecode.lastNow = s.lastNow := rfl
@[simp] theorem State.tryDecode_freeCount : s.tryDecode.freeCount = s.freeCount := rfl
@[simp] theorem State.tryDecode_inbox : s.tryDecode.inbox = s.inbox := rfl

end Sys2Proof.Machine
end

