-- ==== Sys2Proof/Laws/Framer.lean ====
section
/-! SUPPORT. What the framer's functions do: the streaming machine over concatenated streams, and one
specification each for `hunt`, `collect` and `scan` in terms of it. -/

namespace Sys2Proof.Machine

/-! ## the streaming machine -/

theorem streamRun_cons (c : Cfg) (m : Stream) (b : Byte) (t : Bytes) :
    streamRun c m (b :: t) =
      ((streamRun c (streamByte c m b).1 t).1,
        (streamByte c m b).2.toList ++ (streamRun c (streamByte c m b).1 t).2) := rfl

theorem streamRun_append (c : Cfg) (m : Stream) (a b : Bytes) :
    streamRun c m (a ++ b) =
      ((streamRun c (streamRun c m a).1 b).1,
        (streamRun c m a).2 ++ (streamRun c (streamRun c m a).1 b).2) := by
  induction a generalizing m with
  | nil => simp [streamRun]
  | cons x a ih => simp [streamRun_cons, ih, List.append_assoc]

/-- The machine collects a stuffed body as the body. -/
theorem streamRun_stuff (c : Cfg) (acc body : Bytes) :
    streamRun c (.collect acc) (stuff c body) = (.collect (acc ++ body), []) := by
  induction body generalizing acc with
  | nil => simp [stuff, streamRun]
  | cons b t ih =>
    have hb : stuff c (b :: t) = stuffByte c b ++ stuff c t := by simp [stuff]
    have hone : streamRun c (.collect acc) (stuffByte c b) = (.collect (acc ++ [b]), []) := by
      unfold stuffByte
      split
      · simp [streamRun, streamByte]
      · rename_i h
        simp only [Cfg.isReserved, Bool.or_eq_true, beq_iff_eq, not_or] at h
        simp [streamRun, streamByte, h]
    rw [hb, streamRun_append, hone]
    simp [ih]

@[simp] theorem Stream.garbage_hunt (c : Cfg) (b : Byte) :
    Stream.garbage c .hunt b = if b = c.escape ∨ b = c.start then 0 else 1 := rfl
@[simp] theorem Stream.garbage_huntEsc (c : Cfg) (b : Byte) : Stream.garbage c .huntEsc b = 2 := rfl
@[simp] theorem Stream.garbage_collect (c : Cfg) (acc : Bytes) (b : Byte) : Stream.garbage c (.collect acc) b = 0 := rfl
@[simp] theorem Stream.garbage_collectEsc (c : Cfg) (acc : Bytes) (b : Byte) :
    Stream.garbage c (.collectEsc acc) b = 0 := rfl
@[simp] theorem Stream.resyncs_hunt (c : Cfg) (b : Byte) : Stream.resyncs c .hunt b = 0 := rfl
@[simp] theorem Stream.resyncs_huntEsc (c : Cfg) (b : Byte) : Stream.resyncs c .huntEsc b = 0 := rfl
@[simp] theorem Stream.resyncs_collect (c : Cfg) (acc : Bytes) (b : Byte) :
    Stream.resyncs c (.collect acc) b = if b ≠ c.escape ∧ b ≠ c.stop ∧ b = c.start then 1 else 0 := rfl
@[simp] theorem Stream.resyncs_collectEsc (c : Cfg) (acc : Bytes) (b : Byte) :
    Stream.resyncs c (.collectEsc acc) b = 0 := rfl

/-- How many bytes the machine discards as garbage over a stream (R123, R127). -/
def streamGarbage (c : Cfg) : Stream → Bytes → Nat
  | _, [] => 0
  | m, b :: t => m.garbage c b + streamGarbage c (streamByte c m b).1 t

theorem streamGarbage_append (c : Cfg) (m : Stream) (a b : Bytes) :
    streamGarbage c m (a ++ b) = streamGarbage c m a + streamGarbage c (streamRun c m a).1 b := by
  induction a generalizing m with
  | nil => simp [streamGarbage, streamRun]
  | cons x a ih => simp only [List.cons_append, streamGarbage, streamRun_cons, ih, Nat.add_assoc]

/-! ## hunt -/

theorem hunt_start {c : Cfg} (h : c.start ≠ c.escape) (t : Bytes) :
    hunt c (c.start :: t) = ⟨0, true, c.start :: t⟩ := by
  cases t <;> simp [hunt, h]

theorem hunt_escape (c : Cfg) (x : Byte) (t : Bytes) : hunt c (c.escape :: x :: t) = (hunt c t).skip 2 := by
  simp [hunt]

theorem hunt_other {c : Cfg} {b : Byte} (h1 : b ≠ c.escape) (h2 : b ≠ c.start) (t : Bytes) :
    hunt c (b :: t) = (hunt c t).skip 1 := by
  cases t <;> simp [hunt, h1, h2, Hunted.skip]

/-- Everything the hunt phase does (R123): it splits off garbage over which the machine stays in `HUNT`,
and stops at an unescaped `START`, at the end, or at a dangling `ESCAPE`. -/
theorem hunt_spec (c : Cfg) (buf : Bytes) :
    ∃ g, buf = g ++ (hunt c buf).rest ∧ (hunt c buf).garbage = g.length ∧
      streamRun c .hunt g = (.hunt, []) ∧ streamGarbage c .hunt g = g.length ∧
      ((hunt c buf).found = true → c.start ≠ c.escape ∧ ∃ t, (hunt c buf).rest = c.start :: t) ∧
      ((hunt c buf).found = false → (hunt c buf).rest = [] ∨ (hunt c buf).rest = [c.escape]) := by
  induction buf using hunt.induct (c := c) with
  | case1 => exact ⟨[], by simp [hunt, streamRun, streamGarbage]⟩
  | case2 => exact ⟨[], by simp [hunt, streamRun, streamGarbage]⟩
  | case3 h => exact ⟨[], by simp [hunt, streamRun, streamGarbage, h]⟩
  | case4 b h1 h2 => exact ⟨[b], by simp [hunt, streamRun, streamByte, streamGarbage, h1, h2]⟩
  | case5 x t ih =>
    obtain ⟨g, h1, h2, h3, h5, h4⟩ := ih
    refine ⟨c.escape :: x :: g, ?_⟩
    simp only [hunt, if_true, Hunted.skip, List.cons_append, ← h1, List.length_cons, h2, streamRun_cons,
      streamByte, h3, streamGarbage, h5]
    exact ⟨by trivial, by trivial, by trivial, by simp; omega, h4⟩
  | case6 x t h => exact ⟨[], by simp [hunt, streamRun, streamGarbage, h]⟩
  | case7 b x t h1 h2 ih =>
    obtain ⟨g, h3, h4, h5, h7, h6⟩ := ih
    refine ⟨b :: g, ?_⟩
    simp only [hunt, h1, h2, if_false, Hunted.skip, List.cons_append, ← h3, List.length_cons, h4,
      streamRun_cons, streamByte, h5, streamGarbage, h7]
    exact ⟨by trivial, by trivial, by trivial, by simp [h1, h2]; omega, h6⟩

/-! ## collect -/

theorem collect_escape (c : Cfg) (cur : Bytes) (x : Byte) (t acc : Bytes) :
    collect c cur (c.escape :: x :: t) acc = collect c cur t (acc ++ [x]) := by
  simp [collect]

theorem collect_stop {c : Cfg} (h : c.stop ≠ c.escape) (cur t acc : Bytes) :
    collect c cur (c.stop :: t) acc = ⟨0, some acc, t⟩ := by
  cases t <;> simp [collect, h]

theorem collect_start {c : Cfg} (h1 : c.start ≠ c.escape) (h2 : c.start ≠ c.stop) (cur t acc : Bytes) :
    collect c cur (c.start :: t) acc = (collect c (c.start :: t) t []).resynced := by
  cases t <;> simp [collect, h1, h2, Collected.resynced]

theorem collect_literal {c : Cfg} {b : Byte} (h : c.isReserved b = false) (cur t acc : Bytes) :
    collect c cur (b :: t) acc = collect c cur t (acc ++ [b]) := by
  simp only [Cfg.isReserved, Bool.or_eq_false_iff, beq_eq_false_iff_ne] at h
  cases t <;> simp [collect, h]

/-- No unescaped `START` and no unescaped `STOP`: a frame's bytes before its end is seen. -/
def openBody (c : Cfg) (l : Bytes) : Prop := c.start ∉ unescaped c l ∧ c.stop ∉ unescaped c l

/-- The machine's state is one of the two collecting states. -/
def Stream.collecting : Stream → Prop
  | .collect _ => True
  | .collectEsc _ => True
  | .hunt => False
  | .huntEsc => False

/-- Over an open body the machine keeps collecting and emits nothing. -/
theorem streamRun_openBody (c : Cfg) (acc l : Bytes) (h : openBody c l) :
    (streamRun c (.collect acc) l).1.collecting ∧ (streamRun c (.collect acc) l).2 = [] ∧
      streamGarbage c (.collect acc) l = 0 := by
  induction l using unescaped.induct (c := c) generalizing acc with
  | case1 => simp [streamRun, streamGarbage, Stream.collecting]
  | case2 => simp [streamRun, streamByte, streamGarbage, Stream.collecting]
  | case3 b hb =>
    simp only [openBody, unescaped, if_neg hb, List.mem_singleton] at h
    simp [streamRun, streamByte, streamGarbage, hb, Ne.symm h.1, Ne.symm h.2, Stream.collecting]
  | case4 x t ih =>
    have h' : openBody c t := by simpa [openBody, unescaped] using h
    simpa [streamRun_cons, streamByte, streamGarbage] using ih (acc ++ [x]) h'
  | case5 b x t hb ih =>
    simp only [openBody, unescaped, if_neg hb, List.mem_cons, not_or] at h
    simpa [streamRun_cons, streamByte, streamGarbage, hb, Ne.symm h.1.1, Ne.symm h.2.1]
      using ih (acc ++ [b]) ⟨h.1.2, h.2.2⟩

/-- The collect phase when it finds a frame (R124). -/
theorem collect_frame (c : Cfg) (cur l acc body : Bytes) (h : (collect c cur l acc).frame = some body) :
    ∃ pre, l = pre ++ (collect c cur l acc).rest ∧ streamRun c (.collect acc) pre = (.hunt, [body]) ∧
      streamGarbage c (.collect acc) pre = 0 := by
  induction cur, l, acc using collect.induct (c := c) with
  | case1 => simp [collect] at h
  | case2 => simp [collect] at h
  | case3 cur acc h1 =>
    simp only [collect, h1, if_false, if_true, Option.some.injEq] at h
    exact ⟨[c.stop], by simp [collect, h1, streamRun, streamByte, streamGarbage, h]⟩
  | case4 cur acc h1 h2 => simp [collect, h1, h2] at h
  | case5 cur b acc h1 h2 h3 => simp [collect, h1, h2, h3] at h
  | case6 cur x t acc ih =>
    simp only [collect, if_true] at h ⊢
    obtain ⟨pre, h1, h2, h3⟩ := ih h
    exact ⟨c.escape :: x :: pre, by simp [← h1], by simp [streamRun_cons, streamByte, h2],
      by simp [streamGarbage, streamByte, h3]⟩
  | case7 cur x t acc h1 =>
    simp only [collect, h1, if_false, if_true, Option.some.injEq] at h
    exact ⟨[c.stop], by simp [collect, h1, streamRun, streamByte, streamGarbage, h]⟩
  | case8 cur x t acc h1 h2 ih =>
    simp only [collect, h1, h2, if_false, if_true, Collected.resynced] at h ⊢
    obtain ⟨pre, h3, h4, h5⟩ := ih h
    exact ⟨c.start :: pre, by simp [← h3], by simp [streamRun_cons, streamByte, h1, h2, h4],
      by simp [streamGarbage, streamByte, h1, h2, h5]⟩
  | case9 cur b x t acc h1 h2 h3 ih =>
    simp only [collect, h1, h2, h3, if_false] at h ⊢
    obtain ⟨pre, h4, h5, h6⟩ := ih h
    exact ⟨b :: pre, by simp [← h4], by simp [streamRun_cons, streamByte, h1, h2, h3, h5],
      by simp [streamGarbage, streamByte, h1, h2, h3, h6]⟩

/-- The collect phase when it runs out of bytes (R124, R125): what is kept is the current `START` and an
open body. -/
theorem collect_none (c : Cfg) (cur l acc : Bytes) (h : (collect c cur l acc).frame = none) :
    ∃ l', openBody c l' ∧
      ((l' = l ∧ (collect c cur l acc).rest = cur ∧ (collect c cur l acc).resyncs = 0) ∨
        ((collect c cur l acc).rest = c.start :: l' ∧
          ∃ pre, l = pre ++ c.start :: l' ∧ streamRun c (.collect acc) (pre ++ [c.start]) = (.collect [], []) ∧
            streamGarbage c (.collect acc) (pre ++ [c.start]) = 0)) := by
  induction cur, l, acc using collect.induct (c := c) with
  | case1 cur acc => exact ⟨[], by simp [openBody, unescaped], .inl (by simp [collect])⟩
  | case2 cur acc => exact ⟨[c.escape], by simp [openBody, unescaped], .inl (by simp [collect])⟩
  | case3 cur acc h1 => simp [collect, h1] at h
  | case4 cur acc h1 h2 =>
    exact ⟨[], by simp [openBody, unescaped], .inr ⟨by simp [collect, h1, h2], [], by simp [streamRun, streamByte,
        streamGarbage, h1, h2]⟩⟩
  | case5 cur b acc h1 h2 h3 =>
    exact ⟨[b], by simp [openBody, unescaped, h1, Ne.symm h2, Ne.symm h3], .inl (by simp [collect, h1, h2, h3])⟩
  | case6 cur x t acc ih =>
    simp only [collect, if_true] at h ⊢
    obtain ⟨l', ho, h1 | ⟨h1, pre, h2, h3, h4⟩⟩ := ih h
    · exact ⟨c.escape :: x :: l', by simpa [openBody, unescaped] using ho, .inl ⟨by rw [h1.1], h1.2⟩⟩
    · exact ⟨l', ho, .inr ⟨h1, c.escape :: x :: pre, by simp [h2], by simp [streamRun_cons, streamByte, h3],
        by simpa [streamGarbage, streamByte] using h4⟩⟩
  | case7 cur x t acc h1 => simp [collect, h1] at h
  | case8 cur x t acc h1 h2 ih =>
    simp only [collect, h1, h2, if_false, if_true, Collected.resynced] at h ⊢
    obtain ⟨l', ho, h3 | ⟨h3, pre, h4, h5, h6⟩⟩ := ih h
    · exact ⟨l', ho, .inr ⟨by rw [h3.2.1, h3.1], [], by
        rw [h3.1]; simp [streamRun, streamByte, streamGarbage, h1, h2]⟩⟩
    · exact ⟨l', ho, .inr ⟨h3, c.start :: pre, by simp [h4], by simp [streamRun_cons, streamByte, h1, h2, h5],
        by simpa [streamGarbage, streamByte, h1, h2] using h6⟩⟩
  | case9 cur b x t acc h1 h2 h3 ih =>
    simp only [collect, h1, h2, h3, if_false] at h ⊢
    obtain ⟨l', ho, h4 | ⟨h4, pre, h5, h6, h7⟩⟩ := ih h
    · refine ⟨b :: l', ?_, .inl ⟨by rw [h4.1], h4.2⟩⟩
      rw [h4.1] at ho ⊢
      simp only [openBody, unescaped, if_neg h1, List.mem_cons, not_or]
      exact ⟨⟨Ne.symm h3, ho.1⟩, Ne.symm h2, ho.2⟩
    · exact ⟨l', ho, .inr ⟨h4, b :: pre, by simp [h5], by simp [streamRun_cons, streamByte, h1, h2, h3, h6],
        by simpa [streamGarbage, streamByte, h1, h2, h3] using h7⟩⟩

/-! ## scan -/

theorem streamByte_start_hunt {c : Cfg} (h : c.start ≠ c.escape) :
    streamByte c .hunt c.start = (.collect [], none) := by
  simp [streamByte, h]

/-- One call of TRY_DECODE that finds a frame: at least two bytes go, and the machine over the buffer emits
that frame and then what it emits over the rest. -/
theorem scan_frame (c : Cfg) (buf body : Bytes) (h : (scan c buf).frame = some body) :
    ∃ pre, buf = pre ++ (scan c buf).rest ∧ 2 ≤ pre.length ∧ streamRun c .hunt pre = (.hunt, [body]) ∧
      streamGarbage c .hunt pre = (scan c buf).garbage := by
  obtain ⟨g, hg, hlen, hs, hcount, hf, -⟩ := hunt_spec c buf
  unfold scan at *
  cases hfound : (hunt c buf).found with
  | false => simp [hfound] at h
  | true =>
    simp only [hfound, if_true] at h ⊢
    obtain ⟨hne, t, ht⟩ := hf hfound
    rw [ht, List.drop_one, List.tail_cons] at h ⊢
    obtain ⟨pre, h1, h2, h3⟩ := collect_frame c _ t [] body h
    have hpre : pre ≠ [] := by rintro rfl; simp [streamRun] at h2
    refine ⟨g ++ c.start :: pre, ?_, ?_, ?_, ?_⟩
    · conv_lhs => rw [hg, ht, h1]
      simp
    · have := List.length_pos_of_ne_nil hpre
      simp; omega
    · rw [streamRun_append, hs, streamRun_cons, streamByte_start_hunt hne]
      simp [h2]
    · rw [streamGarbage_append, hs, streamGarbage, streamByte_start_hunt hne, hcount, h3, hlen]
      simp [hne]

/-- One call of TRY_DECODE that answers `incomplete`: what is left is settled, it is the end of the buffer,
and the machine over it ends as over the whole buffer, emitting nothing. -/
theorem scan_none (c : Cfg) (buf : Bytes) (h : (scan c buf).frame = none) :
    settled c (scan c buf).rest ∧ (∃ pre, buf = pre ++ (scan c buf).rest) ∧
      streamRun c .hunt buf = streamRun c .hunt (scan c buf).rest ∧ (streamRun c .hunt buf).2 = [] ∧
      streamGarbage c .hunt buf = (scan c buf).garbage ∧ streamGarbage c .hunt (scan c buf).rest = 0 := by
  obtain ⟨g, hg, hlen, hs, hcount, hf, hn⟩ := hunt_spec c buf
  unfold scan at *
  cases hfound : (hunt c buf).found with
  | false =>
    simp only [hfound, Bool.false_eq_true, if_false] at h ⊢
    have hstream : streamRun c .hunt buf = streamRun c .hunt (hunt c buf).rest := by
      conv_lhs => rw [hg]
      rw [streamRun_append, hs]
      simp
    have hzero : streamGarbage c .hunt (hunt c buf).rest = 0 := by
      rcases hn hfound with h | h <;> simp [h, streamGarbage]
    refine ⟨?_, ⟨g, hg⟩, hstream, ?_, ?_, hzero⟩
    · rcases hn hfound with h | h
      · exact .inl h
      · exact .inr (.inl h)
    · rw [hstream]
      rcases hn hfound with h | h <;> simp [h, streamRun, streamByte]
    · conv_lhs => rw [hg]
      rw [streamGarbage_append, hs, hcount, hzero, hlen, Nat.add_zero]
  | true =>
    simp only [hfound, if_true] at h ⊢
    obtain ⟨hne, t, ht⟩ := hf hfound
    rw [ht, List.drop_one, List.tail_cons] at h ⊢
    have hbuf : streamRun c .hunt buf = streamRun c (.collect []) t := by
      conv_lhs => rw [hg, ht]
      rw [streamRun_append, hs, streamRun_cons, streamByte_start_hunt hne]
      simp
    have hbufg : streamGarbage c .hunt buf = (hunt c buf).garbage + streamGarbage c (.collect []) t := by
      conv_lhs => rw [hg, ht]
      rw [streamGarbage_append, hs, streamGarbage, streamByte_start_hunt hne, hcount, hlen]
      simp [hne]
    have hrestg : ∀ l, openBody c l → streamGarbage c .hunt (c.start :: l) = 0 := fun l ho => by
      rw [streamGarbage, streamByte_start_hunt hne, (streamRun_openBody c [] l ho).2.2]
      simp [hne]
    obtain ⟨l', ho, ⟨h1, h2, -⟩ | ⟨h1, pre, h2, h3, h4⟩⟩ := collect_none c _ t [] h
    · rw [h2]
      refine ⟨.inr (.inr ⟨rfl, ?_⟩), ⟨g, by rw [← ht]; exact hg⟩, ?_, ?_, ?_, ?_⟩
      · rw [List.tail_cons, ← h1]; exact ho
      · rw [hbuf, streamRun_cons, streamByte_start_hunt hne]; simp
      · rw [hbuf, ← h1]; exact (streamRun_openBody c [] l' ho).2.1
      · rw [hbufg, ← h1, (streamRun_openBody c [] l' ho).2.2, Nat.add_zero]
      · rw [← h1]; exact hrestg l' ho
    · have htt : streamRun c (.collect []) t = streamRun c (.collect []) l' := by
        conv_lhs => rw [h2, show pre ++ c.start :: l' = (pre ++ [c.start]) ++ l' by simp]
        rw [streamRun_append, h3]
        simp
      rw [h1]
      have htg : streamGarbage c (.collect []) t = 0 := by
        conv_lhs => rw [h2, show pre ++ c.start :: l' = (pre ++ [c.start]) ++ l' by simp]
        rw [streamGarbage_append, h3, h4, (streamRun_openBody c [] l' ho).2.2]
      refine ⟨.inr (.inr ⟨rfl, ho⟩), ⟨g ++ c.start :: pre, ?_⟩, ?_, ?_, ?_, hrestg l' ho⟩
      · conv_lhs => rw [hg, ht, h2]
        simp
      · rw [hbuf, htt, streamRun_cons, streamByte_start_hunt hne]; simp
      · rw [hbuf, htt]; exact (streamRun_openBody c [] l' ho).2.1
      · rw [hbufg, htg, Nat.add_zero]

/-- Collecting, the machine reports as `collect` counts. -/
theorem collect_reports (c : Cfg) (cur l acc : Bytes) (g r : Nat) :
    framesReported c (.collect acc) g r l =
      match (collect c cur l acc).frame with
      | some body =>
        let later := framesReported c .hunt 0 0 (collect c cur l acc).rest
        (⟨g, r + (collect c cur l acc).resyncs, body⟩ :: later.1, later.2)
      | none => ([], (g, r + (collect c cur l acc).resyncs)) := by
  induction cur, l, acc using collect.induct (c := c) generalizing r with
  | case1 => rfl
  | case2 => simp [collect, framesReported, streamByte]
  | case3 _ _ h => simp [collect, framesReported, streamByte, h]
  | case4 _ _ h1 h2 => simp [collect, framesReported, streamByte, h1, h2]
  | case5 _ _ b h1 h2 h3 => simp [collect, framesReported, streamByte, h1, h2, h3]
  | case6 _ _ x t ih => simp [collect, framesReported, streamByte, ← ih]
  | case7 _ _ x t h => simp [collect, framesReported, streamByte, h]
  | case8 _ _ x t h1 h2 ih =>
    rw [framesReported]
    simp [collect, streamByte, h1, h2, ih, Collected.resynced, Nat.add_right_comm, ← Nat.add_assoc]
  | case9 _ b _ x t h1 h2 h3 ih =>
    rw [framesReported]
    simp [collect, streamByte, h1, h2, h3, ih]

/-- Hunting, the machine reports as `hunt` counts. -/
theorem hunt_reports (c : Cfg) (buf : Bytes) (g r : Nat) :
    framesReported c .hunt g r buf =
      if (hunt c buf).found then
        framesReported c (.collect []) (g + (hunt c buf).garbage) r ((hunt c buf).rest.drop 1)
      else ([], (g + (hunt c buf).garbage, r)) := by
  induction buf using hunt.induct (c := c) generalizing g with
  | case1 => rfl
  | case2 => simp [hunt, framesReported, streamByte]
  | case3 h => simp [hunt, framesReported, streamByte, h]
  | case4 b h1 h2 => simp [hunt, framesReported, streamByte, h1, h2]
  | case5 x t ih => simp [hunt, framesReported, streamByte, ih, Hunted.skip, Nat.add_assoc, Nat.add_comm 2]
  | case6 x t h =>
    rw [framesReported]
    simp [hunt, streamByte, h]
  | case7 b x t h1 h2 ih =>
    rw [framesReported]
    simp [hunt, streamByte, h1, h2, ih, Hunted.skip, Nat.add_assoc, Nat.add_comm 1]

/-- One call of TRY_DECODE takes the first frame the machine reports, with its counts (R123, R124). -/
theorem scan_reports (c : Cfg) (buf : Bytes) :
    framesReported c .hunt 0 0 buf =
      match (scan c buf).frame with
      | some body =>
        let later := framesReported c .hunt 0 0 (scan c buf).rest
        (⟨(scan c buf).garbage, (scan c buf).resyncs, body⟩ :: later.1, later.2)
      | none => ([], ((scan c buf).garbage, (scan c buf).resyncs)) := by
  rw [hunt_reports, scan]
  cases (hunt c buf).found with
  | false => simp
  | true => simp only [if_true, collect_reports c (hunt c buf).rest, Nat.zero_add]

/-- The events of a call are those of its counts. -/
theorem scanEvents_eq (k : Scan) : scanEvents k = framingEvents k.garbage k.resyncs := rfl

/-- The frames reported are the frames emitted. -/
theorem framesReported_bodies (c : Cfg) (m : Stream) (g r : Nat) (buf : Bytes) :
    (framesReported c m g r buf).1.map Framed.body = (streamRun c m buf).2 := by
  induction buf generalizing m g r with
  | nil => rfl
  | cons b t ih =>
    rw [streamRun_cons, framesReported]
    rcases streamByte c m b with ⟨m', _ | body⟩ <;> simp [ih]

/-- What a call leaves is the end of the buffer. -/
theorem scan_rest_suffix (c : Cfg) (buf : Bytes) : ∃ pre, buf = pre ++ (scan c buf).rest := by
  cases h : (scan c buf).frame with
  | none => exact (scan_none c buf h).2.1
  | some body =>
    obtain ⟨pre, h1, -⟩ := scan_frame c buf body h
    exact ⟨pre, h1⟩

/-- TRY_DECODE leaves `rxbuf` as the function `scan` says. -/
@[simp] theorem State.tryDecode_rxbuf (s : State) : s.tryDecode.rxbuf = (scan s.cfg s.rxbuf).rest := by
  obtain ⟨pre, h⟩ := scan_rest_suffix s.cfg s.rxbuf
  have hlen : s.rxbuf.length - (scan s.cfg s.rxbuf).rest.length = pre.length := by
    have := congrArg List.length h
    rw [List.length_append] at this
    omega
  rw [State.tryDecode_rxbuf_eq_drop, hlen]
  have hdrop := congrArg (List.drop pre.length) h
  rwa [List.drop_left] at hdrop

/-- Everything TRY_DECODE writes (R120). -/
theorem State.tryDecode_eq (s : State) : s.tryDecode = { s with
    rxbuf := (scan s.cfg s.rxbuf).rest
    events := s.events ++ scanEvents (scan s.cfg s.rxbuf)
    result := scanResult (scan s.cfg s.rxbuf) } := by
  rw [← State.tryDecode_rxbuf]
  rfl

end Sys2Proof.Machine
end

