-- ==== Sys2Proof/Laws/Ops.lean ====
section
/-! SUPPORT. One lemma per shared operation of Machine/Ops.lean and Machine/Operands.lean that says
everything it can answer. -/

namespace Sys2Proof.Machine

/-! ## answer and operation -/

theorem answer_eq_next {x : Except Refusal State} {t : State} : answer x = .next t ↔ x = .ok t := by
  cases x <;> simp [answer]

theorem answer_eq_refused {x : Except Refusal State} {r : Refusal} : answer x = .refused r ↔ x = .error r := by
  cases x <;> simp [answer]

theorem answer_ne_fault {x : Except Refusal State} {e : Fault} : answer x ≠ .fault e := by
  cases x <;> simp [answer]

/-- Everything `operation` can answer with a next state. -/
theorem operation_eq_next {s t : State} {k : State → Except Refusal State} :
    operation s k = .next t ↔ s.fault = false ∧ k s.begin = .ok t := by
  cases h : s.fault <;> simp [operation, h, answer_eq_next]

/-- Everything `operation` can refuse. -/
theorem operation_eq_refused {s : State} {k : State → Except Refusal State} {r : Refusal} :
    operation s k = .refused r ↔
      (s.fault = true ∧ r = .faulted) ∨ (s.fault = false ∧ k s.begin = .error r) := by
  cases h : s.fault
  · simp [operation, h, answer_eq_refused]
  · simp [operation, h, eq_comm]

theorem operation_ne_fault {s : State} {k : State → Except Refusal State} {e : Fault} :
    operation s k ≠ .fault e := by
  cases h : s.fault <;> simp [operation, h, answer_ne_fault]

/-- An operation on an endpoint that is not faulted runs. -/
theorem operation_of_not_fault {s : State} (h : s.fault = false) (k : State → Except Refusal State) :
    operation s k = answer (k s.begin) := by
  simp [operation, h]

/-! ## capacities and the receive buffer -/

@[simp] theorem fits_none (n : Nat) : fits none n = true := rfl

@[simp] theorem fits_some (k n : Nat) : fits (some k) n = decide (n ≤ k) := rfl

theorem fits_zero (cap : Option Nat) : fits cap 0 = true := by cases cap <;> simp

theorem fits_mono {cap : Option Nat} {m n : Nat} (h : fits cap n = true) (hmn : m ≤ n) : fits cap m = true := by
  cases cap with
  | none => rfl
  | some k => simp at *; omega

theorem bufAppend_eq_ok {s t : State} {bytes : Bytes} :
    s.bufAppend bytes = .ok t ↔
      fits s.cfg.rxbufCap (s.rxbuf.length + bytes.length) = true ∧ t = { s with rxbuf := s.rxbuf ++ bytes } := by
  unfold State.bufAppend
  rw [List.length_append]
  split <;> rename_i h
  · simp only [Except.ok.injEq, h, true_and]
    exact eq_comm
  · simp [h]

theorem bufAppend_eq_error {s : State} {bytes : Bytes} {r : Refusal} :
    s.bufAppend bytes = .error r ↔
      fits s.cfg.rxbufCap (s.rxbuf.length + bytes.length) = false ∧ r = .rxbufOverflow := by
  unfold State.bufAppend
  rw [List.length_append]
  split <;> rename_i h
  · simp [h]
  · simp only [Except.error.injEq, Bool.not_eq_true] at h ⊢
    simp only [h, true_and]
    exact eq_comm

/-! ## time -/

theorem timeOperand_unbounded {c : Cfg} (h : c.timeW = none) (now : Nat) : timeOperand c now = now := by
  simp [timeOperand, h]

theorem timeOperand_width {c : Cfg} {w : Nat} (h : c.timeW = some w) (now : Nat) :
    timeOperand c now = now % 2 ^ w := by
  simp [timeOperand, h]

@[simp] theorem timeOperand_idem (c : Cfg) (now : Nat) : timeOperand c (timeOperand c now) = timeOperand c now := by
  unfold timeOperand
  split <;> simp

theorem elapsed_unbounded {c : Cfg} (h : c.timeW = none) (now ts : Nat) : elapsed c now ts = now - ts := by
  simp [elapsed, h]

theorem elapsed_width {c : Cfg} {w : Nat} (h : c.timeW = some w) (now ts : Nat) :
    (elapsed c now ts : Int) = ((now : Int) - ts) % 2 ^ w := by
  simp only [elapsed, h, BitVec.toNat_sub, BitVec.toNat_ofNat]
  have hts : ts % 2 ^ w < 2 ^ w := Nat.mod_lt _ (by positivity)
  rw [Int.natCast_mod, Int.natCast_add, Int.natCast_sub hts.le]
  push_cast
  apply Int.emod_emod_of_dvd _ (dvd_refl _) |>.symm.trans
  rw [Int.emod_emod_of_dvd _ (dvd_refl _)]
  have : ((2 : Int) ^ w - ts % 2 ^ w + now % 2 ^ w) = (now - ts) + 2 ^ w * (1 + ts / 2 ^ w - now / 2 ^ w) := by
    have h1 := Int.emod_add_mul_ediv (ts : Int) (2 ^ w)
    have h2 := Int.emod_add_mul_ediv (now : Int) (2 ^ w)
    linear_combination h2 - h1
  rw [this, Int.add_mul_emod_self_left]

theorem timeBackward_iff {c : Cfg} {now ts : Nat} : timeBackward c now ts = true ↔ c.timeW = none ∧ now < ts := by
  simp [timeBackward]

/-! ## sequence numbers -/

theorem nextSeq_toNat {c : Cfg} (h : 0 < c.seqMod ∧ c.seqMod ≤ 256) (q : Byte) :
    (nextSeq c q).toNat = (q.toNat + 1) % c.seqMod := by
  have := Nat.mod_lt (q.toNat + 1) h.1
  simp only [nextSeq, BitVec.toNat_ofNat]
  exact Nat.mod_eq_of_lt (by omega)

theorem seqDist_eq_emod {c : Cfg} {s e : Byte} (hs : s.toNat < c.seqMod) :
    (seqDist c s e : Int) = ((e.toNat : Int) - s.toNat) % c.seqMod := by
  unfold seqDist
  rw [Int.natCast_mod, Int.natCast_sub (by omega)]
  push_cast
  rw [show ((e.toNat : Int) + c.seqMod - s.toNat) = (e.toNat - s.toNat) + c.seqMod by ring,
    Int.add_emod_right]

end Sys2Proof.Machine
end

