-- ==== Sys2Proof/Laws/Arq.lean ====
section
/-! SUPPORT. What the ARQ Controller's operations and the decode loop can do: one inversion lemma each, and
the fields none of them writes. -/

namespace Sys2Proof.Machine

/-! ## ON_FRAME_RECEIVED -/

/-- Everything the acknowledgment arm can do (R145). -/
theorem ackArm_cases (s : State) (q : Byte) :
    (s.sendState = .awaitingAck ∧ q = s.currentSendSeq ∧
      s.ackArm q = { s with
        sendState := .idle
        currentSendSeq := nextSeq s.cfg s.currentSendSeq
        pendingFrame := Config.freeFrame s.freeCount
        pendingTimestamp := timeOperand s.cfg (Config.freeTime s.freeCount)
        freeCount := s.freeCount + 1
        events := s.events ++ [.ackAccept q] }) ∨
    (¬(s.sendState = .awaitingAck ∧ q = s.currentSendSeq) ∧ s.ackArm q = s.event (.ackIgnored q)) := by
  unfold State.ackArm
  split <;> rename_i h
  · exact .inl ⟨h.1, h.2, rfl⟩
  · exact .inr ⟨h, rfl⟩

/-- Everything ON_FRAME_RECEIVED can do: a drop with one event, or one of the four arms (R143, R144). -/
theorem onFrameReceived_cases (s : State) (raw : Bytes) :
    (∃ e ∈ [Event.dropChecksum, .dropShort, .dropReserved], s.onFrameReceived raw = s.event e) ∨
    (bodyFlag raw = 1 ∧ s.onFrameReceived raw = s.ackArm (bodySeq raw)) ∨
    (bodyFlag raw = 0 ∧ (bodySeq raw).toNat < s.cfg.seqMod ∧ bodySeq raw = s.nextExpectedSeq ∧
      s.onFrameReceived raw = s.dataInOrder (bodySeq raw) (bodyPayload s.cfg raw)) ∨
    (bodyFlag raw = 0 ∧ s.onFrameReceived raw = s.dataDuplicate (bodySeq raw)) ∨
    (bodyFlag raw = 0 ∧ s.onFrameReceived raw = s.dataAhead (bodySeq raw)) := by
  unfold State.onFrameReceived State.dispatchFrame State.dataArm
  split
  · exact .inl ⟨_, by simp, rfl⟩
  split
  · exact .inl ⟨_, by simp, rfl⟩
  split
  · exact .inr (.inl ⟨‹_›, rfl⟩)
  split
  · rename_i h
    split
    · exact .inr (.inr (.inl ⟨h.1, h.2, ‹_›, rfl⟩))
    split
    · exact .inr (.inr (.inr (.inl ⟨h.1, rfl⟩)))
    · exact .inr (.inr (.inr (.inr ⟨h.1, rfl⟩)))
  · exact .inl ⟨_, by simp, rfl⟩

/-- The fields ON_FRAME_RECEIVED never writes, as one equation. -/
theorem onFrameReceived_frame (s : State) (raw : Bytes) :
    s.onFrameReceived raw = { s with
      sendState := (s.onFrameReceived raw).sendState
      currentSendSeq := (s.onFrameReceived raw).currentSendSeq
      nextExpectedSeq := (s.onFrameReceived raw).nextExpectedSeq
      pendingFrame := (s.onFrameReceived raw).pendingFrame
      pendingTimestamp := (s.onFrameReceived raw).pendingTimestamp
      tx := (s.onFrameReceived raw).tx
      deliveries := (s.onFrameReceived raw).deliveries
      events := (s.onFrameReceived raw).events
      freeCount := (s.onFrameReceived raw).freeCount } := by
  rcases onFrameReceived_cases s raw with ⟨e, -, h⟩ | ⟨-, h⟩ | ⟨-, -, -, h⟩ | ⟨-, h⟩ | ⟨-, h⟩
  · rw [h]; rfl
  · rcases ackArm_cases s (bodySeq raw) with ⟨-, -, h'⟩ | ⟨-, h'⟩
    · rw [h, h']
    · rw [h, h']; rfl
  · rw [h]; rfl
  · rw [h]; rfl
  · rw [h]; rfl

section
variable (s : State) (raw : Bytes)

@[simp] theorem onFrameReceived_fault : (s.onFrameReceived raw).fault = s.fault := by
  rw [onFrameReceived_frame]
@[simp] theorem onFrameReceived_rxbuf : (s.onFrameReceived raw).rxbuf = s.rxbuf := by
  rw [onFrameReceived_frame]
@[simp] theorem onFrameReceived_txq : (s.onFrameReceived raw).txq = s.txq := by
  rw [onFrameReceived_frame]
@[simp] theorem onFrameReceived_cfg : (s.onFrameReceived raw).cfg = s.cfg := by
  rw [onFrameReceived_frame]
@[simp] theorem onFrameReceived_degMax : (s.onFrameReceived raw).degMax = s.degMax := by
  rw [onFrameReceived_frame]
@[simp] theorem onFrameReceived_result : (s.onFrameReceived raw).result = s.result := by
  rw [onFrameReceived_frame]
@[simp] theorem onFrameReceived_lastNow : (s.onFrameReceived raw).lastNow = s.lastNow := by
  rw [onFrameReceived_frame]
@[simp] theorem onFrameReceived_inbox : (s.onFrameReceived raw).inbox = s.inbox := by
  rw [onFrameReceived_frame]

end

/-- ON_FRAME_RECEIVED neither reads nor writes the buffer, the result and the events before it: whatever
they are, it does the same and appends the same events, none of them the framer's. -/
theorem onFrameReceived_adds (s : State) (raw : Bytes) :
    ∃ added, (∀ e ∈ added, e.framing = false) ∧ ∀ (buffer : Bytes) (result : Result) (events : List Event),
      ({ s with rxbuf := buffer, result := result, events := events } : State).onFrameReceived raw =
        { s.onFrameReceived raw with rxbuf := buffer, result := result, events := events ++ added } := by
  by_cases h1 : (!verify s.cfg raw) = true
  · exact ⟨[.dropChecksum], by simp [Event.framing], fun _ _ _ => by simp only [State.onFrameReceived, if_pos h1]; rfl⟩
  by_cases h2 : raw.length < 2 + s.cfg.checksumBytes
  · exact ⟨[.dropShort], by simp [Event.framing], fun _ _ _ => by
      simp only [State.onFrameReceived, if_neg h1, if_pos h2]; rfl⟩
  by_cases h3 : bodyFlag raw = 1
  · by_cases h4 : s.sendState = .awaitingAck ∧ bodySeq raw = s.currentSendSeq
    · exact ⟨[.ackAccept (bodySeq raw)], by simp [Event.framing], fun _ _ _ => by
        simp only [State.onFrameReceived, State.dispatchFrame, State.ackArm, if_neg h1, if_neg h2, if_pos h3, if_pos h4]
        rfl⟩
    · exact ⟨[.ackIgnored (bodySeq raw)], by simp [Event.framing], fun _ _ _ => by
        simp only [State.onFrameReceived, State.dispatchFrame, State.ackArm, if_neg h1, if_neg h2, if_pos h3, if_neg h4]
        rfl⟩
  by_cases h4 : bodyFlag raw = 0 ∧ (bodySeq raw).toNat < s.cfg.seqMod
  · by_cases h5 : bodySeq raw = s.nextExpectedSeq
    · exact ⟨[.deliver (bodySeq raw), .txAck (bodySeq raw)], by simp [Event.framing], fun _ _ events => by
        simp only [State.onFrameReceived, State.dispatchFrame, State.dataArm, if_neg h1, if_neg h2, if_neg h3,
            if_pos h4,
          if_pos h5]
        rw [List.append_cons events]
        rfl⟩
    by_cases h6 : earlier s.cfg (bodySeq raw) s.nextExpectedSeq = true
    · exact ⟨[.dupData (bodySeq raw), .txAck (bodySeq raw)], by simp [Event.framing], fun _ _ events => by
        simp only [State.onFrameReceived, State.dispatchFrame, State.dataArm, if_neg h1, if_neg h2, if_neg h3,
            if_pos h4,
          if_neg h5, if_pos h6]
        rw [List.append_cons events]
        rfl⟩
    · exact ⟨[.dropFuture (bodySeq raw)], by simp [Event.framing], fun _ _ _ => by
        simp only [State.onFrameReceived, State.dispatchFrame, State.dataArm, if_neg h1, if_neg h2, if_neg h3,
            if_pos h4,
          if_neg h5, if_neg h6]
        rfl⟩
  · exact ⟨[.dropReserved], by simp [Event.framing], fun _ _ _ => by
      simp only [State.onFrameReceived, State.dispatchFrame, if_neg h1, if_neg h2, if_neg h3, if_neg h4]
      rfl⟩

/-- A body of at least `2 + W` bytes that verifies is dispatched on its fields (R143, R144). -/
theorem onFrameReceived_body {s : State} {flag seq : Byte} {payload checksum : Bytes}
    (hk : checksum.length = s.cfg.checksumBytes) (hv : verify s.cfg (flag :: seq :: (payload ++ checksum)) = true) :
    s.onFrameReceived (flag :: seq :: (payload ++ checksum)) = s.dispatchFrame flag seq payload := by
  have hlen : ¬(flag :: seq :: (payload ++ checksum)).length < 2 + s.cfg.checksumBytes := by simp; omega
  have hp : bodyPayload s.cfg (flag :: seq :: (payload ++ checksum)) = payload := by
    have e : (flag :: seq :: (payload ++ checksum)).length - s.cfg.checksumBytes = payload.length + 1 + 1 := by
      simp; omega
    rw [bodyPayload, e, List.take_succ_cons, List.take_succ_cons]
    simp
  simp only [State.onFrameReceived, hv, hlen, hp, Bool.not_true, Bool.false_eq_true, if_false]
  rfl

/-! ## ON_TICK -/

theorem onTick_idle {s : State} (h : s.sendState = .idle) (now : Nat) : s.onTick now = .ok s := by
  unfold State.onTick
  split
  · rfl
  · simp_all

theorem onTick_awaiting {s : State} (h : s.sendState = .awaitingAck) (now : Nat) :
    s.onTick now =
      if timeBackward s.cfg now s.pendingTimestamp then .error .timeBackward
      else if s.cfg.timeout < elapsed s.cfg now s.pendingTimestamp then
        .ok { s with
          tx := s.tx ++ s.pendingFrame
          events := s.events ++ [.txRetx s.currentSendSeq]
          pendingTimestamp := timeOperand s.cfg now }
      else .ok s := by
  unfold State.onTick
  split
  · simp_all
  · rfl

/-- Everything ON_TICK can answer (R151). -/
theorem onTick_eq_ok {s t : State} {now : Nat} :
    s.onTick now = .ok t ↔
      (s.sendState = .idle ∧ t = s) ∨
      (s.sendState = .awaitingAck ∧ timeBackward s.cfg now s.pendingTimestamp = false ∧
        ((elapsed s.cfg now s.pendingTimestamp ≤ s.cfg.timeout ∧ t = s) ∨
          (s.cfg.timeout < elapsed s.cfg now s.pendingTimestamp ∧
            t = { s with
              tx := s.tx ++ s.pendingFrame
              events := s.events ++ [.txRetx s.currentSendSeq]
              pendingTimestamp := timeOperand s.cfg now }))) := by
  cases hs : s.sendState with
  | idle =>
    rw [onTick_idle hs]
    simp only [Except.ok.injEq, true_and, reduceCtorEq, false_and, or_false]
    exact eq_comm
  | awaitingAck =>
    rw [← hs, onTick_awaiting hs, hs]
    split
    · simp_all
    split
    · rename_i h1 h2
      simp only [Except.ok.injEq, h1, h2, not_le.2 h2, reduceCtorEq, false_and, false_or, true_and]
      exact eq_comm
    · rename_i h1 h2
      simp only [Except.ok.injEq, h1, h2, not_lt.1 h2, reduceCtorEq, false_and, false_or, true_and, or_false]
      exact eq_comm

/-- ON_TICK refuses only a backward step of unbounded time while a frame is pending. -/
theorem onTick_eq_error {s : State} {now : Nat} {r : Refusal} :
    s.onTick now = .error r ↔
      s.sendState = .awaitingAck ∧ timeBackward s.cfg now s.pendingTimestamp = true ∧ r = .timeBackward := by
  cases hs : s.sendState with
  | idle => simp [onTick_idle hs]
  | awaitingAck =>
    rw [onTick_awaiting hs]
    split
    · rename_i h; simp [h, eq_comm]
    · rename_i h; split <;> simp [h]

/-! ## SUBMIT -/

theorem submit_idle {s : State} (h : s.sendState = .idle) (payload : Bytes) (now : Nat) :
    s.submit payload now = { s with
      tx := s.tx ++ dataFrame s.cfg s.currentSendSeq payload
      events := s.events ++ [.txData s.currentSendSeq]
      pendingFrame := dataFrame s.cfg s.currentSendSeq payload
      pendingTimestamp := timeOperand s.cfg now
      sendState := .awaitingAck
      result := .sent } := by
  unfold State.submit
  rw [h]
  rfl

theorem submit_awaiting {s : State} (h : s.sendState = .awaitingAck) (payload : Bytes) (now : Nat) :
    s.submit payload now = s.returns .busy := by
  unfold State.submit
  rw [h]

/-- SUBMIT completes unless the sender is Idle and the payload too long (R141). -/
theorem submitChecked_eq_ok {s t : State} {payload : Bytes} {now : Nat} :
    s.submitChecked payload now = .ok t ↔
      (s.sendState = .idle → fits s.cfg.maxPayload payload.length = true) ∧ t = s.submit payload now := by
  unfold State.submitChecked
  split
  · rename_i h
    simp [h.1, h.2]
  · rename_i h
    rw [not_and, Bool.not_eq_false] at h
    simp only [Except.ok.injEq, eq_comm (a := t)]
    exact ⟨fun e => ⟨h, e⟩, fun e => e.2⟩

/-! ## the decode loop and CYCLE -/

/-- What TRY_DECODE and ON_FRAME_RECEIVED keep, phase 3 keeps. -/
theorem decodeLoop_keeps {P : State → Prop} (hscan : ∀ s, P s → P s.tryDecode)
    (hframe : ∀ s raw, P s → P (s.onFrameReceived raw)) (fuel : Nat) (s : State) (h : P s) :
    P (decodeLoop fuel s) := by
  induction fuel generalizing s with
  | zero => exact h
  | succ n ih =>
    rw [decodeLoop]
    split
    · exact hscan s h
    · exact ih _ (hframe _ _ (hscan s h))

/-- Phase 4 does nothing, or submits the head of the queue (R176). -/
theorem phase4_cases (s : State) (now : Nat) :
    (∃ p q, s.txq = p :: q ∧ s.sendState = .idle ∧ s.phase4 now = s.qPop.submit p now) ∨
    ((s.txq = [] ∨ s.sendState = .awaitingAck) ∧ s.phase4 now = s) := by
  unfold State.phase4
  cases hq : s.txq with
  | nil => exact .inr ⟨.inl rfl, rfl⟩
  | cons p q =>
    cases hs : s.sendState with
    | idle => exact .inl ⟨p, q, rfl, rfl, rfl⟩
    | awaitingAck => exact .inr ⟨.inr rfl, rfl⟩

/-- Everything CYCLE can answer: the four phases in order (R172). -/
theorem cycle_eq_ok {s t : State} {now : Nat} {rx : Bytes} :
    s.cycle now rx = .ok t ↔
      timeBackward s.cfg now s.lastNow = false ∧ ∃ ticked filled,
        s.onTick now = .ok ticked ∧ ticked.bufAppend rx = .ok filled ∧
        t = { filled.phase3.phase4 now with lastNow := timeOperand s.cfg now, result := .outputs } := by
  unfold State.cycle
  cases timeBackward s.cfg now s.lastNow with
  | true => simp
  | false =>
    cases hk : s.onTick now with
    | error r => simp
    | ok ticked =>
      simp only [Bool.false_eq_true, if_false, Except.ok.injEq, true_and]
      cases hf : ticked.bufAppend rx with
      | error r =>
        simp only [reduceCtorEq, false_iff]
        rintro ⟨a, b, rfl, hb, -⟩
        rw [hf] at hb
        cases hb
      | ok filled =>
        simp only [Except.ok.injEq]
        constructor
        · rintro rfl
          exact ⟨ticked, filled, rfl, hf, rfl⟩
        · rintro ⟨a, b, rfl, hb, rfl⟩
          rw [hf] at hb
          cases hb
          rfl

/-- CYCLE refuses a backward step of unbounded time, or an overflow of `rxbuf`. -/
theorem cycle_eq_error {s : State} {now : Nat} {rx : Bytes} {r : Refusal} :
    s.cycle now rx = .error r ↔
      (timeBackward s.cfg now s.lastNow = true ∧ r = .timeBackward) ∨
      (timeBackward s.cfg now s.lastNow = false ∧
        (s.onTick now = .error r ∨ ∃ ticked, s.onTick now = .ok ticked ∧ ticked.bufAppend rx = .error r)) := by
  unfold State.cycle
  cases timeBackward s.cfg now s.lastNow with
  | true => simp [eq_comm]
  | false =>
    cases hk : s.onTick now with
    | error r' => simp
    | ok ticked => cases hf : ticked.bufAppend rx <;> simp [hf]

end Sys2Proof.Machine
end

