-- ==== Sys2Proof/Laws/Gf2.lean ====
section
/-! SUPPORT. The polynomials of Safety.lean: the coefficients of `natPoly` and `bytesPoly`, and how XOR,
shifts and long division act on them. -/

namespace Sys2Proof.Machine

open Polynomial

/-! ## natPoly -/

theorem natPoly_coeff (n i : Nat) : (natPoly n).coeff i = if n.testBit i then 1 else 0 := by
  unfold natPoly
  rw [finsetSum_coeff]
  have hterm : ∀ j, (if n.testBit j then (X : (ZMod 2)[X]) ^ j else 0).coeff i
      = if j = i then (if n.testBit i then 1 else 0) else 0 := by
    intro j
    by_cases hj : j = i
    · subst hj; split <;> simp
    · rw [if_neg hj]
      split
      · rw [coeff_X_pow, if_neg (Ne.symm hj)]
      · simp
  simp only [hterm, Finset.sum_ite_eq', Finset.mem_range]
  split
  · rfl
  · rename_i h
    have : n.testBit i = false := by
      apply Nat.testBit_lt_two_pow
      exact Nat.lt_of_lt_of_le Nat.lt_log2_self (Nat.pow_le_pow_right (by omega) (by omega))
    simp [this]

theorem natPoly_injective : Function.Injective natPoly := by
  intro a b h
  apply Nat.eq_of_testBit_eq
  intro i
  have := congrArg (fun p => p.coeff i) h
  simp only [natPoly_coeff] at this
  revert this
  cases a.testBit i <;> cases b.testBit i <;> simp

@[simp] theorem natPoly_zero : natPoly 0 = 0 := by
  ext i; simp [natPoly_coeff]

theorem natPoly_xor (a b : Nat) : natPoly (a ^^^ b) = natPoly a + natPoly b := by
  ext i
  rw [coeff_add, natPoly_coeff, natPoly_coeff, natPoly_coeff, Nat.testBit_xor]
  cases a.testBit i <;> cases b.testBit i <;> simp
  decide

theorem natPoly_shiftLeft (a k : Nat) : natPoly (a <<< k) = natPoly a * X ^ k := by
  ext i
  rw [coeff_mul_X_pow', natPoly_coeff, natPoly_coeff, Nat.testBit_shiftLeft]
  by_cases h : k ≤ i <;> simp [h]

theorem natPoly_two_pow (k : Nat) : natPoly (2 ^ k) = X ^ k := by
  ext i
  rw [natPoly_coeff, coeff_X_pow, Nat.testBit_two_pow]
  by_cases h : k = i <;> simp [h, eq_comm]

theorem natPoly_eq_zero {n : Nat} : natPoly n = 0 ↔ n = 0 :=
  ⟨fun h => natPoly_injective (by simpa using h), fun h => by simp [h]⟩

theorem natPoly_degree_lt {n k : Nat} : (natPoly n).degree < k ↔ n < 2 ^ k := by
  rw [degree_lt_iff_coeff_zero]
  constructor
  · intro h
    apply Nat.lt_pow_two_of_testBit
    intro i hi
    have := h i hi
    rw [natPoly_coeff] at this
    revert this
    cases n.testBit i <;> simp
  · intro h m hm
    rw [natPoly_coeff, Nat.testBit_lt_two_pow (Nat.lt_of_lt_of_le h (Nat.pow_le_pow_right (by omega) hm))]
    simp

theorem natPoly_natDegree {n : Nat} (h : n ≠ 0) : (natPoly n).degree = n.log2 := by
  apply le_antisymm
  · rw [degree_le_iff_coeff_zero]
    intro m hm
    have hm' : n.log2 + 1 ≤ m := by exact_mod_cast hm
    rw [natPoly_coeff, Nat.testBit_lt_two_pow
      (Nat.lt_of_lt_of_le Nat.lt_log2_self (Nat.pow_le_pow_right (by omega) hm'))]
    simp
  · by_contra hlt
    have := natPoly_degree_lt.1 (not_le.1 hlt)
    exact absurd (Nat.log2_self_le h) (by omega)

/-- A sum of two numbers with no common bit position: the high part shifted clear of the low part. -/
theorem natPoly_shiftLeft_add {a b k : Nat} (h : b < 2 ^ k) :
    natPoly (a <<< k + b) = natPoly a * X ^ k + natPoly b := by
  rw [Nat.shiftLeft_add_eq_or_of_lt h, ← natPoly_shiftLeft, ← natPoly_xor]
  congr 1
  apply Nat.eq_of_testBit_eq
  intro i
  simp only [Nat.testBit_or, Nat.testBit_xor, Nat.testBit_shiftLeft]
  by_cases hi : k ≤ i
  · simp [Nat.testBit_lt_two_pow (Nat.lt_of_lt_of_le h (Nat.pow_le_pow_right (by omega) hi))]
  · simp [hi]

/-! ## beNat and bytesPoly -/

@[simp] theorem beNat_nil : beNat [] = 0 := rfl

theorem foldl_beNat (bs : Bytes) (m : Nat) :
    bs.foldl (fun m b => m * 256 + b.toNat) m = m * 256 ^ bs.length + beNat bs := by
  induction bs generalizing m with
  | nil => simp [beNat]
  | cons b t ih =>
    simp only [beNat, List.foldl_cons, List.length_cons] at *
    rw [ih, ih (0 * 256 + b.toNat)]
    ring

theorem beNat_append (a b : Bytes) : beNat (a ++ b) = beNat a * 256 ^ b.length + beNat b := by
  rw [beNat, List.foldl_append, foldl_beNat]; rfl

theorem beNat_cons (b : Byte) (t : Bytes) : beNat (b :: t) = b.toNat * 256 ^ t.length + beNat t := by
  rw [show b :: t = [b] ++ t from rfl, beNat_append]; simp [beNat]

theorem beNat_lt (bs : Bytes) : beNat bs < 256 ^ bs.length := by
  induction bs with
  | nil => simp
  | cons b t ih =>
    rw [beNat_cons, List.length_cons, pow_succ]
    have := b.isLt
    nlinarith [Nat.pos_of_ne_zero (pow_ne_zero t.length (by norm_num : (256 : Nat) ≠ 0))]

theorem natPoly_beNat_append (a b : Bytes) :
    natPoly (beNat (a ++ b)) = natPoly (beNat a) * X ^ (8 * b.length) + natPoly (beNat b) := by
  have h := beNat_lt b
  have hp : (256 : Nat) ^ b.length = 2 ^ (8 * b.length) := by rw [pow_mul]; norm_num
  rw [beNat_append, hp, ← Nat.shiftLeft_eq, natPoly_shiftLeft_add (hp ▸ h)]

theorem natPoly_byte (b : Byte) :
    natPoly b.toNat = ∑ i ∈ Finset.range 8, if b.getLsbD i then X ^ i else 0 := by
  ext j
  rw [natPoly_coeff, finsetSum_coeff]
  have hterm : ∀ i, (if b.getLsbD i then (X : (ZMod 2)[X]) ^ i else 0).coeff j
      = if i = j then (if b.getLsbD j then 1 else 0) else 0 := by
    intro i
    by_cases hj : i = j
    · subst hj; split <;> simp
    · rw [if_neg hj]
      split
      · rw [coeff_X_pow, if_neg (Ne.symm hj)]
      · simp
  simp only [hterm, Finset.sum_ite_eq', Finset.mem_range, BitVec.testBit_toNat]
  by_cases hj : j < 8
  · simp [hj]
  · simp [hj, BitVec.getLsbD_of_ge b j (by omega)]

/-- The integer view and the polynomial view of a byte sequence agree (R9, R102). -/
theorem bytesPoly_eq (s : Bytes) : bytesPoly s = natPoly (beNat s) := by
  induction s with
  | nil => simp [bytesPoly]
  | cons b t ih =>
    rw [show b :: t = [b] ++ t from rfl, natPoly_beNat_append, ← ih]
    have hb : beNat [b] = b.toNat := by simp [beNat]
    rw [hb, natPoly_byte, Finset.sum_mul]
    unfold bytesPoly
    rw [List.length_append, List.length_singleton, add_comm 1, Finset.sum_range_succ', add_comm]
    refine congrArg₂ (· + ·) (Finset.sum_congr rfl fun i _ => ?_)
      (Finset.sum_congr rfl fun k _ => Finset.sum_congr rfl fun i _ => ?_)
    · rw [List.singleton_append, List.getD_cons_zero, ite_mul, zero_mul, ← pow_add,
        show i + 8 * t.length = 8 * (t.length + 1 - 1 - 0) + i by omega]
    · rw [List.singleton_append, List.getD_cons_succ,
        show t.length - 1 - k = t.length + 1 - 1 - (k + 1) by omega]

/-! ## long division -/

/-- Long division keeps the residue modulo `G`. -/
theorem natPoly_longDivide_mod (g n m d : Nat) :
    natPoly (longDivide g d n m) % natPoly g = natPoly m % natPoly g := by
  induction n generalizing m with
  | zero => rfl
  | succ n ih =>
    rw [longDivide, ih]
    split
    · rw [natPoly_xor, natPoly_shiftLeft, add_mod,
        (EuclideanDomain.mod_eq_zero).2 (Dvd.intro (X ^ n) rfl), add_zero]
    · rfl

/-- Long division by a generator whose highest bit is `d` leaves fewer than `d + 1` bits. -/
theorem longDivide_lt {g d : Nat} (hg : g < 2 ^ (d + 1)) (hd : g.testBit d = true) (n m : Nat)
    (hm : m < 2 ^ (n + d)) : longDivide g d n m < 2 ^ d := by
  induction n generalizing m with
  | zero => simpa [longDivide] using hm
  | succ n ih =>
    rw [longDivide]
    apply ih
    apply Nat.lt_pow_two_of_testBit
    intro i hi
    have hmi : i ≠ n + d → m.testBit i = false := fun hne =>
      Nat.testBit_lt_two_pow (Nat.lt_of_lt_of_le hm (Nat.pow_le_pow_right (by omega) (by omega)))
    by_cases heq : i = n + d
    · subst heq
      split
      · rename_i hb
        simp [Nat.testBit_xor, Nat.testBit_shiftLeft, hb, hd]
      · rename_i hb
        simpa using hb
    · split
      · rw [Nat.testBit_xor, hmi heq, Nat.testBit_shiftLeft,
          Nat.testBit_lt_two_pow (Nat.lt_of_lt_of_le hg (Nat.pow_le_pow_right (by omega) (by omega)))]
        simp
      · exact hmi heq

end Sys2Proof.Machine
end

