-- ==== Sys2Proof/Laws/Codec.lean ====
section
/-! SUPPORT. What the codec's functions compute, in the terms of Safety.lean: one specification per
function. -/

namespace Sys2Proof.Machine

open Polynomial

/-! ## deg -/

theorem deg_eq_log2 {g : Nat} (h : g ≠ 0) : deg g = (Nat.log2 g : Int) := by simp [deg, h]

theorem one_le_deg_iff {g : Nat} : 1 ≤ deg g ↔ 2 ≤ g := by
  by_cases h : g = 0
  · simp [deg, h]
  · rw [deg_eq_log2 h, show (1 : Int) = ((1 : Nat) : Int) from rfl, Int.ofNat_le, Nat.le_log2 h]

theorem deg_bounds {g : Nat} (h : 1 ≤ deg g) : 2 ^ (deg g).toNat ≤ g ∧ g < 2 ^ ((deg g).toNat + 1) := by
  have hg : g ≠ 0 := by rintro rfl; simp [deg] at h
  rw [deg_eq_log2 hg, Int.toNat_natCast]
  exact ⟨Nat.log2_self_le hg, Nat.lt_log2_self⟩

theorem testBit_deg {g : Nat} (h : 1 ≤ deg g) : g.testBit (deg g).toNat = true := by
  obtain ⟨h1, h2⟩ := deg_bounds h
  by_contra hb
  have hlt : g < 2 ^ (deg g).toNat := by
    apply Nat.lt_pow_two_of_testBit
    intro i hi
    rcases hi.lt_or_eq with hi | rfl
    · exact Nat.testBit_lt_two_pow (Nat.lt_of_lt_of_le h2 (Nat.pow_le_pow_right (by omega) hi))
    · simpa using hb
  omega

theorem natPoly_degree_deg {g : Nat} (h : 1 ≤ deg g) : (natPoly g).degree = (deg g).toNat := by
  have hg : g ≠ 0 := by rintro rfl; simp [deg] at h
  rw [natPoly_natDegree hg, deg_eq_log2 hg, Int.toNat_natCast]

/-! ## PARITY -/

theorem foldl_xor_eq {α : Type} (f : α → Bool) (l : List α) (p : Bool) :
    l.foldl (fun p i => p ^^ f i) p = (p ^^ decide (l.countP f % 2 = 1)) := by
  induction l generalizing p with
  | nil => simp
  | cons a l ih =>
    rw [List.foldl_cons, ih, List.countP_cons]
    have := Nat.mod_two_eq_zero_or_one (l.countP f)
    rcases this with h | h <;> cases f a <;> cases p <;> simp [h, Nat.add_mod]

theorem onesCount_append (a b : Bytes) : onesCount (a ++ b) = onesCount a + onesCount b := by
  simp [onesCount]

/-- PARITY is the number of 1 bits modulo 2. -/
theorem parity_eq (bs : Bytes) : parity bs = decide (onesCount bs % 2 = 1) := by
  have hgen : ∀ p, bs.foldl (fun p b => (List.range 8).foldl (fun p i => p ^^ b.getLsbD i) p) p
      = (p ^^ decide (onesCount bs % 2 = 1)) := by
    induction bs with
    | nil => simp [onesCount]
    | cons b t ih =>
      intro p
      rw [List.foldl_cons, foldl_xor_eq (fun i => b.getLsbD i), ih,
        show b :: t = [b] ++ t from rfl, onesCount_append, Nat.add_mod, Bool.xor_assoc]
      congr 1
      have hb : onesCount [b] = (List.range 8).countP fun i => b.getLsbD i := by simp [onesCount]
      rw [← hb]
      rcases Nat.mod_two_eq_zero_or_one (onesCount [b]) with h1 | h1 <;>
        rcases Nat.mod_two_eq_zero_or_one (onesCount t) with h2 | h2 <;> simp [h1, h2]
  rw [parity, hgen]
  simp

theorem parity_append (a b : Bytes) : parity (a ++ b) = (parity a ^^ parity b) := by
  rw [parity_eq, parity_eq, parity_eq, onesCount_append, Nat.add_mod]
  rcases Nat.mod_two_eq_zero_or_one (onesCount a) with h1 | h1 <;>
    rcases Nat.mod_two_eq_zero_or_one (onesCount b) with h2 | h2 <;> simp [h1, h2]

/-! ## CRC_REMAINDER -/

/-- CRC_REMAINDER is the remainder of `poly(bytes) * x^d` by `G`, of width `d` (R102). -/
theorem crcRemainder_spec {g : Nat} (h : 1 ≤ deg g) (bs : Bytes) :
    crcRemainder bs g < 2 ^ (deg g).toNat ∧
      natPoly (crcRemainder bs g) = (bytesPoly bs * X ^ (deg g).toNat) % natPoly g := by
  have hlt : crcRemainder bs g < 2 ^ (deg g).toNat := by
    rw [crcRemainder, if_pos h]
    apply longDivide_lt (deg_bounds h).2 (testBit_deg h)
    rw [Nat.shiftLeft_eq, pow_add]
    have := beNat_lt bs
    rw [show (256 : Nat) = 2 ^ 8 from rfl, ← pow_mul] at this
    exact Nat.mul_lt_mul_of_pos_right this (by positivity)
  refine ⟨hlt, ?_⟩
  have hmod : natPoly (crcRemainder bs g) % natPoly g = natPoly (crcRemainder bs g) := by
    rw [mod_eq_self_iff (by rw [Ne, natPoly_eq_zero]; rintro rfl; simp [deg] at h), natPoly_degree_deg h]
    exact natPoly_degree_lt.2 hlt
  rw [← hmod, crcRemainder, if_pos h, natPoly_longDivide_mod, natPoly_shiftLeft, bytesPoly_eq]

/-- CRC_REMAINDER is zero exactly on the multiples of `G`. -/
theorem crcRemainder_eq_zero_iff {g : Nat} (h : 1 ≤ deg g) (bs : Bytes) :
    crcRemainder bs g = 0 ↔ natPoly g ∣ bytesPoly bs * X ^ (deg g).toNat := by
  rw [← natPoly_eq_zero, (crcRemainder_spec h bs).2, EuclideanDomain.mod_eq_zero]

/-! ## the checksum block -/

@[simp] theorem blockBytes_length (w v : Nat) : (blockBytes w v).length = w := by simp [blockBytes]

@[simp] theorem checksumBlock_length (c : Cfg) (bs : Bytes) : (checksumBlock c bs).length = c.checksumBytes := by
  simp [checksumBlock]

theorem blockBytes_succ (w v : Nat) : blockBytes (w + 1) v = blockBytes w (v >>> 8) ++ [BitVec.ofNat 8 v] := by
  unfold blockBytes
  rw [List.range_succ, List.map_append, List.map_singleton]
  congr 1
  · apply List.map_congr_left
    intro k hk
    rw [List.mem_range] at hk
    rw [← Nat.shiftRight_add, show 8 + 8 * (w - 1 - k) = 8 * (w + 1 - 1 - k) by omega]
  · rw [show 8 * (w + 1 - 1 - w) = 0 by omega, Nat.shiftRight_zero]

/-- The block is the value, most significant byte first (R79). -/
theorem beNat_blockBytes (w v : Nat) (h : v < 2 ^ (8 * w)) : beNat (blockBytes w v) = v := by
  induction w generalizing v with
  | zero => simp at h; simp [blockBytes, h]
  | succ w ih =>
    have hlt : v >>> 8 < 2 ^ (8 * w) := by
      rw [Nat.shiftRight_eq_div_pow]
      apply Nat.div_lt_of_lt_mul
      rw [← pow_add]
      exact lt_of_lt_of_eq h (by ring_nf)
    rw [blockBytes_succ, beNat_append, ih _ hlt]
    simp [beNat, Nat.shiftRight_eq_div_pow]
    omega

theorem checksumBits_le (c : Cfg) : c.checksumBits + c.padBits = 8 * c.checksumBytes := by
  unfold Cfg.padBits Cfg.checksumBytes
  omega

theorem checksumValue_lt {c : Cfg} (h : c.codec = .parity ∨ 1 ≤ deg c.g) (bs : Bytes) :
    checksumValue c bs < 2 ^ c.checksumBits := by
  unfold checksumValue Cfg.checksumBits
  cases hc : c.codec with
  | parity => cases parity bs <;> simp
  | crc =>
    rcases h with h | h
    · simp [hc] at h
    · exact (crcRemainder_spec h bs).1

/-- The checksum block is `R << PAD` (R104). -/
theorem beNat_checksumBlock {c : Cfg} (h : c.codec = .parity ∨ 1 ≤ deg c.g) (bs : Bytes) :
    beNat (checksumBlock c bs) = checksumValue c bs * 2 ^ c.padBits := by
  rw [checksumBlock, beNat_blockBytes, Nat.shiftLeft_eq]
  rw [Nat.shiftLeft_eq, ← checksumBits_le, pow_add]
  exact Nat.mul_lt_mul_of_pos_right (checksumValue_lt h bs) (by positivity)

/-- A valid configuration has a generator of degree at least 1 where it needs one. -/
theorem Cfg.valid_codec {c : Cfg} (h : c.valid = true) : c.codec = .parity ∨ 1 ≤ deg c.g := by
  simp only [Cfg.valid, Bool.and_eq_true, Bool.or_eq_true, beq_iff_eq, decide_eq_true_eq] at h
  exact h.1.1.2

theorem Cfg.valid_seqMod {c : Cfg} (h : c.valid = true) : 2 ≤ c.seqMod ∧ c.seqMod ≤ 256 := by
  simp only [Cfg.valid, Bool.and_eq_true, decide_eq_true_eq] at h
  exact h.1.2

theorem Cfg.valid_reserved {c : Cfg} (h : c.valid = true) : c.reservedDistinct = true := by
  simp only [Cfg.valid, Bool.and_eq_true] at h
  exact h.1.1.1

theorem Cfg.reservedDistinct_iff {c : Cfg} :
    c.reservedDistinct = true ↔ c.start ≠ c.stop ∧ c.start ≠ c.escape ∧ c.stop ≠ c.escape := by
  simp [Cfg.reservedDistinct, and_assoc]

end Sys2Proof.Machine
end

