-- ==== Sys2Proof/Laws/Checksum.lean ====
section
/-! SUPPORT. What VERIFY accepts, what APPEND_CHECKSUM makes of it, and what one flipped bit does, in terms of
polynomials and bit counts. -/

namespace Sys2Proof.Machine

open Polynomial

/-- The checksum block of Parity (R104). -/
theorem checksumBlock_parity {c : Cfg} (h : c.codec = .parity) (bs : Bytes) :
    checksumBlock c bs = [if onesCount bs % 2 = 1 then 0x80 else 0x00] := by
  have h1 : c.checksumBytes = 1 := by simp [Cfg.checksumBytes, Cfg.checksumBits, h]
  have h2 : c.padBits = 7 := by simp [Cfg.padBits, h1, Cfg.checksumBits, h]
  simp only [checksumBlock, h1, h2, checksumValue, h, parity_eq, blockBytes]
  by_cases hp : onesCount bs % 2 = 1 <;> simp [hp]

/-- The seven pad bits of a Parity checksum byte are zero for two values only. -/
theorem padBits_zero_iff (b : Byte) : (b &&& 0x7F == 0) = true ↔ b = 0x00 ∨ b = 0x80 := by
  revert b; decide

/-- A byte sequence that is not empty has a last byte. -/
theorem exists_append_last {bs : Bytes} (h : 1 ≤ bs.length) : ∃ covered last, bs = covered ++ [last] :=
  ⟨bs.dropLast, bs.getLast (by rintro rfl; simp at h), (List.dropLast_append_getLast _).symm⟩

/-- The Parity check as the spec states it (R107). -/
theorem verifyParity_iff (covered : Bytes) (last : Byte) :
    verifyParity (covered ++ [last]) = true ↔ (last = 0x00 ∧ onesCount covered % 2 = 0 ∨ last = 0x80 ∧
        onesCount covered % 2 = 1) := by
  have e : (covered ++ [last]).getD ((covered ++ [last]).length - 1) 0 = last := by simp
  simp only [verifyParity, e, Bool.and_eq_true, padBits_zero_iff]
  simp only [List.length_append, List.length_singleton, Nat.add_sub_cancel, List.take_left, beq_iff_eq, parity_eq]
  constructor
  · rintro ⟨h1, rfl | rfl⟩
    · left; refine ⟨rfl, ?_⟩; rw [show BitVec.getLsbD (0x00 : Byte) 7 = false from rfl,
        decide_eq_false_iff_not] at h1; omega
    · right; refine ⟨rfl, ?_⟩; rw [show BitVec.getLsbD (0x80 : Byte) 7 = true from rfl, decide_eq_true_eq] at h1;
        exact h1
  · rintro (⟨rfl, h⟩ | ⟨rfl, h⟩)
    · rw [show BitVec.getLsbD (0x00 : Byte) 7 = false from rfl, decide_eq_false_iff_not]; exact ⟨by omega, .inl rfl⟩
    · rw [show BitVec.getLsbD (0x80 : Byte) 7 = true from rfl, decide_eq_true_eq]; exact ⟨h, .inr rfl⟩

/-- Everything VERIFY accepts (R106, R107). -/
theorem verify_iff {c : Cfg} (h : c.codec = .parity ∨ 1 ≤ deg c.g) (full : Bytes) :
    verify c full = true ↔ c.checksumBytes + 1 ≤ full.length ∧
        match c.codec with
        | .crc => natPoly c.g ∣ bytesPoly full * Polynomial.X ^ c.checksumBits
        | .parity => ∃ covered last, full = covered ++ [last] ∧
            (last = 0x00 ∧ onesCount covered % 2 = 0 ∨ last = 0x80 ∧ onesCount covered % 2 = 1) := by
  unfold verify
  split
  · simp; omega
  · rename_i hl
    have hl : c.checksumBytes + 1 ≤ full.length := by omega
    simp only [hl, true_and]
    cases hc : c.codec with
    | parity =>
      simp only
      obtain ⟨cov, last, rfl⟩ := exists_append_last (by omega : 1 ≤ full.length)
      rw [verifyParity_iff]
      constructor
      · exact fun h => ⟨cov, last, rfl, h⟩
      · rintro ⟨a, b, hab, h⟩
        obtain ⟨rfl, hb⟩ := List.append_inj' hab rfl
        cases hb; exact h
    | crc =>
      simp [hc] at h
      simp only [beq_iff_eq, crcRemainder_eq_zero_iff h, Cfg.checksumBits, hc]

/-- A sequence with its CRC checksum is a multiple of the generator. -/
theorem natPoly_dvd_appendChecksum {c : Cfg} (hc : c.codec = .crc) (h : 1 ≤ deg c.g) (bs : Bytes) :
    ∃ k, bytesPoly (appendChecksum c bs) = natPoly c.g * k := by
  have hbits : c.checksumBits = (deg c.g).toNat := by simp [Cfg.checksumBits, hc]
  rw [appendChecksum, bytesPoly_eq, natPoly_beNat_append, beNat_checksumBlock (.inr h), checksumBlock_length,
      ← Nat.shiftLeft_eq, natPoly_shiftLeft,
   ← checksumBits_le, pow_add, ← mul_assoc, ← add_mul, ← bytesPoly_eq]
  simp only [checksumValue, hc]
  rw [(crcRemainder_spec h bs).2, hbits]
  set P := bytesPoly bs * X ^ (deg c.g).toNat
  have := EuclideanDomain.div_add_mod P (natPoly c.g)
  refine ⟨(P / natPoly c.g) * X ^ c.padBits, ?_⟩
  have two : ∀ p : (ZMod 2)[X], p + p = 0 := fun p => CharTwo.add_self_eq_zero p
  have h2 := two (P % natPoly c.g)
  linear_combination (-X ^ c.padBits) * this + X ^ c.padBits * h2

/-- VERIFY accepts what APPEND_CHECKSUM makes (R108). -/
theorem verify_appendChecksum {c : Cfg} (h : c.codec = .parity ∨ 1 ≤ deg c.g) {bs : Bytes} (hb : bs ≠ []) :
    verify c (appendChecksum c bs) = true := by
  have hl := List.length_pos_of_ne_nil hb
  rw [verify_iff h]
  refine ⟨by simp [appendChecksum]; omega, ?_⟩
  cases hc : c.codec with
  | parity =>
    refine ⟨bs, _, by rw [appendChecksum, checksumBlock_parity hc], ?_⟩
    by_cases hp : onesCount bs % 2 = 1
    · simp [hp]
    · simp [hp]; omega
  | crc =>
    simp [hc] at h
    obtain ⟨k, hk⟩ := natPoly_dvd_appendChecksum hc h bs
    rw [hk]
    exact ⟨k * X ^ c.checksumBits, by ring⟩

/-- APPEND_CHECKSUM appends `W` bytes. -/
theorem appendChecksum_eq_append (c : Cfg) (bs : Bytes) : ∃ block : Bytes, appendChecksum c bs = bs ++ block ∧
    block.length = c.checksumBytes := by
  exact ⟨_, rfl, by simp [appendChecksum, checksumBlock]⟩

/-- Flipping a bit keeps the length. -/
theorem flipBit_length (bs : Bytes) (k i : Nat) : (flipBit bs k i).length = bs.length := by simp [flipBit]

/-- Where a flipped bit is. -/
theorem flipBit_split (bs : Bytes) (k i : Nat) (hk : k < bs.length) :
    ∃ a b t, bs = a ++ b :: t ∧ a.length = k ∧ flipBit bs k i = a ++ (b ^^^ BitVec.ofNat 8 (2 ^ i)) :: t := by
  refine ⟨bs.take k, bs[k], bs.drop (k+1), ?_, ?_, ?_⟩
  · simp
  · simp; omega
  · rw [flipBit, List.modify_eq_take_cons_drop hk]

/-- A flipped bit changes the parity of the bit count. -/
theorem onesCount_flipBit (bs : Bytes) (k i : Nat) (hk : k < bs.length) (hi : i < 8) :
    onesCount (flipBit bs k i) % 2 = (onesCount bs + 1) % 2 := by
  obtain ⟨a, b, t, h1, -, h2⟩ := flipBit_split bs k i hk
  rw [h2, h1, show a ++ b :: t = a ++ ([b] ++ t) from rfl, show ∀ x, a ++ x :: t = a ++ ([x] ++ t) from fun _ => rfl]
  simp only [onesCount_append]
  have : onesCount [b ^^^ BitVec.ofNat 8 (2 ^ i)] % 2 = (onesCount [b] + 1) % 2 := by
    have : ∀ i : Fin 8, ∀ b : Byte, onesCount [b ^^^ BitVec.ofNat 8 (2 ^ i.val)] % 2 = (onesCount [b] + 1) % 2 :=
        by decide +kernel
    exact this ⟨i, hi⟩ b
  omega

/-- A flipped bit adds one power of `x`. -/
theorem bytesPoly_flipBit (bs : Bytes) (k i : Nat) (hk : k < bs.length) (hi : i < 8) :
    bytesPoly (flipBit bs k i) = bytesPoly bs + X ^ (8 * (bs.length - 1 - k) + i) := by
  obtain ⟨a, b, t, h1, h3, h2⟩ := flipBit_split bs k i hk
  have hl : bs.length - 1 - k = t.length := by rw [h1]; simp; omega
  rw [h2, hl]
  conv_rhs => rw [h1]
  rw [show a ++ b :: t = a ++ ([b] ++ t) from rfl, show ∀ x, a ++ x :: t = a ++ ([x] ++ t) from fun _ => rfl]
  simp only [bytesPoly_eq, natPoly_beNat_append]
  have e : ∀ x : Byte, beNat [x] = x.toNat := fun x => by simp [beNat]
  have : (BitVec.ofNat 8 (2 ^ i)).toNat = 2 ^ i := by
    rw [BitVec.toNat_ofNat, Nat.mod_eq_of_lt]; exact Nat.pow_lt_pow_right (by omega) hi
  rw [e, e, BitVec.toNat_xor, natPoly_xor, this, natPoly_two_pow]
  simp; ring

/-- Only a generator of one term divides a power of `x`. -/
theorem eq_two_pow_of_dvd_X_pow {g n : Nat} (h : 1 ≤ deg g) : natPoly g ∣ X ^ n → g = 2 ^ (deg g).toNat := by
  intro hd
  rw [dvd_prime_pow Polynomial.prime_X] at hd
  obtain ⟨m, -, hm⟩ := hd
  have he : natPoly g = X ^ m := by
    obtain ⟨u, hu⟩ := hm
    have : (u : (ZMod 2)[X]) = 1 := by
      obtain ⟨c, hc, hcu⟩ := Polynomial.isUnit_iff.1 u.isUnit
      rw [← hcu]
      have : c = 1 := by
        have : c ≠ 0 := hc.ne_zero
        clear hcu hc; revert c; decide
      rw [this]; simp
    rw [← hu, this, mul_one]
  rw [← natPoly_two_pow] at he
  have := natPoly_injective he
  obtain ⟨h1, h2⟩ := deg_bounds h
  conv at h1 => rhs; rw [this]
  conv at h2 => lhs; rw [this]
  have h1 := (Nat.pow_le_pow_iff_right (by omega)).1 h1
  have h2 := (Nat.pow_lt_pow_iff_right (by omega)).1 h2
  rw [show (deg g).toNat = m by omega]
  exact this

end Sys2Proof.Machine
end

