-- ==== Sys2Proof/Laws/Decode.lean ====
section
/-! SUPPORT. Each operand decoder reads back what its encoder writes. -/

namespace Sys2Proof

theorem natDecode_natCodeAux (fuel n : Nat) (h : n ≤ fuel) (r : Bytes) :
    natDecode (natCodeAux fuel n ++ r) = some (n, r) := by
  induction fuel generalizing n with
  | zero =>
    obtain rfl : n = 0 := by omega
    simp [natCodeAux, natDecode]
  | succ f ih =>
    rw [natCodeAux]
    split
    · rename_i hn
      have hm : n % 256 = n := Nat.mod_eq_of_lt (by omega)
      simp [natDecode, hm, hn]
    · rename_i hn
      have hlt := Nat.mod_lt n (by omega : 128 > 0)
      have hm : (128 + n % 128) % 256 = 128 + n % 128 := Nat.mod_eq_of_lt (by omega)
      have hge : ¬ 128 + n % 128 < 128 := by omega
      simp only [List.cons_append, natDecode, BitVec.toNat_ofNat, Nat.reducePow, hm, hge, if_false,
        ih (n / 128) (by omega), Option.some.injEq, Prod.mk.injEq, and_true]
      omega

@[simp] theorem natDecode_natCode (n : Nat) (r : Bytes) : natDecode (natCode n ++ r) = some (n, r) :=
  natDecode_natCodeAux n n le_rfl r

@[simp] theorem takeBytes_append (bs r : Bytes) : takeBytes bs.length (bs ++ r) = some (bs, r) := by
  simp [takeBytes]

theorem bytesDecode_bytesCode {extra : Nat} (bs r : Bytes) (h : extra ≤ bs.length) :
    bytesDecode extra (bytesCode extra bs ++ r) = some (bs, r) := by
  simp [bytesDecode, bytesCode, List.append_assoc, Nat.sub_add_cancel h]

@[simp] theorem bytesDecode_bytesCode_zero (bs r : Bytes) : bytesDecode 0 (bytesCode 0 bs ++ r) = some (bs, r) :=
  bytesDecode_bytesCode bs r (Nat.zero_le _)

@[simp] theorem capDecode_capCode (cap : Option Nat) (r : Bytes) : capDecode (capCode cap ++ r) = some (cap, r) := by
  cases cap <;> simp [capDecode, capCode]

theorem widthDecode_widthCode {w : Option Nat} (h : w ≠ some 0) (r : Bytes) :
    widthDecode (widthCode w ++ r) = some (w, r) := by
  cases w with
  | none => simp [widthDecode, widthCode]
  | some k =>
    obtain ⟨j, rfl⟩ : ∃ j, k = j + 1 := Nat.exists_eq_succ_of_ne_zero (by rintro rfl; exact h rfl)
    simp [widthDecode, widthCode]

@[simp] theorem codecDecode_codecCode (k : CodecKind) : codecDecode (codecCode k) = some k := by
  cases k <;> decide

theorem cfgDecode_cfgCode {c : Cfg} (h : c.timeW ≠ some 0) (r : Bytes) : cfgDecode (cfgCode c ++ r) = some (c, r) := by
  simp [cfgDecode, cfgCode, List.append_assoc, widthDecode_widthCode h]

end Sys2Proof
end

