-- ==== Sys2Proof/Laws/Exec.lean ====
section
/-! SUPPORT. What one instruction can do: the refusal of a faulted endpoint, and one inversion lemma over
all of exec. -/

namespace Sys2Proof.Machine

/-- Every instruction but RESET is an operation in the sense of Machine/Ops.lean. -/
theorem exec_is_operation {i : Instr} {s : State} (h : ∀ cfg, i ≠ .reset cfg) : ∃ k, exec i s = operation s k := by
  cases i with
  | reset cfg => exact absurd rfl (h cfg)
  | send p => exact ⟨fun s => s.send p, rfl⟩
  | cycle now rx => exact ⟨fun s => s.cycle now rx, rfl⟩
  | parity bytes => exact ⟨fun s => .ok (s.returns (.bit (parity bytes))), rfl⟩
  | crcRemainder bytes g => exact ⟨fun s => .ok (s.returns (.remainder (crcRemainder bytes g))), rfl⟩
  | appendChecksum bytes =>
    exact ⟨fun s => if bytes.isEmpty then .error .emptyInput else .ok (s.returns (.bytes (appendChecksum s.cfg bytes))),
      rfl⟩
  | verify full => exact ⟨fun s => .ok (s.returns (.verdict (verify s.cfg full))), rfl⟩
  | encode body => exact ⟨fun s => .ok (s.returns (.bytes (encodeFrame s.cfg body))), rfl⟩
  | tryDecode => exact ⟨fun s => .ok s.tryDecode, rfl⟩
  | submit p now => exact ⟨fun s => s.submitChecked p now, rfl⟩
  | onFrameReceived raw => exact ⟨fun s => .ok (s.onFrameReceived raw), rfl⟩
  | onTick now => exact ⟨fun s => s.onTick now, rfl⟩
  | start => exact ⟨fun s => s.byteArrives s.cfg.start, rfl⟩
  | stop => exact ⟨fun s => s.byteArrives s.cfg.stop, rfl⟩
  | escape => exact ⟨fun s => s.byteArrives s.cfg.escape, rfl⟩
  | literal b => exact ⟨fun s => s.byteArrives b, rfl⟩
  | data seq p k => exact ⟨fun s => .ok (s.onFrameReceived (0x00 :: seq :: (p ++ k))), rfl⟩
  | ack seq p k => exact ⟨fun s => .ok (s.onFrameReceived (0x01 :: seq :: (p ++ k))), rfl⟩
  | reservedAckflag flag seq p k => exact ⟨fun s => .ok (s.onFrameReceived (flag :: seq :: (p ++ k))), rfl⟩
  | dataframe seq p => exact ⟨fun s => .ok (s.returns (.bytes (dataFrame s.cfg seq p))), rfl⟩
  | ackframe seq => exact ⟨fun s => .ok (s.returns (.bytes (ackFrame s.cfg seq))), rfl⟩

/-- While `fault` is set every instruction but RESET is refused (R28). -/
theorem exec_faulted {i : Instr} {s : State} (h : ∀ cfg, i ≠ .reset cfg) (hf : s.fault = true) :
    exec i s = .refused .faulted := by
  obtain ⟨k, hk⟩ := exec_is_operation (s := s) h
  simp [hk, operation, hf]

/-- No instruction ends in a fault. -/
theorem exec_ne_fault {i : Instr} {s : State} {e : Fault} : exec i s ≠ .fault e := by
  by_cases h : ∃ cfg, i = .reset cfg
  · obtain ⟨cfg, rfl⟩ := h
    simp only [exec, execReset]
    split <;> simp
  · obtain ⟨k, hk⟩ := exec_is_operation (s := s) (not_exists.1 h)
    rw [hk]
    exact operation_ne_fault

/-! ## one equation per instruction, on an endpoint that is not faulted -/

section
variable {s : State} (h : s.fault = false)
include h

theorem exec_parity (bytes : Bytes) :
    exec (.parity bytes) s = .next (s.begin.returns (.bit (parity bytes))) := by
  simp only [exec, execParity, operation_of_not_fault h, answer]

theorem exec_crcRemainder (bytes : Bytes) (g : Nat) :
    exec (.crcRemainder bytes g) s = .next (s.begin.returns (.remainder (crcRemainder bytes g))) := by
  simp only [exec, execCrcRemainder, operation_of_not_fault h, answer]

theorem exec_verify (full : Bytes) :
    exec (.verify full) s = .next (s.begin.returns (.verdict (verify s.cfg full))) := by
  simp only [exec, execVerify, operation_of_not_fault h, answer]
  rfl

theorem exec_encode (body : Bytes) :
    exec (.encode body) s = .next (s.begin.returns (.bytes (encodeFrame s.cfg body))) := by
  simp only [exec, execEncode, operation_of_not_fault h, answer]
  rfl

theorem exec_dataframe (seq : Byte) (p : Bytes) :
    exec (.dataframe seq p) s = .next (s.begin.returns (.bytes (dataFrame s.cfg seq p))) := by
  simp only [exec, execDataframe, operation_of_not_fault h, answer]
  rfl

theorem exec_ackframe (seq : Byte) :
    exec (.ackframe seq) s = .next (s.begin.returns (.bytes (ackFrame s.cfg seq))) := by
  simp only [exec, execAckframe, operation_of_not_fault h, answer]
  rfl

theorem exec_tryDecode :
    exec (.tryDecode) s = .next (s.begin.tryDecode) := by
  simp only [exec, execTryDecode, operation_of_not_fault h, answer]

theorem exec_submit (p : Bytes) (now : Nat) :
    exec (.submit p now) s = answer (s.begin.submitChecked p now) := by
  simp only [exec, execSubmit, operation_of_not_fault h]

theorem exec_onFrameReceived (raw : Bytes) :
    exec (.onFrameReceived raw) s = .next (s.begin.onFrameReceived raw) := by
  simp only [exec, execOnFrameReceived, operation_of_not_fault h, answer]

theorem exec_data (seq : Byte) (p k : Bytes) :
    exec (.data seq p k) s = .next (s.begin.onFrameReceived (0x00 :: seq :: (p ++ k))) := by
  simp only [exec, execData, operation_of_not_fault h, answer]

theorem exec_ack (seq : Byte) (p k : Bytes) :
    exec (.ack seq p k) s = .next (s.begin.onFrameReceived (0x01 :: seq :: (p ++ k))) := by
  simp only [exec, execAck, operation_of_not_fault h, answer]

theorem exec_reservedAckflag (flag seq : Byte) (p k : Bytes) :
    exec (.reservedAckflag flag seq p k) s = .next (s.begin.onFrameReceived (flag :: seq :: (p ++ k))) := by
  simp only [exec, execReservedAckflag, operation_of_not_fault h, answer]

theorem exec_appendChecksum (bytes : Bytes) :
    exec (.appendChecksum bytes) s =
      if bytes = [] then .refused .emptyInput else .next (s.begin.returns (.bytes (appendChecksum s.cfg bytes))) := by
  simp only [exec, execAppendChecksum, operation_of_not_fault h]
  cases bytes <;> rfl

theorem exec_send (p : Bytes) :
    exec (.send p) s = answer (s.begin.send p) := by
  simp only [exec, execSend, operation_of_not_fault h]

theorem exec_cycle (now : Nat) (rx : Bytes) :
    exec (.cycle now rx) s = answer (s.begin.cycle now rx) := by
  simp only [exec, execCycle, operation_of_not_fault h]

theorem exec_onTick (now : Nat) :
    exec (.onTick now) s = answer (s.begin.onTick now) := by
  simp only [exec, execOnTick, operation_of_not_fault h]

theorem exec_start :
    exec (.start) s = answer (s.begin.byteArrives s.cfg.start) := by
  simp only [exec, execStart, operation_of_not_fault h]
  rfl

theorem exec_stop :
    exec (.stop) s = answer (s.begin.byteArrives s.cfg.stop) := by
  simp only [exec, execStop, operation_of_not_fault h]
  rfl

theorem exec_escape :
    exec (.escape) s = answer (s.begin.byteArrives s.cfg.escape) := by
  simp only [exec, execEscape, operation_of_not_fault h]
  rfl

theorem exec_literal (b : Byte) :
    exec (.literal b) s = answer (s.begin.byteArrives b) := by
  simp only [exec, execLiteral, operation_of_not_fault h]

end

/-! ## all instructions -/

/-- Everything an instruction can do when it answers a next state. -/
theorem exec_next_cases {i : Instr} {s t : State} (h : exec i s = .next t) :
    (∃ cfg, i = .reset cfg ∧ fits s.degMax (deg cfg.g).toNat = true ∧
      t = if cfg.valid then s.cleared cfg else (s.cleared cfg).raiseConfigError) ∨
    (s.fault = false ∧ (∀ cfg, i ≠ .reset cfg) ∧
      ((t = s.begin.returns t.result ∧ (∀ now rx, i ≠ .cycle now rx) ∧ i ≠ .start ∧ i ≠ .stop ∧ i ≠ .escape ∧
          ∀ b, i ≠ .literal b) ∨
      (∃ p, i = .send p ∧ fits s.cfg.maxPayload p.length = true ∧ s.txqFull = false ∧
        t = (s.begin.qPush p).returns .accepted) ∨
      (∃ now rx, i = .cycle now rx ∧ s.begin.cycle now rx = .ok t) ∨
      (∃ arrived, (i = .tryDecode ∧ arrived = [] ∨ i = .start ∧ arrived = [s.cfg.start] ∨
          i = .stop ∧ arrived = [s.cfg.stop] ∨ i = .escape ∧ arrived = [s.cfg.escape] ∨
          ∃ b, i = .literal b ∧ arrived = [b]) ∧
        (arrived = [] ∨ fits s.cfg.rxbufCap (s.rxbuf.length + arrived.length) = true) ∧
        t = ({ s.begin with rxbuf := s.rxbuf ++ arrived } : State).tryDecode) ∨
      (∃ p now, i = .submit p now ∧ (s.sendState = .idle → fits s.cfg.maxPayload p.length = true) ∧
        t = s.begin.submit p now) ∨
      (∃ raw, (i = .onFrameReceived raw ∨
          (∃ seq p k, i = .data seq p k ∧ raw = 0x00 :: seq :: (p ++ k)) ∨
          (∃ seq p k, i = .ack seq p k ∧ raw = 0x01 :: seq :: (p ++ k)) ∨
          ∃ flag seq p k, i = .reservedAckflag flag seq p k ∧ raw = flag :: seq :: (p ++ k)) ∧
        t = s.begin.onFrameReceived raw) ∨
      (∃ now, i = .onTick now ∧ s.begin.onTick now = .ok t))) := by
  have harrive : ∀ b, s.begin.byteArrives b = .ok t →
      fits s.cfg.rxbufCap (s.rxbuf.length + [b].length) = true ∧
        t = ({ s.begin with rxbuf := s.rxbuf ++ [b] } : State).tryDecode := by
    intro b hb
    unfold State.byteArrives at hb
    cases ha : s.begin.bufAppend [b] with
    | error r => rw [ha] at hb; cases hb
    | ok u =>
      rw [ha] at hb
      obtain ⟨h1, h2⟩ := bufAppend_eq_ok.1 ha
      cases hb
      exact ⟨h1, by rw [h2]; rfl⟩
  cases i with
  | reset cfg =>
    left
    simp only [exec, execReset] at h
    split at h
    · exact ⟨cfg, rfl, ‹_›, by cases h; rfl⟩
    · cases h
  | send p =>
    simp only [exec, execSend, operation_eq_next] at h
    obtain ⟨hf, hk⟩ := h
    refine .inr ⟨hf, by simp, ?_⟩
    unfold State.send at hk
    split at hk
    · cases hk
    split at hk
    · cases hk; exact .inl ⟨rfl, by simp⟩
    · cases hk
      refine .inr (.inl ⟨p, rfl, ?_, ?_, rfl⟩)
      · simp_all
      · exact (Bool.not_eq_true _).mp ‹¬s.begin.txqFull = true›
  | cycle now rx =>
    simp only [exec, execCycle, operation_eq_next] at h
    obtain ⟨hf, hk⟩ := h
    exact .inr ⟨hf, by simp, .inr (.inr (.inl ⟨now, rx, rfl, hk⟩))⟩
  | appendChecksum bytes =>
    simp only [exec, execAppendChecksum, operation_eq_next] at h
    obtain ⟨hf, hk⟩ := h
    refine .inr ⟨hf, by simp, .inl ⟨?_, by simp⟩⟩
    split at hk
    · cases hk
    · cases hk; rfl
  | parity | crcRemainder | verify | encode | dataframe | ackframe =>
    simp only [exec, execParity, execCrcRemainder, execVerify, execEncode, execDataframe, execAckframe,
      operation_eq_next] at h
    obtain ⟨hf, hk⟩ := h
    refine .inr ⟨hf, by simp, .inl ⟨?_, by simp⟩⟩
    cases hk; rfl
  | tryDecode =>
    simp only [exec, execTryDecode, operation_eq_next] at h
    obtain ⟨hf, hk⟩ := h
    refine .inr ⟨hf, by simp, .inr (.inr (.inr (.inl ⟨[], by simp, by simp, ?_⟩)))⟩
    cases hk
    rw [List.append_nil]; rfl
  | start =>
    simp only [exec, execStart, operation_eq_next] at h
    obtain ⟨hf, hk⟩ := h
    obtain ⟨h1, h2⟩ := harrive _ hk
    exact .inr ⟨hf, by simp, .inr (.inr (.inr (.inl ⟨_, .inr (.inl ⟨rfl, rfl⟩), .inr h1, h2⟩)))⟩
  | stop =>
    simp only [exec, execStop, operation_eq_next] at h
    obtain ⟨hf, hk⟩ := h
    obtain ⟨h1, h2⟩ := harrive _ hk
    exact .inr ⟨hf, by simp, .inr (.inr (.inr (.inl ⟨_, .inr (.inr (.inl ⟨rfl, rfl⟩)), .inr h1, h2⟩)))⟩
  | escape =>
    simp only [exec, execEscape, operation_eq_next] at h
    obtain ⟨hf, hk⟩ := h
    obtain ⟨h1, h2⟩ := harrive _ hk
    exact .inr ⟨hf, by simp, .inr (.inr (.inr (.inl ⟨_, .inr (.inr (.inr (.inl ⟨rfl, rfl⟩))), .inr h1, h2⟩)))⟩
  | literal b =>
    simp only [exec, execLiteral, operation_eq_next] at h
    obtain ⟨hf, hk⟩ := h
    obtain ⟨h1, h2⟩ := harrive _ hk
    exact .inr ⟨hf, by simp, .inr (.inr (.inr (.inl ⟨_, .inr (.inr (.inr (.inr ⟨b, rfl, rfl⟩))), .inr h1, h2⟩)))⟩
  | submit p now =>
    simp only [exec, execSubmit, operation_eq_next] at h
    obtain ⟨hf, hk⟩ := h
    exact .inr ⟨hf, by simp, .inr (.inr (.inr (.inr (.inl ⟨p, now, rfl, submitChecked_eq_ok.1 hk⟩))))⟩
  | onFrameReceived raw =>
    simp only [exec, execOnFrameReceived, operation_eq_next] at h
    obtain ⟨hf, hk⟩ := h
    exact .inr ⟨hf, by simp, .inr (.inr (.inr (.inr (.inr (.inl ⟨raw, .inl rfl, by cases hk; rfl⟩)))))⟩
  | data seq p k =>
    simp only [exec, execData, operation_eq_next] at h
    obtain ⟨hf, hk⟩ := h
    exact .inr ⟨hf, by simp, .inr (.inr (.inr (.inr (.inr (.inl
      ⟨_, .inr (.inl ⟨seq, p, k, rfl, rfl⟩), by cases hk; rfl⟩)))))⟩
  | ack seq p k =>
    simp only [exec, execAck, operation_eq_next] at h
    obtain ⟨hf, hk⟩ := h
    exact .inr ⟨hf, by simp, .inr (.inr (.inr (.inr (.inr (.inl
      ⟨_, .inr (.inr (.inl ⟨seq, p, k, rfl, rfl⟩)), by cases hk; rfl⟩)))))⟩
  | reservedAckflag flag seq p k =>
    simp only [exec, execReservedAckflag, operation_eq_next] at h
    obtain ⟨hf, hk⟩ := h
    exact .inr ⟨hf, by simp, .inr (.inr (.inr (.inr (.inr (.inl
      ⟨_, .inr (.inr (.inr ⟨flag, seq, p, k, rfl, rfl⟩)), by cases hk; rfl⟩)))))⟩
  | onTick now =>
    simp only [exec, execOnTick, operation_eq_next] at h
    obtain ⟨hf, hk⟩ := h
    exact .inr ⟨hf, by simp, .inr (.inr (.inr (.inr (.inr (.inr ⟨now, rfl, hk⟩)))))⟩

end Sys2Proof.Machine
end

