-- ==== Sys2Proof/Laws/Streams.lean ====
section
/-! SUPPORT. The framer over whole streams: a frame behind garbage, a settled buffer, a buffer drained, a
stream fed in batches, and one byte more on an open body. -/

namespace Sys2Proof.Machine

/-- The hunt phase skips garbage that holds no `START` and ends in no `ESCAPE`. -/
theorem hunt_garbage {c : Cfg} (h : c.start ≠ c.escape) (g t : Bytes) (h1 : c.start ∉ g) (h2 : endsInEscape c g =
    false) :
    hunt c (g ++ c.start :: t) = ⟨g.length, true, c.start :: t⟩ := by
  induction g using endsInEscape.induct (c := c) with
  | case1 => exact hunt_start h t
  | case2 b =>
    simp [endsInEscape] at h1 h2
    simp [hunt_other h2 (Ne.symm h1), hunt_start h, Hunted.skip]
  | case3 x g ih =>
    simp [endsInEscape] at h1 h2
    simp only [List.cons_append, hunt_escape, ih h1.2.2 h2, Hunted.skip, List.length_cons]
  | case4 b x g hb ih =>
    simp only [List.mem_cons, not_or, endsInEscape, if_neg hb] at h1 h2
    have := ih (by simp; exact h1.2) h2
    rw [List.cons_append, hunt_other hb (Ne.symm h1.1), this]
    simp [Hunted.skip]

/-- The collect phase takes a stuffed body back. -/
theorem collect_stuff {c : Cfg} (h : c.reservedDistinct = true) (cur body tail acc : Bytes) :
    collect c cur (stuff c body ++ c.stop :: tail) acc = ⟨0, some (acc ++ body), tail⟩ := by
  obtain ⟨h1, h2, h3⟩ := Cfg.reservedDistinct_iff.1 h
  induction body generalizing acc with
  | nil => simp [stuff, collect_stop h3]
  | cons b t ih =>
    have : stuff c (b :: t) = stuffByte c b ++ stuff c t := by simp [stuff]
    rw [this, stuffByte]
    split
    · simp only [List.cons_append, List.nil_append, collect_escape, ih]
      simp
    · rename_i hb
      rw [List.cons_append, List.nil_append, List.cons_append, collect_literal (by simpa using hb), ih]
      simp

/-- One call of TRY_DECODE takes an encoded frame from behind garbage. -/
theorem scan_encodeFrame {c : Cfg} (h : c.reservedDistinct = true) (g body t : Bytes) (h1 : c.start ∉ g)
    (h2 : endsInEscape c g = false) :
    scan c (g ++ encodeFrame c body ++ t) = ⟨g.length, 0, some body, t⟩ := by
  obtain ⟨d1, d2, d3⟩ := Cfg.reservedDistinct_iff.1 h
  have e : g ++ encodeFrame c body ++ t = g ++ c.start :: (stuff c body ++ c.stop :: t) := by simp [encodeFrame]
  rw [e, scan, hunt_garbage d2 _ _ h1 h2]
  simp [collect_stuff h]

/-- A stuffed body has no unescaped delimiter (R73). -/
theorem unescaped_stuff {c : Cfg} (h : c.reservedDistinct = true) (body : Bytes) :
    endsInEscape c (stuff c body) = false ∧ c.start ∉ unescaped c (stuff c body) ∧
        c.stop ∉ unescaped c (stuff c body) := by
  obtain ⟨d1, d2, d3⟩ := Cfg.reservedDistinct_iff.1 h
  induction body with
  | nil => simp [stuff, endsInEscape, unescaped]
  | cons b t ih =>
    have : stuff c (b :: t) = stuffByte c b ++ stuff c t := by simp [stuff]
    rw [this, stuffByte]
    split
    · simpa [endsInEscape, unescaped] using ih
    · rename_i hb
      simp only [Cfg.isReserved, Bool.or_eq_true, beq_iff_eq, not_or] at hb
      obtain ⟨⟨e1, e2⟩, e3⟩ := hb
      cases hs : stuff c t with
      | nil => simp [endsInEscape, unescaped, e3, Ne.symm e1, Ne.symm e2]
      | cons x u => rw [hs] at ih; simpa [endsInEscape, unescaped, e3, Ne.symm e1, Ne.symm e2] using ih

/-- The machine over one encoded frame emits its body. -/
theorem streamRun_encodeFrame {c : Cfg} (hd : c.reservedDistinct = true) (body : Bytes) :
    streamRun c .hunt (encodeFrame c body) = (.hunt, [body]) := by
  simp only [Cfg.reservedDistinct, Bool.and_eq_true, bne_iff_ne] at hd
  obtain ⟨⟨d1, d2⟩, d3⟩ := hd
  rw [encodeFrame, List.append_assoc, List.singleton_append, streamRun_cons, streamByte_start_hunt d2,
      streamRun_append, streamRun_stuff]
  simp [streamRun, streamByte, d3]

/-- The events of a scan are the framer's. -/
theorem scanEvents_framing (k : Scan) : ∀ e ∈ scanEvents k, e.framing = true := by
  intro e he
  simp only [scanEvents, List.mem_append, List.mem_replicate] at he
  rcases he with he | ⟨-, rfl⟩
  · split at he
    · simp at he
    · simp at he; rw [he]; rfl
  · rfl

/-- No event of a scan is any but the framer's. -/
theorem scanEvents_filter (k : Scan) : (scanEvents k).filter (fun e => !e.framing) = [] := by
  rw [List.filter_eq_nil_iff]; intro e he; simp [scanEvents_framing k e he]

/-- The garbage a scan reports. -/
theorem scanEvents_garbage (k : Scan) : ((scanEvents k).map Event.garbageBytes).sum = k.garbage := by
  unfold scanEvents
  split <;> rename_i h <;> simp [Event.garbageBytes, h]

/-- The machine over a settled buffer emits nothing, and the buffer shows its state. -/
theorem streamRun_settled {c : Cfg} (h : c.reservedDistinct = true) {buf : Bytes} (hs : settled c buf) :
    (streamRun c .hunt buf).2 = [] ∧ streamGarbage c .hunt buf = 0 ∧
    ((buf = [] ∧ (streamRun c .hunt buf).1 = .hunt) ∨ (buf = [c.escape] ∧ (streamRun c .hunt buf).1 = .huntEsc) ∨
     (buf.head? = some c.start ∧ (streamRun c .hunt buf).1.collecting)) := by
  obtain ⟨d1, d2, d3⟩ := Cfg.reservedDistinct_iff.1 h
  rcases hs with rfl | rfl | ⟨h1, h2⟩
  · simp [streamRun, streamGarbage]
  · simp [streamRun, streamGarbage, streamByte]
  · cases buf with
    | nil => simp at h1
    | cons b t =>
      simp at h1 h2
      subst h1
      obtain ⟨e1, e2, e3⟩ := streamRun_openBody c [] t h2
      refine ⟨?_, ?_, .inr (.inr ⟨rfl, ?_⟩)⟩
      · rw [streamRun_cons, streamByte_start_hunt d2]; simp [e2]
      · rw [streamGarbage, streamByte_start_hunt d2]; simp [d2, e3]
      · rw [streamRun_cons, streamByte_start_hunt d2]; exact e1

/-- TRY_DECODE leaves a settled buffer alone. -/
theorem scan_settled {c : Cfg} (hc : c.reservedDistinct = true) {buf : Bytes} (hs : settled c buf) :
    scan c buf = ⟨0, 0, none, buf⟩ := by
  have hd := hc
  simp only [Cfg.reservedDistinct, Bool.and_eq_true, bne_iff_ne] at hd
  obtain ⟨⟨d1, d2⟩, d3⟩ := hd
  rcases hs with rfl | rfl | ⟨h1, h2, h3⟩
  · simp [scan, hunt]
  · simp [scan, hunt]
  · cases buf with
    | nil => cases h1
    | cons b t =>
      simp only [List.head?_cons, Option.some.injEq] at h1
      subst h1
      simp only [List.tail_cons] at h2 h3
      have key : ∀ (l acc cur : Bytes), c.start ∉ unescaped c l → c.stop ∉ unescaped c l → collect c cur l acc = ⟨0,
          none, cur⟩ := by
        intro l
        induction l using unescaped.induct (c := c) with
        | case1 => intros; simp [collect]
        | case2 => intros; simp [collect]
        | case3 b hb =>
          intro acc cur h1 h2
          simp only [unescaped, if_neg hb, List.mem_singleton] at h1 h2
          simp [collect, hb, Ne.symm h1, Ne.symm h2]
        | case4 x t ih =>
          intro acc cur h1 h2
          simp only [unescaped, if_pos] at h1 h2
          simp only [collect, if_pos]
          exact ih _ _ h1 h2
        | case5 b x t hb ih =>
          intro acc cur h1 h2
          simp only [unescaped, if_neg hb, List.mem_cons, not_or] at h1 h2
          simp only [collect, if_neg hb, if_neg (Ne.symm h1.1), if_neg (Ne.symm h2.1)]
          exact ih _ _ h1.2 h2.2
      simp only [scan, hunt_start d2, if_true, List.drop_one, List.tail_cons, key t [] _ h2 h3]

/-- Everything draining a buffer does, for calls enough. -/
theorem State.drain_spec (n : Nat) (s : State) (hn : s.rxbuf.length < n) :
    (State.drain n s).1 = (streamRun s.cfg .hunt s.rxbuf).2 ∧ (State.drain n s).2.cfg = s.cfg ∧
    settled s.cfg (State.drain n s).2.rxbuf ∧
    streamRun s.cfg .hunt (State.drain n s).2.rxbuf = ((streamRun s.cfg .hunt s.rxbuf).1, []) ∧
    (((State.drain n s).2.events.map Event.garbageBytes).sum =
        (s.events.map Event.garbageBytes).sum + streamGarbage s.cfg .hunt s.rxbuf) ∧
    streamGarbage s.cfg .hunt (State.drain n s).2.rxbuf = 0 ∧ (∃ pre, s.rxbuf = pre ++ (State.drain n s).2.rxbuf) := by
  induction n generalizing s with
  | zero => omega
  | succ n ih =>
    unfold State.drain
    rw [State.tryDecode_result]
    cases hk : (scan s.cfg s.rxbuf).frame with
    | none =>
      obtain ⟨h1, h2, h3, h4, h5, h6⟩ := scan_none _ _ hk
      simp only [scanResult, hk]
      refine ⟨h4.symm, rfl, by simpa using h1, ?_, ?_, by simpa using h6, by simpa using h2⟩
      · rw [State.tryDecode_rxbuf, ← h3, ← h4]
      · rw [State.tryDecode_events, List.map_append, List.sum_append, scanEvents_garbage, h5]
    | some body =>
      obtain ⟨pre, h1, h2, h3, h4⟩ := scan_frame _ _ _ hk
      simp only [scanResult, hk]
      have hrx : s.tryDecode.rxbuf = (scan s.cfg s.rxbuf).rest := by simp
      have hlen : s.tryDecode.rxbuf.length < n := by
        have := congrArg List.length h1
        rw [List.length_append] at this
        rw [hrx]; omega
      obtain ⟨i1, i2, i3, i4, i5, i6, i7, i8⟩ := ih s.tryDecode hlen
      have hs : streamRun s.cfg .hunt s.rxbuf = ((streamRun s.cfg .hunt s.tryDecode.rxbuf).1,
          body :: (streamRun s.cfg .hunt s.tryDecode.rxbuf).2) := by
        conv_lhs => rw [h1, streamRun_append, h3]
        rw [hrx]; rfl
      have hg : streamGarbage s.cfg .hunt s.rxbuf = (scan s.cfg s.rxbuf).garbage + streamGarbage s.cfg .hunt
          s.tryDecode.rxbuf := by
        conv_lhs => rw [h1, streamGarbage_append, h3, h4]
        rw [hrx]
      simp only [State.tryDecode_cfg] at i1 i2 i3 i4 i5 i6
      refine ⟨by rw [hs, i1], i2, i3, by rw [i4, hs], ?_, i6, ?_⟩
      · rw [i5, hg, State.tryDecode_events, List.map_append, List.sum_append, scanEvents_garbage]; omega
      · exact ⟨pre ++ i7, by rw [List.append_assoc, ← i8, hrx]; exact h1⟩

/-- Everything feeding a stream in batches does. -/
theorem State.feed_spec (batches : List Bytes) (s : State) (h0 : (streamRun s.cfg .hunt s.rxbuf).2 = [] ∧
    streamGarbage s.cfg .hunt s.rxbuf = 0) (hset : settled s.cfg s.rxbuf) :
    (s.feed batches).1 = (streamRun s.cfg .hunt (s.rxbuf ++ batches.flatten)).2 ∧
    (s.feed batches).2.cfg = s.cfg ∧ settled s.cfg (s.feed batches).2.rxbuf ∧
    streamRun s.cfg .hunt (s.feed batches).2.rxbuf = ((streamRun s.cfg .hunt (s.rxbuf ++ batches.flatten)).1, []) ∧
    (((s.feed batches).2.events.map Event.garbageBytes).sum =
        (s.events.map Event.garbageBytes).sum + streamGarbage s.cfg .hunt (s.rxbuf ++ batches.flatten)) ∧
    (∃ pre, s.rxbuf ++ batches.flatten = pre ++ (s.feed batches).2.rxbuf) := by
  induction batches generalizing s with
  | nil =>
    simp only [State.feed, List.flatten_nil, List.append_nil]
    exact ⟨h0.1.symm, trivial, hset, by rw [← h0.1], by rw [h0.2, Nat.add_zero], [], rfl⟩
  | cons x xs ih =>
    obtain ⟨i1, i2, i3, i4, i5, i6, i7, i8⟩ := State.drain_spec ((s.rxbuf ++ x).length + 1) ({ s with rxbuf :=
        s.rxbuf ++ x } : State) (by simp)
    simp only [State.feed]
    generalize hd : State.drain ((s.rxbuf ++ x).length + 1) ({ s with rxbuf := s.rxbuf ++ x } : State) = d at *
    obtain ⟨j1, j2, j3, j4, j5, j6, j7⟩ := ih d.2 ⟨by rw [i2, i4], by rw [i2]; exact i6⟩ (by rw [i2]; exact i3)
    simp only [i2] at j1 j2 j3 j4 j5 i1 i3 i4 i5 i6
    have e : streamRun s.cfg .hunt (s.rxbuf ++ (x :: xs).flatten) =
        ((streamRun s.cfg .hunt (d.2.rxbuf ++ xs.flatten)).1,
        d.1 ++ (streamRun s.cfg .hunt (d.2.rxbuf ++ xs.flatten)).2) := by
      rw [List.flatten_cons, ← List.append_assoc, streamRun_append, streamRun_append s.cfg .hunt d.2.rxbuf, i4, i1]
      simp
    have eg : streamGarbage s.cfg .hunt (s.rxbuf ++ (x :: xs).flatten) =
        streamGarbage s.cfg .hunt (s.rxbuf ++ x) + streamGarbage s.cfg .hunt (d.2.rxbuf ++ xs.flatten) := by
      rw [List.flatten_cons, ← List.append_assoc, streamGarbage_append, streamGarbage_append s.cfg .hunt d.2.rxbuf,
          i4, i6]
      simp
    refine ⟨by rw [e, j1], j2, j3, by rw [e, j4], by rw [j5, eg, i5]; omega, i7 ++ j6, ?_⟩
    rw [List.flatten_cons, ← List.append_assoc, List.append_assoc i7, ← j7, ← List.append_assoc]
    congr 1

/-- What the machine collects over an open body does not depend on what it has collected before. -/
theorem streamRun_openBody_acc (c : Cfg) (l : Bytes) (h : openBody c l) :
    ∃ m, (∀ a, streamRun c (.collect a) l = (.collect (a ++ m), [])) ∨
        (∀ a, streamRun c (.collect a) l = (.collectEsc (a ++ m), [])) := by
  induction l using unescaped.induct (c := c) with
  | case1 => exact ⟨[], .inl fun a => by simp [streamRun]⟩
  | case2 => exact ⟨[], .inr fun a => by simp [streamRun, streamByte]⟩
  | case3 b hb =>
    simp only [openBody, unescaped, if_neg hb, List.mem_singleton] at h
    exact ⟨[b], .inl fun a => by simp [streamRun, streamByte, hb, Ne.symm h.1, Ne.symm h.2]⟩
  | case4 x t ih =>
    have h' : openBody c t := by simpa [openBody, unescaped] using h
    obtain ⟨m, h1 | h1⟩ := ih h'
    · exact ⟨x :: m, .inl fun a => by simp [streamRun_cons, streamByte, h1]⟩
    · exact ⟨x :: m, .inr fun a => by simp [streamRun_cons, streamByte, h1]⟩
  | case5 b x t hb ih =>
    simp only [openBody, unescaped, if_neg hb, List.mem_cons, not_or] at h
    obtain ⟨m, h1 | h1⟩ := ih ⟨h.1.2, h.2.2⟩
    · refine ⟨b :: m, .inl fun a => ?_⟩
      have : streamByte c (.collect a) b = (.collect (a ++ [b]), none) :=
          by simp [streamByte, hb, Ne.symm h.1.1, Ne.symm h.2.1]
      rw [streamRun_cons, this, h1]; simp
    · refine ⟨b :: m, .inr fun a => ?_⟩
      have : streamByte c (.collect a) b = (.collect (a ++ [b]), none) :=
          by simp [streamByte, hb, Ne.symm h.1.1, Ne.symm h.2.1]
      rw [streamRun_cons, this, h1]; simp

/-- A `START` inside an open body is escaped, so what follows it is open too. -/
theorem inner_start {c : Cfg} (d : c.start ≠ c.escape) (w u : Bytes) (a : Bytes) (h : openBody c (w ++ c.start :: u)) :
    openBody c u ∧ ∃ a', a' ≠ [] ∧ (streamRun c (.collect a) (w ++ c.start :: u)) = (streamRun c (.collect a') u) := by
  have hstart : ∀ u, c.start ∈ unescaped c (c.start :: u) := by
    intro u; cases u <;> simp [unescaped, d]
  induction w using unescaped.induct (c := c) generalizing a with
  | case1 => exact absurd (hstart u) h.1
  | case2 =>
    have h' : openBody c u := by simpa [openBody, unescaped] using h
    exact ⟨h', a ++ [c.start], by simp, by simp [streamRun_cons, streamByte]⟩
  | case3 b hb =>
    simp only [openBody, List.cons_append, List.nil_append, unescaped, if_neg hb, List.mem_cons, not_or] at h
    exact absurd (hstart u) h.1.2
  | case4 x t ih =>
    have h' : openBody c (t ++ c.start :: u) := by simpa [openBody, unescaped] using h
    obtain ⟨i1, a', i2, i3⟩ := ih (a ++ [x]) h'
    exact ⟨i1, a', i2, by simp [streamRun_cons, streamByte, i3]⟩
  | case5 b x t hb ih =>
    have h2 := h
    simp only [openBody, List.cons_append, unescaped, if_neg hb, List.mem_cons, not_or] at h2
    obtain ⟨i1, a', i2, i3⟩ := ih (a ++ [b]) ⟨h2.1.2, h2.2.2⟩
    refine ⟨i1, a', i2, ?_⟩
    have : streamByte c (.collect a) b = (.collect (a ++ [b]), none) :=
        by simp [streamByte, hb, Ne.symm h2.1.1, Ne.symm h2.2.1]
    rw [List.cons_append, streamRun_cons, this, i3]; simp

/-- The collect phase over an open body and one byte more. -/
theorem collect_openBody_snoc {c : Cfg} (cur u : Bytes) (b : Byte) (acc : Bytes) (h : openBody c u) :
    (∃ m, (∀ a, streamRun c (.collect a) u = (.collect (a ++ m), [])) ∧ collect c cur (u ++ [b]) acc =
       if b = c.escape then ⟨0, none, cur⟩ else if b = c.stop then ⟨0, some (acc ++ m), []⟩ else if b =
           c.start then ⟨1, none, [b]⟩ else ⟨0, none, cur⟩) ∨
    (∃ m, (∀ a, streamRun c (.collect a) u = (.collectEsc (a ++ m), [])) ∧
        collect c cur (u ++ [b]) acc = ⟨0, none, cur⟩) := by
  induction u using unescaped.induct (c := c) generalizing acc with
  | case1 => exact .inl ⟨[], fun a => by simp [streamRun], by simp [collect]⟩
  | case2 => exact .inr ⟨[], fun a => by simp [streamRun, streamByte], by simp [collect]⟩
  | case3 x hx =>
    simp only [openBody, unescaped, if_neg hx, List.mem_singleton] at h
    refine .inl ⟨[x], fun a => by simp [streamRun, streamByte, hx, Ne.symm h.1, Ne.symm h.2], ?_⟩
    simp [collect, hx, Ne.symm h.1, Ne.symm h.2]
  | case4 x t ih =>
    have h' : openBody c t := by simpa [openBody, unescaped] using h
    rcases ih (acc ++ [x]) h' with ⟨m, h1, h2⟩ | ⟨m, h1, h2⟩
    · refine .inl ⟨x :: m, fun a => by simp [streamRun_cons, streamByte, h1], ?_⟩
      rw [List.cons_append, List.cons_append, collect_escape, h2]; simp
    · refine .inr ⟨x :: m, fun a => by simp [streamRun_cons, streamByte, h1], ?_⟩
      rw [List.cons_append, List.cons_append, collect_escape, h2]
  | case5 y x t hb ih =>
    simp only [openBody, unescaped, if_neg hb, List.mem_cons, not_or] at h
    have e : ∀ a, streamByte c (.collect a) y = (.collect (a ++ [y]), none) := fun a =>
        by simp [streamByte, hb, Ne.symm h.1.1, Ne.symm h.2.1]
    have r : c.isReserved y = false := by simp [Cfg.isReserved, hb, Ne.symm h.1.1, Ne.symm h.2.1]
    rcases ih (acc ++ [y]) ⟨h.1.2, h.2.2⟩ with ⟨m, h1, h2⟩ | ⟨m, h1, h2⟩
    · refine .inl ⟨y :: m, fun a => by rw [streamRun_cons, e, h1]; simp, ?_⟩
      rw [List.cons_append, collect_literal r, h2]; simp
    · refine .inr ⟨y :: m, fun a => by rw [streamRun_cons, e, h1]; simp, ?_⟩
      rw [List.cons_append, collect_literal r, h2]

end Sys2Proof.Machine
end

