-- ==== Sys2Proof/Laws/Phases.lean ====
section
/-! SUPPORT. What the parts of an operation leave unchanged, and the decode loop as a fold over the frames of
the stream. -/

namespace Sys2Proof.Machine

/-- The fields ON_TICK never writes. -/
theorem onTick_frame {s t : State} {now : Nat} (h : s.onTick now = .ok t) :
    t = { s with tx := t.tx, events := t.events, pendingTimestamp := t.pendingTimestamp } := by
  rcases onTick_eq_ok.1 h with ⟨-, rfl⟩ | ⟨-, -, ⟨-, rfl⟩ | ⟨-, rfl⟩⟩ <;> rfl

/-- The fields SUBMIT never writes. -/
theorem submit_frame (s : State) (p : Bytes) (now : Nat) : s.submit p now = { s with
    tx := (s.submit p now).tx, events := (s.submit p now).events, pendingTimestamp := (s.submit p now).pendingTimestamp
    pendingFrame := (s.submit p now).pendingFrame, sendState := (s.submit p now).sendState, result :=
        (s.submit p now).result } := by
  cases hs : s.sendState with
  | idle => rw [submit_idle hs]
  | awaitingAck => rw [submit_awaiting hs]; rfl

/-- The fields phase 3 never writes. -/
theorem decodeLoop_frame (n : Nat) (s : State) :
    (decodeLoop n s).fault = s.fault ∧ (decodeLoop n s).txq = s.txq ∧ (decodeLoop n s).cfg = s.cfg ∧
        (decodeLoop n s).degMax = s.degMax
     ∧ (decodeLoop n s).inbox = s.inbox :=
  decodeLoop_keeps (P := fun t => t.fault = s.fault ∧ t.txq = s.txq ∧ t.cfg = s.cfg ∧ t.degMax = s.degMax ∧
      t.inbox = s.inbox)
    (fun t h => h) (fun t raw h => by simpa using h) n s ⟨rfl, rfl, rfl, rfl, rfl⟩

/-- Four fields CYCLE never writes. -/
theorem cycle_frame {s t : State} {now rx} (h : s.cycle now rx = .ok t) :
    t.fault = s.fault ∧ t.cfg = s.cfg ∧ t.degMax = s.degMax ∧ t.inbox = s.inbox := by
  obtain ⟨-, a, b, ha, hb, rfl⟩ := cycle_eq_ok.1 h
  rw [onTick_frame ha] at hb
  obtain ⟨-, rfl⟩ := bufAppend_eq_ok.1 hb
  obtain ⟨h1, h2, h3, h4, h5⟩ := decodeLoop_frame (((s.rxbuf ++ rx).length + 1))
    ({ s with rxbuf := s.rxbuf ++ rx, tx := a.tx, events := a.events, pendingTimestamp := a.pendingTimestamp })
  change State.fault (State.phase3 _) = _ at h1
  change State.cfg (State.phase3 _) = _ at h3
  change State.degMax (State.phase3 _) = _ at h4
  change State.inbox (State.phase3 _) = _ at h5
  generalize State.phase3
    { s with rxbuf := s.rxbuf ++ rx, tx := a.tx, events := a.events, pendingTimestamp := a.pendingTimestamp } = w at *
  rcases phase4_cases w now with ⟨p, q, -, -, h⟩ | ⟨-, h⟩
  · rw [h, submit_frame]; exact ⟨h1, h3, h4, h5⟩
  · rw [h]; exact ⟨h1, h3, h4, h5⟩

/-- What no instruction but RESET writes (R28, R220). -/
theorem exec_const {i : Instr} {s t : State} (hi : ∀ cfg, i ≠ .reset cfg) (h : exec i s = .next t) :
    t.fault = s.fault ∧ t.cfg = s.cfg ∧ t.degMax = s.degMax ∧ t.inbox = s.inbox := by
  rcases exec_next_cases h with ⟨cfg, rfl, -⟩ | ⟨-, -, ⟨h, -⟩ | ⟨p, -, -, -, rfl⟩ | ⟨now, rx, -, h⟩ | ⟨b, -, -,
      rfl⟩ | ⟨p, now, -, -, rfl⟩ | ⟨raw, -, rfl⟩ | ⟨now, -, h⟩⟩
  · exact absurd rfl (hi cfg)
  · rw [h]; exact ⟨rfl, rfl, rfl, rfl⟩
  · exact ⟨rfl, rfl, rfl, rfl⟩
  · exact cycle_frame (s := s.begin) h
  · exact ⟨rfl, rfl, rfl, rfl⟩
  · rw [submit_frame]; exact ⟨rfl, rfl, rfl, rfl⟩
  · simp
  · rw [onTick_frame h]; exact ⟨rfl, rfl, rfl, rfl⟩

/-- A body that does not verify is dropped (R143). -/
theorem onFrameReceived_of_verify_false {s : State} {raw : Bytes} (h : verify s.cfg raw = false) :
    s.onFrameReceived raw = s.event .dropChecksum := by
  simp [State.onFrameReceived, h]

/-- A body made by APPEND_CHECKSUM is dispatched on its fields. -/
theorem onFrameReceived_appendChecksum {s : State} (hv : s.cfg.valid = true) (f q : Byte) (p : Bytes) :
    s.onFrameReceived (appendChecksum s.cfg ([f, q] ++ p)) = s.dispatchFrame f q p := by
  have h := verify_appendChecksum (Cfg.valid_codec hv) (bs := [f, q] ++ p) (by simp)
  obtain ⟨k, h1, h2⟩ := appendChecksum_eq_append s.cfg ([f, q] ++ p)
  rw [h1] at h ⊢
  have := onFrameReceived_body (s := s) (flag := f) (seq := q) (payload := p) (checksum := k) h2 (by simpa using h)
  simpa using this

/-- Handling frames leaves the configuration and the queue. -/
theorem foldl_onFrameReceived_frame (l : List Bytes) (u : State) : (l.foldl State.onFrameReceived u).cfg = u.cfg ∧
    (l.foldl State.onFrameReceived u).txq = u.txq := by
  induction l generalizing u with
  | nil => exact ⟨rfl, rfl⟩
  | cons x l ih => simp [ih]

/-- Phase 3 handles the frames of the stream in order; only the buffer, the result and the framer's own
events are its own (R175). -/
theorem decodeLoop_spec (n : Nat) : ∀ (u : State) (b : Bytes) (r : Result) (ev : List Event),
    b.length < n → ev.filter (fun e => !e.framing) = u.events →
    ∃ b' ev', decodeLoop n { u with rxbuf := b, result := r, events := ev } =
        { (streamRun u.cfg .hunt b).2.foldl State.onFrameReceived u with
          rxbuf := b'
          result := .incomplete
          events := ev' } ∧
      ev'.filter (fun e => !e.framing) = ((streamRun u.cfg .hunt b).2.foldl State.onFrameReceived u).events ∧
      settled u.cfg b' ∧ (∃ taken, b = taken ++ b') ∧ streamRun u.cfg .hunt b' = ((streamRun u.cfg .hunt b).1, []) := by
  induction n with
  | zero => intro _ b _ _ h; omega
  | succ n ih =>
    intro u b r ev hn hev
    rw [decodeLoop, State.tryDecode_eq]
    simp only
    cases hk : (scan u.cfg b).frame with
    | none =>
      obtain ⟨h1, h2, h3, h4, -⟩ := scan_none _ _ hk
      simp only [h4, List.foldl_nil, scanResult, hk]
      refine ⟨_, _, rfl, ?_, h1, h2, by rw [← h3, ← h4]⟩
      rw [List.filter_append, scanEvents_filter, List.append_nil, hev]
    | some body =>
      obtain ⟨pre, h1, h2, h3, -⟩ := scan_frame _ _ _ hk
      simp only [scanResult, hk]
      obtain ⟨l, hl, hadd⟩ := onFrameReceived_adds u body
      rw [hadd]
      have hlen : (scan u.cfg b).rest.length < n := by
        have := congrArg List.length h1; rw [List.length_append] at this; omega
      have hself : (u.onFrameReceived body).events = u.events ++ l := by
        have := congrArg State.events (hadd u.rxbuf u.result u.events)
        exact this
      obtain ⟨b', ev', i1, i2, i3, ⟨tk, i4⟩, i5⟩ := ih (u.onFrameReceived body) (scan u.cfg b).rest (.frame body)
          (ev ++ scanEvents (scan u.cfg b) ++ l) hlen (by
        rw [List.filter_append, List.filter_append, scanEvents_filter, List.append_nil, hev, hself,
            List.filter_eq_self.2]
        intro e he; simp [hl e he])
      have hcc := onFrameReceived_cfg u body
      rw [hcc] at i3 i5
      have i1' := i1
      have i2' := i2
      rw [show streamRun (u.onFrameReceived body).cfg .hunt (scan u.cfg b).rest =
          streamRun u.cfg .hunt (scan u.cfg b).rest by rw [hcc]] at i1' i2'
      have hs : streamRun u.cfg .hunt b = ((streamRun u.cfg .hunt (scan u.cfg b).rest).1,
          body :: (streamRun u.cfg .hunt (scan u.cfg b).rest).2) := by
        conv_lhs => rw [h1, streamRun_append, h3]
        rfl
      refine ⟨b', ev', ?_, ?_, i3, ⟨pre ++ tk, ?_⟩, ?_⟩
      · rw [hs, List.foldl_cons]; exact i1'
      · rw [hs, List.foldl_cons]; exact i2'
      · rw [List.append_assoc, ← i4]; exact h1
      · rw [i5, hs]

/-- Phase 3 with every event in its place: each frame the machine reports over the buffer is told of and
handled, and what is given up after the last is told of (R175, R177). -/
theorem decodeLoop_reports (n : Nat) (u : State) (b : Bytes) (r : Result) (hn : b.length < n) :
    let reported := framesReported u.cfg .hunt 0 0 b
    ∃ b', decodeLoop n { u with rxbuf := b, result := r } =
        { (reported.1.foldl State.receives u).reports reported.2.1 reported.2.2 with
          rxbuf := b'
          result := .incomplete } ∧
      settled u.cfg b' ∧ (∃ taken, b = taken ++ b') ∧ streamRun u.cfg .hunt b' = ((streamRun u.cfg .hunt b).1, []) := by
  intro reported
  induction n generalizing u b r with
  | zero => omega
  | succ n ih =>
    have hrep := scan_reports u.cfg b
    rw [decodeLoop, State.tryDecode_eq]
    simp only
    cases hk : (scan u.cfg b).frame with
    | none =>
      obtain ⟨h1, h2, h3, h4, -⟩ := scan_none _ _ hk
      rw [hk] at hrep
      simp only [reported, hrep, scanResult, hk]
      exact ⟨_, rfl, h1, h2, by rw [← h3, ← h4]⟩
    | some body =>
      obtain ⟨pre, h1, h2, h3, -⟩ := scan_frame _ _ _ hk
      rw [hk] at hrep
      simp only [reported, hrep, scanResult, hk, List.foldl_cons]
      obtain ⟨l, -, hadd⟩ := onFrameReceived_adds (u.reports (scan u.cfg b).garbage (scan u.cfg b).resyncs) body
      have hself := hadd (scan u.cfg b).rest (.frame body)
        (u.events ++ framingEvents (scan u.cfg b).garbage (scan u.cfg b).resyncs)
      have hlen : (scan u.cfg b).rest.length < n := by
        have := congrArg List.length h1; rw [List.length_append] at this; omega
      have hcc : (u.receives ⟨(scan u.cfg b).garbage, (scan u.cfg b).resyncs, body⟩).cfg = u.cfg :=
        onFrameReceived_cfg _ body
      obtain ⟨b', i1, i2, ⟨tk, i3⟩, i4⟩ := ih (u.receives ⟨(scan u.cfg b).garbage, (scan u.cfg b).resyncs, body⟩)
        (scan u.cfg b).rest (.frame body) hlen
      rw [hcc] at i2 i4
      rw [show framesReported (u.receives ⟨(scan u.cfg b).garbage, (scan u.cfg b).resyncs, body⟩).cfg .hunt 0 0
        (scan u.cfg b).rest = framesReported u.cfg .hunt 0 0 (scan u.cfg b).rest by rw [hcc]] at i1
      have hs : streamRun u.cfg .hunt b = ((streamRun u.cfg .hunt (scan u.cfg b).rest).1,
          body :: (streamRun u.cfg .hunt (scan u.cfg b).rest).2) := by
        conv_lhs => rw [h1, streamRun_append, h3]
        rfl
      refine ⟨b', ?_, i2, ⟨pre ++ tk, ?_⟩, by rw [i4, hs]⟩
      · rw [← i1]
        congr 1
        refine hself.trans ?_
        have hev : (u.receives ⟨(scan u.cfg b).garbage, (scan u.cfg b).resyncs, body⟩).events =
            u.events ++ framingEvents (scan u.cfg b).garbage (scan u.cfg b).resyncs ++ l :=
          congrArg State.events (hadd u.rxbuf u.result _)
        rw [← hev]
        rfl
      · rw [List.append_assoc, ← i3]; exact h1

end Sys2Proof.Machine
end

