-- ==== Sys2Proof/Laws/Link.lean ====
section
/-! SUPPORT. The messages of a link and the invariant of one direction of it, kept by every single thing that
can happen: a loss, a data frame received, an acknowledgment received, a retransmission, a start, a SEND. -/

namespace Sys2Proof.Machine

/-! ## messages -/

/-- What an endpoint puts on the medium. -/
inductive Msg where
  | data (seq : Byte) (payload : Bytes)
  | ack (seq : Byte)

/-- The body of a message (R75, R80). -/
def Msg.body (c : Cfg) : Msg → Bytes
  | .data seq payload => appendChecksum c ([0x00, seq] ++ payload)
  | .ack seq => appendChecksum c [0x01, seq]

/-- The wire frame of a message (R89). -/
def Msg.wire (c : Cfg) (m : Msg) : Bytes := encodeFrame c (m.body c)

/-- The data among messages. -/
def Msg.data? : Msg → Option (Byte × Bytes)
  | .data seq payload => some (seq, payload)
  | .ack _ => none

/-- The acknowledgments among messages. -/
def Msg.ack? : Msg → Option Byte
  | .ack seq => some seq
  | .data _ _ => none

/-- The bodies in a stream of wire frames. -/
theorem bodiesOf_wire {c : Cfg} (hd : c.reservedDistinct = true) (ms : List Msg) :
    streamRun c .hunt (ms.flatMap (Msg.wire c)) = (.hunt, ms.map (Msg.body c)) := by
  induction ms with
  | nil => rfl
  | cons m ms ih =>
    rw [List.flatMap_cons, streamRun_append, Msg.wire, streamRun_encodeFrame hd, ih]
    rfl

/-- Every message verifies. -/
theorem verify_msg {c : Cfg} (hv : c.valid = true) (m : Msg) : verify c (m.body c) = true := by
  cases m <;> exact verify_appendChecksum (Cfg.valid_codec hv) (by simp)

/-- What ON_FRAME_RECEIVED does with the body of a message. -/
theorem onFrameReceived_msg {u : State} (hv : u.cfg.valid = true) (m : Msg) :
    u.onFrameReceived (m.body u.cfg) = match m with
      | .data seq p => if seq.toNat < u.cfg.seqMod then u.dataArm seq p else u.event .dropReserved
      | .ack seq => u.ackArm seq := by
  cases m with
  | data seq p =>
    simp only [Msg.body]
    rw [onFrameReceived_appendChecksum hv, State.dispatchFrame, if_neg (by decide)]
    simp
  | ack seq =>
    have := onFrameReceived_appendChecksum hv 1 seq []
    rw [List.append_nil] at this
    simp only [Msg.body]
    rw [this, State.dispatchFrame, if_pos rfl]

/-! ## sequence numbers -/

/-- `earlier` on integers (R149). -/
theorem earlier_iff {c : Cfg} {s e : Byte} (hs : s.toNat < c.seqMod) : earlier c s e = true ↔
   1 ≤ ((e.toNat : Int) - s.toNat) % c.seqMod ∧ ((e.toNat : Int) - s.toNat) % c.seqMod ≤ c.seqMod / 2 := by
  rw [← seqDist_eq_emod hs]
  simp only [earlier, Bool.and_eq_true, decide_eq_true_eq]
  omega

/-- The next number is another one. -/
theorem nextSeq_ne {c : Cfg} (hN : 2 ≤ c.seqMod ∧ c.seqMod ≤ 256) {s : Byte} (hs : s.toNat < c.seqMod) :
    nextSeq c s ≠ s := by
  intro h
  have := congrArg BitVec.toNat h
  rw [nextSeq_toNat (by omega)] at this
  rcases Nat.lt_or_ge (s.toNat + 1) c.seqMod with h1 | h1
  · rw [Nat.mod_eq_of_lt h1] at this; omega
  · have h2 : s.toNat + 1 = c.seqMod := by omega
    rw [h2, Nat.mod_self] at this; omega

/-- The next number is below `N`. -/
theorem nextSeq_lt {c : Cfg} (hN : 2 ≤ c.seqMod ∧ c.seqMod ≤ 256) (s : Byte) : (nextSeq c s).toNat < c.seqMod := by
  rw [nextSeq_toNat (by omega)]; exact Nat.mod_lt _ (by omega)

/-- A number is earlier than the next one (R149). -/
theorem earlier_prev {c : Cfg} (hN : 2 ≤ c.seqMod ∧ c.seqMod ≤ 256) {s : Byte} (hs : s.toNat < c.seqMod) :
    earlier c s (nextSeq c s) = true := by
  rw [earlier_iff hs, nextSeq_toNat (by omega)]
  have : ((((s.toNat + 1) % c.seqMod : Nat) : Int) - s.toNat) % c.seqMod = 1 := by
    rw [Int.natCast_mod, Int.emod_sub_emod]
    push_cast
    rw [show ((s.toNat : Int) + 1 - s.toNat) = 1 by ring]
    exact Int.emod_eq_of_lt (by omega) (by omega)
  rw [this]; constructor <;> omega

/-! ## one direction -/

/-- The invariant of one direction of a link: `st`, `s`, `pf`, `q` are the sender's state, number, pending frame
and queue, `e` the number the receiver expects, `D` the data and `K` the acknowledgments on their way, `acc` the
payloads accepted, `del` the payloads delivered. Either the sender is idle and the receiver expects its number;
or a payload is outstanding and not delivered; or it is delivered and not acknowledged. -/
def OneWay (c : Cfg) (st : SendState) (s : Byte) (pf : Bytes) (q : List Bytes) (e : Byte) (D : List (Byte × Bytes))
    (K : List Byte) (acc del : List Bytes) : Prop :=
  s.toNat < c.seqMod ∧ (∀ d ∈ D, d.1.toNat < c.seqMod) ∧
  ((st = .idle ∧ e = s ∧ acc = del ++ q ∧ (∀ d ∈ D, nextSeq c d.1 = s) ∧ (∀ k ∈ K, nextSeq c k = s)) ∨
   (st = .awaitingAck ∧ e = s ∧ ∃ p, pf = dataFrame c s p ∧ acc = del ++ p :: q ∧
      (∃ D1 D2, D = D1 ++ D2 ∧ (∀ d ∈ D1, nextSeq c d.1 = s) ∧ ∀ d ∈ D2, d = (s, p)) ∧ ∀ k ∈ K, nextSeq c k = s) ∨
   (st = .awaitingAck ∧ e = nextSeq c s ∧ (∃ p, pf = dataFrame c s p) ∧ acc = del ++ q ∧ (∀ d ∈ D, d.1 = s) ∧
      ∃ K1 K2, K = K1 ++ K2 ∧ (∀ k ∈ K1, nextSeq c k = s) ∧ ∀ k ∈ K2, k = s))

section
variable {c : Cfg} {st : SendState} {s : Byte} {pf : Bytes} {q : List Bytes} {e : Byte} {D : List (Byte × Bytes)}
  {K : List Byte} {acc del : List Bytes}

/-- Data may be lost. -/
theorem OneWay.lose_data (h : OneWay c st s pf q e D K acc del) {D' : List (Byte × Bytes)} (hs : D'.Sublist D) :
    OneWay c st s pf q e D' K acc del := by
  obtain ⟨h1, h2, h3⟩ := h
  refine ⟨h1, fun d hd => h2 d (hs.subset hd), ?_⟩
  rcases h3 with ⟨a1, a2, a3, a4, a5⟩ | ⟨a1, a2, p, a3, a4, ⟨D1, D2, rfl, a5, a6⟩, a7⟩ | ⟨a1, a2, a3, a4, a5, a6⟩
  · exact .inl ⟨a1, a2, a3, fun d hd => a4 d (hs.subset hd), a5⟩
  · obtain ⟨E1, E2, rfl, e1, e2⟩ := List.sublist_append_iff.1 hs
    exact .inr (.inl ⟨a1, a2, p, a3, a4, ⟨E1, E2, rfl, fun d hd => a5 d (e1.subset hd), fun d hd =>
        a6 d (e2.subset hd)⟩, a7⟩)
  · exact .inr (.inr ⟨a1, a2, a3, a4, fun d hd => a5 d (hs.subset hd), a6⟩)

/-- Acknowledgments may be lost. -/
theorem OneWay.lose_acks (h : OneWay c st s pf q e D K acc del) {K' : List Byte} (hs : K'.Sublist K) :
    OneWay c st s pf q e D K' acc del := by
  obtain ⟨h1, h2, h3⟩ := h
  refine ⟨h1, h2, ?_⟩
  rcases h3 with ⟨a1, a2, a3, a4, a5⟩ | ⟨a1, a2, p, a3, a4, a5, a7⟩ | ⟨a1, a2, a3, a4, a5, K1, K2, rfl, a6, a7⟩
  · exact .inl ⟨a1, a2, a3, a4, fun d hd => a5 d (hs.subset hd)⟩
  · exact .inr (.inl ⟨a1, a2, p, a3, a4, a5, fun d hd => a7 d (hs.subset hd)⟩)
  · obtain ⟨E1, E2, rfl, e1, e2⟩ := List.sublist_append_iff.1 hs
    exact .inr (.inr ⟨a1, a2, a3, a4, a5, E1, E2, rfl, fun d hd => a6 d (e1.subset hd), fun d hd =>
        a7 d (e2.subset hd)⟩)

/-- The receiver takes the oldest data message: it delivers it, or it is a duplicate. -/
theorem OneWay.receive_data (hN : 2 ≤ c.seqMod ∧ c.seqMod ≤ 256) {r : Byte} {p : Bytes} (h : OneWay c st s pf q e
    ((r, p) :: D) K acc del) :
    (r = e ∧ OneWay c st s pf q (nextSeq c e) D (K ++ [r]) acc (del ++ [p])) ∨ (r ≠ e ∧ earlier c r e = true ∧
        OneWay c st s pf q e D (K ++ [r]) acc del) := by
  obtain ⟨h1, h2, h3⟩ := h
  have hr := h2 (r, p) (by simp)
  have h2' : ∀ d ∈ D, d.1.toNat < c.seqMod := fun d hd => h2 d (List.mem_cons_of_mem _ hd)
  have dup : nextSeq c r = e → r ≠ e ∧ earlier c r e = true := by
    rintro rfl; exact ⟨fun h => nextSeq_ne hN hr h.symm, earlier_prev hN hr⟩
  rcases h3 with ⟨a1, a2, a3, a4, a5⟩ | ⟨a1, a2, p', a3, a4, ⟨D1, D2, hD, a5, a6⟩, a7⟩ | ⟨a1, a2, a3, a4, a5, K1, K2,
      rfl, a6, a7⟩
  · have hh := a4 (r, p) (by simp)
    have hd := dup (by rw [a2]; exact hh)
    refine .inr ⟨hd.1, hd.2, h1, h2', .inl ⟨a1, a2, a3, fun d hd => a4 d (List.mem_cons_of_mem _ hd), fun k hk => ?_⟩⟩
    rcases List.mem_append.1 hk with hk | hk
    · exact a5 k hk
    · rw [List.mem_singleton.1 hk]; exact hh
  · cases D1 with
    | cons d D1 =>
      obtain ⟨rfl, rfl⟩ := List.cons.inj hD
      have hh := a5 (r, p) (by simp)
      have hd := dup (by rw [a2]; exact hh)
      refine .inr ⟨hd.1, hd.2, h1, h2', .inr (.inl ⟨a1, a2, p', a3, a4, ⟨D1, D2, rfl, fun d hd =>
          a5 d (List.mem_cons_of_mem _ hd), a6⟩, fun k hk => ?_⟩)⟩
      rcases List.mem_append.1 hk with hk | hk
      · exact a7 k hk
      · rw [List.mem_singleton.1 hk]; exact hh
    | nil =>
      rw [List.nil_append] at hD
      subst hD
      obtain ⟨rfl, rfl⟩ := Prod.mk.inj (a6 (r, p) (by simp))
      refine .inl ⟨a2.symm, h1, h2', .inr (.inr ⟨a1, by rw [a2], ⟨_, a3⟩, by rw [a4]; simp, fun d hd =>
          by rw [a6 d (List.mem_cons_of_mem _ hd)], K, [r], rfl, a7, by simp⟩)⟩
  · have hh := a5 (r, p) (by simp)
    simp only at hh
    subst hh
    have hd := dup a2.symm
    refine .inr ⟨hd.1, hd.2, h1, h2', .inr (.inr ⟨a1, a2, a3, a4, fun d hd =>
        a5 d (List.mem_cons_of_mem _ hd), K1, K2 ++ [r], by simp, a6, ?_⟩)⟩
    intro k hk
    rcases List.mem_append.1 hk with hk | hk
    · exact a7 k hk
    · exact List.mem_singleton.1 hk

/-- The sender takes the oldest acknowledgment. -/
theorem OneWay.receive_ack (hN : 2 ≤ c.seqMod ∧ c.seqMod ≤ 256) {k : Byte} (h : OneWay c st s pf q e D (k :: K) acc
    del) :
    ((st = .awaitingAck ∧ k = s) ∧ ∀ pf', OneWay c .idle (nextSeq c s) pf' q e D K acc del) ∨ (¬(st = .awaitingAck ∧
        k = s) ∧ OneWay c st s pf q e D K acc del) := by
  have hsub := h.lose_acks (List.sublist_cons_self k K)
  by_cases hk : st = .awaitingAck ∧ k = s
  · left
    refine ⟨hk, fun pf' => ?_⟩
    obtain ⟨h1, h2, h3⟩ := h
    have hne : nextSeq c k ≠ s := by rw [hk.2]; exact nextSeq_ne hN h1
    rcases h3 with ⟨a1, a2, a3, a4, a5⟩ | ⟨a1, a2, p', a3, a4, a5, a7⟩ | ⟨a1, a2, a3, a4, a5, K1, K2, hK, a6, a7⟩
    · exact absurd (a5 k (by simp)) hne
    · exact absurd (a7 k (by simp)) hne
    · cases K1 with
      | cons k' K1 =>
        obtain ⟨rfl, rfl⟩ := List.cons.inj hK
        exact absurd (a6 k (by simp)) hne
      | nil =>
        rw [List.nil_append] at hK
        subst hK
        refine ⟨nextSeq_lt hN _, h2, .inl ⟨rfl, a2, a4, fun d hd => by rw [a5 d hd], fun k' hk' =>
            by rw [a7 k' (List.mem_cons_of_mem _ hk')]⟩⟩
  · exact .inr ⟨hk, hsub⟩

/-- The sender sends its pending frame again. -/
theorem OneWay.retransmit (h : OneWay c .awaitingAck s pf q e D K acc del) : ∃ p, pf = dataFrame c s p ∧
    OneWay c .awaitingAck s pf q e (D ++ [(s, p)]) K acc del := by
  obtain ⟨h1, h2, h3⟩ := h
  have h2' : ∀ p, ∀ d ∈ D ++ [(s, p)], d.1.toNat < c.seqMod := by
    intro p d hd
    rcases List.mem_append.1 hd with hd | hd
    · exact h2 d hd
    · rw [List.mem_singleton.1 hd]; exact h1
  rcases h3 with ⟨a1, -⟩ | ⟨a1, a2, p, a3, a4, ⟨D1, D2, rfl, a5, a6⟩, a7⟩ | ⟨a1, a2, ⟨p, a3⟩, a4, a5, a6⟩
  · cases a1
  · refine ⟨p, a3, h1, h2' p, .inr (.inl ⟨a1, a2, p, a3, a4, ⟨D1, D2 ++ [(s, p)], by simp, a5, ?_⟩, a7⟩)⟩
    intro d hd
    rcases List.mem_append.1 hd with hd | hd
    · exact a6 d hd
    · exact List.mem_singleton.1 hd
  · refine ⟨p, a3, h1, h2' p, .inr (.inr ⟨a1, a2, ⟨p, a3⟩, a4, ?_, a6⟩)⟩
    intro d hd
    rcases List.mem_append.1 hd with hd | hd
    · exact a5 d hd
    · rw [List.mem_singleton.1 hd]

/-- The sender starts the next payload. -/
theorem OneWay.start {p : Bytes} (h : OneWay c .idle s pf (p :: q) e D K acc del) :
    OneWay c .awaitingAck s (dataFrame c s p) q e (D ++ [(s, p)]) K acc del := by
  obtain ⟨h1, h2, h3⟩ := h
  rcases h3 with ⟨a1, a2, a3, a4, a5⟩ | ⟨a1, -⟩ | ⟨a1, -⟩
  · refine ⟨h1, ?_, .inr (.inl ⟨rfl, a2, p, rfl, a3, ⟨D, [(s, p)], rfl, a4, by simp⟩, a5⟩)⟩
    intro d hd
    rcases List.mem_append.1 hd with hd | hd
    · exact h2 d hd
    · rw [List.mem_singleton.1 hd]; exact h1
  · cases a1
  · cases a1

/-- A SEND accepted. -/
theorem OneWay.push (h : OneWay c st s pf q e D K acc del) (p : Bytes) :
    OneWay c st s pf (q ++ [p]) e D K (acc ++ [p]) del := by
  obtain ⟨h1, h2, h3⟩ := h
  refine ⟨h1, h2, ?_⟩
  rcases h3 with ⟨a1, a2, a3, a4⟩ | ⟨a1, a2, p', a3, a4, a5⟩ | ⟨a1, a2, a3, a4, a5⟩
  · exact .inl ⟨a1, a2, by rw [a3, List.append_assoc], a4⟩
  · exact .inr (.inl ⟨a1, a2, p', a3, by rw [a4]; simp, a5⟩)
  · exact .inr (.inr ⟨a1, a2, a3, by rw [a4, List.append_assoc], a5⟩)

end

end Sys2Proof.Machine
end

