-- ==== Sys2Proof/Laws/PerInstr.lean ====
section
/-! SUPPORT. A statement about every instruction as syntax: what its request begins with. -/

/-- The request of an instruction begins as its layer asks (spec/30_encoding.md R87, R71, R75): a command with
an operation number below 12, a body with two header bytes at least. A byte of the wire layer and a builder
have nothing more to begin with. -/
def Sys2Proof.Laws.Head.Statement (i : Sys2Proof.Instr) : Prop :=
  ∀ c : Sys2Proof.Cfg,
    match Sys2Proof.encode c i with
    | .command bytes => ∃ number operands, bytes = number :: operands ∧ number.toNat < 12
    | .wire _ => True
    | .body raw => ∃ flag seq rest, raw = flag :: seq :: rest
    | .buildData _ _ => True
    | .buildAck _ => True

namespace Sys2Proof.Laws.Head

theorem reset (cfg : Cfg) : Statement (.reset cfg) := fun _ => ⟨_, _, rfl, by decide⟩

theorem send (payload : Bytes) : Statement (.send payload) := fun _ => ⟨_, _, rfl, by decide⟩

theorem cycle (now : Nat) (rx : Bytes) : Statement (.cycle now rx) := fun _ => ⟨_, _, rfl, by decide⟩

theorem parity (bytes : Bytes) : Statement (.parity bytes) := fun _ => ⟨_, _, rfl, by decide⟩

theorem crcRemainder (bytes : Bytes) (g : Nat) : Statement (.crcRemainder bytes g) := fun _ => ⟨_, _, rfl, by decide⟩

theorem appendChecksum (bytes : Bytes) : Statement (.appendChecksum bytes) := fun _ => ⟨_, _, rfl, by decide⟩

theorem verify (full : Bytes) : Statement (.verify full) := fun _ => ⟨_, _, rfl, by decide⟩

theorem encode (body : Bytes) : Statement (.encode body) := fun _ => ⟨_, _, rfl, by decide⟩

theorem tryDecode : Statement (.tryDecode) := fun _ => ⟨_, _, rfl, by decide⟩

theorem submit (payload : Bytes) (now : Nat) : Statement (.submit payload now) := fun _ => ⟨_, _, rfl, by decide⟩

theorem onFrameReceived (raw : Bytes) : Statement (.onFrameReceived raw) := fun _ => ⟨_, _, rfl, by decide⟩

theorem onTick (now : Nat) : Statement (.onTick now) := fun _ => ⟨_, _, rfl, by decide⟩

theorem start : Statement (.start) := fun _ => trivial

theorem stop : Statement (.stop) := fun _ => trivial

theorem escape : Statement (.escape) := fun _ => trivial

theorem literal (b : Byte) : Statement (.literal b) := fun _ => trivial

theorem data (seq : Byte) (payload : Bytes) (checksum : Bytes) : Statement (.data seq payload checksum) := fun _ =>
    ⟨_, _, _, rfl⟩

theorem ack (seq : Byte) (payload : Bytes) (checksum : Bytes) : Statement (.ack seq payload checksum) := fun _ =>
    ⟨_, _, _, rfl⟩

theorem reservedAckflag (flag : Byte) (seq : Byte) (payload : Bytes) (checksum : Bytes) :
    Statement (.reservedAckflag flag seq payload checksum) := fun _ => ⟨_, _, _, rfl⟩

theorem dataframe (s : Byte) (p : Bytes) : Statement (.dataframe s p) := fun _ => trivial

theorem ackframe (s : Byte) : Statement (.ackframe s) := fun _ => trivial

end Sys2Proof.Laws.Head
end

