-- ==== Sys2Proof/Tests/Slice0.lean ====
section
/-! SUPPORT. Tests. Expected values are those of spec/95_test_vectors.md, whose vector each test names, or
words written out from the encoding rules of spec/30_encoding.md. The last part shows, for every statement
with hypotheses, a concrete state and operands that meet them. -/

namespace Sys2Proof.Tests

open Sys2Proof Sys2Proof.Machine

/-! ## Small states -/

/-- The state after an operation that completes; the same state where it does not. -/
def after (i : Instr) (s : State) : State :=
  match exec i s with
  | .next t => t
  | _ => s

/-- The refusal of an operation, if it is refused. -/
def refusal? (i : Instr) (s : State) : Option Refusal :=
  match exec i s with
  | .refused r => some r
  | _ => none

/-- Whether an operation completes. -/
def completes (i : Instr) (s : State) : Bool :=
  match exec i s with
  | .next _ => true
  | _ => false

/-- The default configuration with the CRC codec. -/
def crcCfg (g : Nat) : Cfg := { Cfg.default with codec := .crc, g := g }

/-- An endpoint under a configuration. -/
def endpoint (c : Cfg) : State := { State.reset with cfg := c }

/-- An endpoint that awaits the acknowledgment of `seq`, sent at time `ts` with the payload 41. -/
def awaiting (c : Cfg) (seq : Byte) (ts : Nat) : State :=
  { endpoint c with
    sendState := .awaitingAck
    currentSendSeq := seq
    pendingFrame := dataFrame c seq [0x41]
    pendingTimestamp := ts }

/-- An endpoint with this receive buffer. -/
def holding (buf : Bytes) : State := { State.reset with rxbuf := buf }

/-- A faulted endpoint. -/
def faulted : State := { State.reset with fault := true }

/-! ## Ill-formed terms are refused -/

/-- R5: `TIME_W` is positive. -/
theorem test_wf_refuses_zero_time_width :
    (Instr.reset { Cfg.default with timeW := some 0 }).wf Cfg.default = false := by decide

/-- R105: the input is not empty. -/
theorem test_wf_refuses_empty_append : (Instr.appendChecksum []).wf Cfg.default = false := by decide

/-- R71: byte classes need distinct reserved bytes. -/
theorem test_wf_refuses_classes_not_distinct :
    Instr.start.wf { Cfg.default with stop := 0x7B } = false ∧
      Instr.stop.wf { Cfg.default with stop := 0x7B } = false ∧
      Instr.escape.wf { Cfg.default with escape := 0x7D } = false := by decide

/-- R71: a literal is no reserved byte. -/
theorem test_wf_refuses_reserved_literal :
    (Instr.literal 0x7B).wf Cfg.default = false ∧ (Instr.literal 0x7D).wf Cfg.default = false ∧
      (Instr.literal 0x5C).wf Cfg.default = false := by decide

/-- R75: the checksum block has `W` bytes. -/
theorem test_wf_refuses_wrong_checksum_length :
    (Instr.data 0 [0x68] []).wf Cfg.default = false ∧ (Instr.ack 0 [] [0x80, 0x00]).wf Cfg.default = false ∧
      (Instr.reservedAckflag 2 0 [] []).wf Cfg.default = false := by decide

/-- R81: a reserved `ackFlag` is neither 0 nor 1. -/
theorem test_wf_refuses_defined_flag :
    (Instr.reservedAckflag 0 0 [] [0x80]).wf Cfg.default = false ∧
      (Instr.reservedAckflag 1 0 [] [0x80]).wf Cfg.default = false := by decide

/-! ## Decoding: words written out from the spec's encodings -/

/-- R71: START is 7B, STOP is 7D, ESCAPE is 5C, any other value a literal. -/
theorem test_decode_byte_classes :
    decode Cfg.default (.wire 0b01111011) = .ok .start ∧ decode Cfg.default (.wire 0b01111101) = .ok .stop ∧
      decode Cfg.default (.wire 0b01011100) = .ok .escape ∧
      decode Cfg.default (.wire 0b00000000) = .ok (.literal 0x00) ∧
      decode Cfg.default (.wire 0b11111111) = .ok (.literal 0xFF) := by decide

/-- R75, R80: `ackFlag` is byte 0, `seq` byte 1, the last `W` bytes the checksum, here with `W = 2`. -/
theorem test_decode_frame_bodies :
    decode (crcCfg 0x11021) (.body [0x00, 0x05, 0x68, 0x69, 0x7F, 0x0C]) = .ok (.data 5 [0x68, 0x69] [0x7F, 0x0C]) ∧
      decode (crcCfg 0x11021) (.body [0x01, 0x00, 0x33, 0x31]) = .ok (.ack 0 [] [0x33, 0x31]) ∧
      decode (crcCfg 0x11021) (.body [0xFF, 0x07, 0x01, 0x33, 0x31]) =
        .ok (.reservedAckflag 0xFF 7 [0x01] [0x33, 0x31]) ∧
      decode (crcCfg 0x11021) (.body [0x00, 0x05, 0x68]) = .ok (.onFrameReceived [0x00, 0x05, 0x68]) := by
  decide

/-- R87: the twelve operation numbers, each with the shortest operands the coding of log entry 2 has. -/
theorem test_decode_operation_numbers :
    decode Cfg.default (.command [0, 0x7B, 0x7D, 0x5C, 0, 0, 0x80, 0x01, 10, 0, 0, 0, 0]) =
        .ok (.reset Cfg.default) ∧
      decode Cfg.default (.command [1, 1, 0x41]) = .ok (.send [0x41]) ∧
      decode Cfg.default (.command [2, 7, 2, 0x7B, 0x7D]) = .ok (.cycle 7 [0x7B, 0x7D]) ∧
      decode Cfg.default (.command [3, 1, 0xFF]) = .ok (.parity [0xFF]) ∧
      decode Cfg.default (.command [4, 1, 0x80, 0x87, 0x02]) = .ok (.crcRemainder [0x80] 0x107) ∧
      decode Cfg.default (.command [5, 1, 0x01, 0x00]) = .ok (.appendChecksum [0x01, 0x00]) := by decide

/-- R87, the other six. -/
theorem test_decode_operation_numbers_upper :
    decode Cfg.default (.command [6, 2, 0x01, 0x80]) = .ok (.verify [0x01, 0x80]) ∧
      decode Cfg.default (.command [7, 0]) = .ok (.encode []) ∧
      decode Cfg.default (.command [8]) = .ok .tryDecode ∧
      decode Cfg.default (.command [9, 1, 0x41, 3]) = .ok (.submit [0x41] 3) ∧
      decode Cfg.default (.command [10, 0]) = .ok (.onFrameReceived []) ∧
      decode Cfg.default (.command [11, 0x80, 0x01]) = .ok (.onTick 128) := by decide

/-- R89: the builders reach the block under their own names. -/
theorem test_decode_builders :
    decode Cfg.default (.buildData 123 [0x7B]) = .ok (.dataframe 123 [0x7B]) ∧
      decode Cfg.default (.buildAck 0) = .ok (.ackframe 0) := by decide

/-- What the decoder refuses, by name (log entry 3). -/
theorem test_decode_refuses_by_name :
    decode Cfg.default (.command []) = .error .emptyCommand ∧
      decode Cfg.default (.command [12]) = .error (.undefinedOperation 12) ∧
      decode Cfg.default (.command [255, 0]) = .error (.undefinedOperation 255) ∧
      decode Cfg.default (.command [1, 2, 0x41]) = .error .badOperands ∧
      decode Cfg.default (.command [8, 0]) = .error .trailingBytes := by decide

/-- A table word is the next instruction the step runs. -/
theorem test_with_fetch_word_runs :
    decodeTableWord 8 0x0 = some (.reset ⟨0, 0, 0, .parity, 0, 0, 0, none, none, none, none⟩) ∧
      decodeTableWord 8 0x3 = some (.parity []) ∧
      step (State.reset.withFetchWord 8 0x3) = exec (.parity []) State.reset :=
  ⟨by decide, by decide, rfl⟩

/-! ## Codec -/

/-- V-C6, V-C10. -/
theorem test_parity :
    (after (.parity [0x00, 0x00, 0x68, 0x69]) State.reset).result = .bit true ∧
      (after (.parity [0x7B, 0x7D, 0x5C]) State.reset).result = .bit false := by decide

/-- V-C18 m1 and m4, V-C16 m2. -/
theorem test_crc_remainder :
    (after (.crcRemainder [0x00, 0x00, 0x68, 0x69] 0x107) State.reset).result = .remainder 0x45 ∧
      (after (.crcRemainder [0x31, 0x32, 0x33, 0x34, 0x35, 0x36, 0x37, 0x38, 0x39] 0x107) State.reset).result =
        .remainder 0xF4 ∧
      (after (.crcRemainder [0x01, 0x00] 0b1011) State.reset).result = .remainder 0b110 := by decide +kernel

/-- V-C20 m1: four bytes of checksum. -/
theorem test_crc_remainder_wide :
    (after (.crcRemainder [0x00, 0x00, 0x68, 0x69] 0x104C11DB7) State.reset).result = .remainder 0x65C12FA0 := by
  decide +kernel

/-- V-C21, V-C30, V-C31: the block is left-aligned and most significant byte first. -/
theorem test_append_checksum :
    (after (.appendChecksum [0x00, 0x00, 0x68, 0x69]) State.reset).result =
        .bytes [0x00, 0x00, 0x68, 0x69, 0x80] ∧
      (after (.appendChecksum [0x00, 0x00, 0x68, 0x69]) (endpoint (crcCfg 0x11021))).result =
        .bytes [0x00, 0x00, 0x68, 0x69, 0x7F, 0x0C] ∧
      (after (.appendChecksum [0x01, 0x00]) (endpoint (crcCfg 0b1011))).result = .bytes [0x01, 0x00, 0xC0] := by
  decide +kernel

/-- V-C39, V-C36, V-C38, V-C41: Parity tests the pad bits and the length. -/
theorem test_verify_parity :
    (after (.verify [0x00, 0x00, 0x41, 0x00]) State.reset).result = .verdict true ∧
      (after (.verify [0x00, 0x00, 0x68, 0x69, 0x81]) State.reset).result = .verdict false ∧
      (after (.verify [0x00, 0x00, 0x41, 0x03]) State.reset).result = .verdict false ∧
      (after (.verify [0x80]) State.reset).result = .verdict false := by decide

/-- V-C45, V-C46, V-C48, V-C57. -/
theorem test_verify_crc :
    (after (.verify [0x01, 0x07]) (endpoint (crcCfg 0x107))).result = .verdict true ∧
      (after (.verify [0x00, 0x00, 0x68, 0x69, 0x0C, 0x7F]) (endpoint (crcCfg 0x11021))).result = .verdict false ∧
      (after (.verify [0x01, 0x00, 0xC1]) (endpoint (crcCfg 0b1011))).result = .verdict false ∧
      (after (.verify [0x00, 0x00, 0x41, 0x03]) (endpoint (crcCfg 0b11))).result = .verdict true := by
  decide +kernel

/-! ## Framer -/

/-- V-F6, and V-F12 with other reserved bytes. -/
theorem test_encode :
    (after (.encode [0x7B, 0x7D, 0x5C]) State.reset).result =
        .bytes [0x7B, 0x5C, 0x7B, 0x5C, 0x7D, 0x5C, 0x5C, 0x7D] ∧
      (after (.encode [0x00, 0x01, 0x02, 0xFF])
        (endpoint { Cfg.default with start := 0x00, stop := 0xFF, escape := 0x01 })).result =
        .bytes [0x00, 0x01, 0x00, 0x01, 0x01, 0x02, 0x01, 0xFF, 0xFF] := by decide

/-- V-F19: garbage, a frame, and a tail. -/
theorem test_try_decode_frame :
    let t := after .tryDecode (holding [0x41, 0x42, 0x7B, 0x43, 0x7D, 0x44])
    t.result = .frame [0x43] ∧ t.rxbuf = [0x44] ∧ t.events = [.garbage 2] := by decide

/-- V-F28, V-F32, V-F38: resynchronisation, and an escaped START in garbage. -/
theorem test_try_decode_discards :
    (after .tryDecode (holding [0x7B, 0x7B, 0x7B, 0x41, 0x7D])).events = [.resync, .resync] ∧
      (after .tryDecode (holding [0x5C, 0x7B, 0x41, 0x7D])).result = .incomplete ∧
      (after .tryDecode (holding [0x41, 0x5C, 0x7B])).events = [.garbage 3] := by decide

/-- V-F16: a START alone is kept. -/
theorem test_start_opens :
    (after .start State.reset).rxbuf = [0x7B] ∧ (after .start State.reset).result = .incomplete := by
  decide

/-- V-F27: a START in the middle of a frame resynchronises. -/
theorem test_start_resynchronises :
    (after .start (holding [0x7B, 0x41])).rxbuf = [0x7B] ∧
      (after .start (holding [0x7B, 0x41])).events = [.resync] := by decide

/-- V-F18 and V-F42: a STOP ends a frame, and is garbage outside one. -/
theorem test_stop :
    (after .stop (holding [0x7B, 0x41, 0x42])).result = .frame [0x41, 0x42] ∧
      (after .stop (holding [0x7B, 0x41, 0x42])).rxbuf = [] ∧
      (after .stop State.reset).events = [.garbage 1] := by decide

/-- V-F22: an escaped STOP ends nothing. -/
theorem test_stop_escaped :
    (after .stop (holding [0x7B, 0x41, 0x5C])).rxbuf = [0x7B, 0x41, 0x5C, 0x7D] ∧
      (after .stop (holding [0x7B, 0x41, 0x5C])).result = .incomplete := by decide

/-- V-F29, V-F21. -/
theorem test_escape :
    (after .escape State.reset).rxbuf = [0x5C] ∧ (after .escape (holding [0x7B, 0x41])).rxbuf = [0x7B, 0x41, 0x5C] := by
  decide

/-- V-F40 and V-F15. -/
theorem test_literal :
    (after (.literal 0x43) (holding [0x7B, 0x41, 0x42])).rxbuf = [0x7B, 0x41, 0x42, 0x43] ∧
      (after (.literal 0x41) State.reset).rxbuf = [] ∧
      (after (.literal 0x41) State.reset).events = [.garbage 1] := by decide

/-! ## Frames -/

/-- V-A23, and V-A27 under CRC. -/
theorem test_dataframe :
    (after (.dataframe 123 [0x7B]) State.reset).result =
        .bytes [0x7B, 0x00, 0x5C, 0x7B, 0x5C, 0x7B, 0x00, 0x7D] ∧
      (after (.dataframe 123 [0x7B]) (endpoint (crcCfg 0x107))).result =
        .bytes [0x7B, 0x00, 0x5C, 0x7B, 0x5C, 0x7B, 0x53, 0x7D] := by decide +kernel

/-- V-A24, and V-A28 under a CRC of two bytes. -/
theorem test_ackframe :
    (after (.ackframe 92) State.reset).result = .bytes [0x7B, 0x01, 0x5C, 0x5C, 0x80, 0x7D] ∧
      (after (.ackframe 125) (endpoint (crcCfg 0x11021))).result =
        .bytes [0x7B, 0x01, 0x5C, 0x7D, 0x9C, 0x0B, 0x7D] := by decide +kernel

/-! ## ARQ -/

/-- V-A30. -/
theorem test_submit_sends :
    let t := after (.submit [0x68, 0x69] 0) State.reset
    t.result = .sent ∧ t.tx = [0x7B, 0x00, 0x00, 0x68, 0x69, 0x80, 0x7D] ∧ t.sendState = .awaitingAck ∧
      t.pendingFrame = t.tx ∧ t.pendingTimestamp = 0 ∧ t.currentSendSeq = 0 := by decide +kernel

/-- V-A31, and R141 with R171: a payload longer than `MAX_PAYLOAD` is refused, but `busy` reads it no further. -/
theorem test_submit_busy :
    let short := { Cfg.default with maxPayload := some 1 }
    let t := after (.submit [0x41] 1) (awaiting Cfg.default 0 0)
    t.result = .busy ∧ t.tx = [] ∧ t.pendingTimestamp = 0 ∧
      refusal? (.submit [0x41, 0x42] 0) (endpoint short) = some .payloadTooLong ∧
      (after (.submit [0x41, 0x42] 1) (awaiting short 0 0)).result = .busy := by decide

/-- V-A36 (P8 step 6) and V-A35 (P8 step 5): an empty body is damage, one header byte is short. -/
theorem test_on_frame_received_drops :
    (after (.onFrameReceived []) State.reset).events = [.dropChecksum] ∧
      (after (.onFrameReceived [0x00, 0x00]) State.reset).events = [.dropShort] := by decide

/-- V-A46 (P8 step 16) and V-A48 (P8 step 18): distance 64 is a duplicate, distance 65 is ahead. -/
theorem test_on_frame_received_window :
    (after (.onFrameReceived [0x00, 0x41, 0x01, 0x80]) { State.reset with nextExpectedSeq := 1 }).events =
        [.dupData 0x41, .txAck 0x41] ∧
      (after (.onFrameReceived [0x00, 0x40, 0x01, 0x00]) { State.reset with nextExpectedSeq := 1 }).events =
        [.dropFuture 0x40] := by decide

/-- P1 step 2. -/
theorem test_data_in_order :
    let t := after (.data 0 [0x68, 0x69] [0x80]) State.reset
    t.deliveries = [[0x68, 0x69]] ∧ t.tx = [0x7B, 0x01, 0x00, 0x80, 0x7D] ∧
      t.events = [.deliver 0, .txAck 0] ∧ t.nextExpectedSeq = 1 := by decide

/-- V-A33 (P8 step 3): `seq = 128` is outside 0..N-1. -/
theorem test_data_sequence_too_large :
    (after (.data 0x80 [0x41] [0x80]) State.reset).events = [.dropReserved] := by decide

/-- V-A41 (P8 step 11): an acknowledgment of the number awaited, its payload ignored. -/
theorem test_ack_accepted :
    let t := after (.ack 0 [0x99, 0x98] [0x00]) (awaiting Cfg.default 0 0)
    t.events = [.ackAccept 0] ∧ t.sendState = .idle ∧ t.currentSendSeq = 1 ∧ t.tx = [] := by decide

/-- V-A43 (P8 step 13) and V-A34 (P8 step 4): an acknowledgment while Idle, and of another number. -/
theorem test_ack_ignored :
    (after (.ack 1 [] [0x00]) { State.reset with currentSendSeq := 1 }).currentSendSeq = 1 ∧
      (after (.ack 1 [] [0x00]) { State.reset with currentSendSeq := 1 }).events = [.ackIgnored 1] ∧
      (after (.ack 0xC8 [] [0x00]) (awaiting Cfg.default 0 0)).events = [.ackIgnored 0xC8] := by decide

/-- V-A32 (P8 step 2). -/
theorem test_reserved_ackflag :
    (after (.reservedAckflag 0x02 0 [0x41] [0x80]) State.reset).events = [.dropReserved] ∧
      (after (.reservedAckflag 0x02 0 [0x41] [0x80]) State.reset).deliveries = [] := by decide

/-- V-A12 and V-A13: more than `T`, not `T`. -/
theorem test_on_tick :
    (after (.onTick 10) (awaiting Cfg.default 0 0)).tx = [] ∧
      (after (.onTick 11) (awaiting Cfg.default 0 0)).tx = [0x7B, 0x00, 0x00, 0x41, 0x00, 0x7D] ∧
      (after (.onTick 11) (awaiting Cfg.default 0 0)).pendingTimestamp = 11 := by decide

/-- V-A17, V-A18, V-A19 in eight bits of time, V-A20 in unbounded time. -/
theorem test_on_tick_wraps :
    (after (.onTick 4) (awaiting { Cfg.default with timeW := some 8 } 0 250)).events = [] ∧
      (after (.onTick 5) (awaiting { Cfg.default with timeW := some 8 } 0 250)).pendingTimestamp = 5 ∧
      (after (.onTick 249) (awaiting { Cfg.default with timeW := some 8 } 0 250)).events = [.txRetx 0] ∧
      refusal? (.onTick 249) (awaiting Cfg.default 0 250) = some .timeBackward := by decide

/-! ## Endpoint -/

/-- V-E7. -/
theorem test_send_full :
    let fresh := endpoint { Cfg.default with txqDepth := some 1 }
    let full : State := { fresh with txq := [[0x41]] }
    (after (.send [0x41]) fresh).result = .accepted ∧ (after (.send [0x41]) fresh).txq = [[0x41]] ∧
      (after (.send [0x42]) full).result = .full ∧ (after (.send [0x42]) full).txq = [[0x41]] := by
  decide

/-- R171: a payload longer than `MAX_PAYLOAD` is refused. -/
theorem test_send_too_long :
    refusal? (.send [0x41, 0x42]) (endpoint { Cfg.default with maxPayload := some 1 }) = some .payloadTooLong := by
  decide

/-- V-E3: retransmission, then the acknowledgment, then the next payload. -/
theorem test_cycle_phase_order :
    let s : State := { awaiting { crcCfg 0x107 with timeout := 5 } 0 0 with
      pendingFrame := [0x7B, 0x00, 0x00, 0x5C, 0x7B, 0x61, 0x5C, 0x7D, 0x5C, 0x5C, 0xCE, 0x7D]
      txq := [[0x45]] }
    let t := after (.cycle 6 [0x7B, 0x01, 0x00, 0x15, 0x7D]) s
    t.tx = [0x7B, 0x00, 0x00, 0x5C, 0x7B, 0x61, 0x5C, 0x7D, 0x5C, 0x5C, 0xCE, 0x7D,
      0x7B, 0x00, 0x01, 0x45, 0xC9, 0x7D] ∧
      t.events = [.txRetx 0, .ackAccept 0, .txData 1] ∧ t.pendingTimestamp = 6 ∧ t.txq = [] := by decide +kernel

/-- V-E4: the same data frame twice in one batch. -/
theorem test_cycle_duplicate :
    let t := after (.cycle 0 [0x7B, 0x00, 0x00, 0x68, 0x69, 0x80, 0x7D, 0x7B, 0x00, 0x00, 0x68, 0x69, 0x80, 0x7D])
      State.reset
    t.tx = [0x7B, 0x01, 0x00, 0x80, 0x7D, 0x7B, 0x01, 0x00, 0x80, 0x7D] ∧ t.deliveries = [[0x68, 0x69]] ∧
      t.events = [.deliver 0, .txAck 0, .dupData 0, .txAck 0] ∧ t.nextExpectedSeq = 1 := by decide +kernel

/-- V-R11. -/
theorem test_reset_clears :
    let s : State := { awaiting Cfg.default 5 0 with
      nextExpectedSeq := 9, rxbuf := [0x7B, 0x00], txq := [[0x41], [0x42]] }
    let t := after (.reset Cfg.default) s
    t.sendState = .idle ∧ t.currentSendSeq = 0 ∧ t.nextExpectedSeq = 0 ∧ t.rxbuf = [] ∧ t.txq = [] ∧
      t.tx = [] ∧ t.fault = false := by decide

/-- V-R2 to V-R9. -/
theorem test_reset_validity :
    (after (.reset { Cfg.default with escape := 0x7B }) State.reset).result = .configError ∧
      ([crcCfg 1, crcCfg 0, { Cfg.default with seqMod := 1 }, { Cfg.default with seqMod := 257 },
        { Cfg.default with timeW := some 8, timeout := 256 }].map fun c => (after (.reset c) State.reset).fault) =
        List.replicate 5 true ∧
      ([{ Cfg.default with seqMod := 2 }, { Cfg.default with seqMod := 256 }, crcCfg 2].map
        fun c => (after (.reset c) State.reset).fault) = List.replicate 3 false := by decide

/-! ## Witnesses: what meets the hypotheses of each statement, clause by clause -/

/-- ResetLeavesSpecValues, ConfigurationValidity: the largest generator an implementation of degree 8 holds,
and the first it does not. -/
theorem test_witness_reset :
    fits ({ State.reset with degMax := some 8 } : State).degMax (deg (crcCfg 0x1FF).g).toNat = true ∧
      fits ({ State.reset with degMax := some 8 } : State).degMax (deg (crcCfg 0x200).g).toNat = false ∧
      refusal? (.reset (crcCfg 0x200)) { State.reset with degMax := some 8 } = some .cfgNotExpressible ∧
      (after (.reset Cfg.default) { State.reset with lastNow := 5 }).lastNow = 0 := by
  decide

/-- FaultedEndpointRefuses: a RESET that completes, a faulted endpoint, and an operation that completes. -/
theorem test_witness_faulted :
    completes (.reset { Cfg.default with seqMod := 1 }) State.reset = true ∧ faulted.fault = true ∧
      refusal? .tryDecode faulted = some .faulted ∧ completes .tryDecode State.reset = true ∧
      ∀ cfg, Instr.tryDecode ≠ .reset cfg := by
  refine ⟨by decide, rfl, by decide, by decide +kernel, fun _ => by simp⟩

/-- ConfigErrorLatches. -/
theorem test_witness_config_error :
    (∃ t, exec (.reset { Cfg.default with seqMod := 257 }) State.reset = .next t ∧ t.result = .configError) ∧
      ({ Cfg.default with seqMod := 257 } : Cfg).valid = false ∧ Cfg.default.valid = true ∧
      fits State.reset.degMax (deg Cfg.default.g).toNat = true := by
  refine ⟨⟨_, rfl, by decide⟩, by decide, by decide, by decide⟩

/-- RefusalsAreThoseListed: every refusal it lists is met. -/
theorem test_witness_refusals :
    refusal? (.send [0]) (endpoint { Cfg.default with maxPayload := some 0 }) = some .payloadTooLong ∧
      refusal? (.submit [0] 0) (endpoint { Cfg.default with maxPayload := some 0 }) = some .payloadTooLong ∧
      refusal? (.appendChecksum []) State.reset = some .emptyInput ∧
      refusal? (.onTick 4) (awaiting Cfg.default 0 5) = some .timeBackward ∧
      refusal? (.cycle 4 []) { State.reset with lastNow := 5 } = some .timeBackward ∧
      refusal? (.cycle 4 []) (awaiting Cfg.default 0 5) = some .timeBackward := by decide

/-- RefusalsAreThoseListed, the overflows, at the capacity and one byte past it. -/
theorem test_witness_overflow :
    let s : State := { endpoint { Cfg.default with rxbufCap := some 2 } with rxbuf := [0x7B] }
    completes (.cycle 0 [0x41]) s = true ∧ refusal? (.cycle 0 [0x41, 0x42]) s = some .rxbufOverflow ∧
      completes (.literal 0x41) s = true ∧
      ([Instr.start, .stop, .escape, .literal 0x41].map fun i => refusal? i { s with rxbuf := [0x7B, 0x41] }) =
        List.replicate 4 (some .rxbufOverflow) := by decide

/-- ConfigurationLatched, both cases. -/
theorem test_witness_latched :
    (after (.reset (crcCfg 0x107)) State.reset).cfg = crcCfg 0x107 ∧
      completes (.parity []) (endpoint (crcCfg 0x107)) = true := by decide

/-- StepKeepsInvariant: an endpoint that awaits an acknowledgment and has one waiting. -/
theorem test_witness_invariant :
    let s : State := { awaiting Cfg.default 127 3 with inbox := [.body [0x01, 0x7F, 0x00]] }
    s.Inv ∧ ∃ t, step s = .next t := by
  refine ⟨⟨by decide, by decide, by decide, by decide, fun _ _ => ⟨[0x41], rfl, rfl⟩, by decide, by decide,
    fun _ => .inl rfl, by decide, by decide⟩, ?_⟩
  exact ⟨_, rfl⟩

/-- EventsToldByCode: equal codes with and without information, and unequal ones with equal information. -/
theorem test_witness_event_code :
    (Event.garbage 2).code = (Event.garbage 3).code ∧ (Event.garbage 2).info ≠ (Event.garbage 3).info ∧
      Event.dropShort.info = Event.resync.info ∧ Event.dropShort.code = 8 ∧ Event.resync.code = 11 ∧
      (Event.txData 5).info = (Event.txRetx 5).info ∧ (Event.txData 5).code ≠ (Event.txRetx 5).code := by decide

/-- ChecksumWidths: a generator at both ends of one degree, and the smallest CRC. -/
theorem test_witness_widths :
    deg 256 = 8 ∧ deg 511 = 8 ∧ deg 512 = 9 ∧ deg 1 = 0 ∧ (crcCfg 2).codec = .crc ∧ 1 ≤ deg (crcCfg 2).g := by
  decide

/-- CrcIsPolynomialRemainder, CrcShiftRegisterAgrees, and CrcShortGeneratorCompletes below them. -/
theorem test_witness_generators :
    State.reset.fault = false ∧ 1 ≤ deg 2 ∧ deg 1 < 1 ∧ deg 0 < 1 ∧
      completes (.crcRemainder [0x80] 1) State.reset = true := by decide

/-- ParityIsBitCountModTwo, EncodeStuffsReservedBytes, BuildersComposeEncodeAndChecksum, WireFrameLengths,
TryDecodeTakesFirstFrame: an endpoint that is not faulted. -/
theorem test_witness_not_faulted : State.reset.fault = false ∧ (endpoint (crcCfg 0x107)).fault = false := by decide

/-- ChecksumBlockIsLeftAligned, each clause, with a checksum that fills no byte and one of two bytes. -/
theorem test_witness_blocks :
    refusal? (.appendChecksum []) State.reset = some .emptyInput ∧ ([0x01] : Bytes) ≠ [] ∧
      Cfg.default.codec = .parity ∧ (crcCfg 0b1011).codec = .crc ∧ 1 ≤ deg (crcCfg 0b1011).g ∧
      (crcCfg 0b1011).padBits = 5 ∧ (crcCfg 0x11021).checksumBytes = 2 := by decide

/-- VerifyFollowsItsRule, AppendedChecksumVerifies, SingleBitErrorsDetected: every codec, and the last bit. -/
theorem test_witness_codecs :
    Cfg.default.valid = true ∧ (crcCfg 0x11021).valid = true ∧ (crcCfg 2).valid = true ∧
      (crcCfg 2).g = 2 ^ (crcCfg 2).checksumBits ∧ (crcCfg 3).g ≠ 2 ^ (crcCfg 3).checksumBits ∧
      4 < ([0x00, 0x00, 0x68, 0x69] ++ checksumBlock Cfg.default [0x00, 0x00, 0x68, 0x69]).length := by
  decide

/-- ParityIsCrcOfXPlusOne: the two endpoints it compares, on a sequence whose pad bits tell them apart
(V-C38, V-C57). -/
theorem test_witness_parity_crc :
    let sp : State := { State.reset with cfg := { State.reset.cfg with codec := .parity } }
    let sc : State := { State.reset with cfg := { State.reset.cfg with codec := .crc, g := 3 } }
    (after (.verify [0x00, 0x00, 0x41, 0x03]) sp).result = .verdict false ∧
      (after (.verify [0x00, 0x00, 0x41, 0x03]) sc).result = .verdict true := by decide +kernel

/-- SingleTermGeneratorDetectsNothing: the shortest, and one of nine bits. -/
theorem test_witness_single_term :
    (endpoint (crcCfg 2)).cfg.g = 2 ^ 1 ∧ (endpoint (crcCfg 512)).cfg.g = 2 ^ 9 ∧
      (after (.verify [0x12, 0x34]) (endpoint (crcCfg 512))).result = .verdict false ∧
      (after (.verify [0x12, 0x34, 0x56]) (endpoint (crcCfg 512))).result = .verdict true := by decide +kernel

/-- EncodedFrameDecodesBack: garbage with an escape pair in it, and a tail. -/
theorem test_witness_round_trip :
    State.reset.cfg.reservedDistinct = true ∧ State.reset.cfg.start ∉ ([0x7D, 0x5C, 0x41] : Bytes) ∧
      endsInEscape State.reset.cfg [0x7D, 0x5C, 0x41] = false ∧ endsInEscape State.reset.cfg [0x41, 0x5C] = true := by
  decide

/-- StreamingMachineExtractsSameFrames, FramesIndependentOfChunking, TryDecodeTakesFirstFrame: a buffer in
each settled form, and two cuts of one stream. -/
theorem test_witness_settled :
    settled Cfg.default [] ∧ settled Cfg.default [0x5C] ∧ settled Cfg.default [0x7B, 0x41, 0x5C, 0x7D, 0x5C] ∧
      ¬settled Cfg.default [0x7B, 0x7D] ∧ ([[0x7B, 0x41], [0x7D]] : List Bytes).flatten = [[0x7B], [0x41,
          0x7D]].flatten := by
  unfold settled
  decide

/-- TryDecodeTakesFirstFrame, CycleRunsFourPhases: what a stream gives up before its frames, and after the
last. V-F19: garbage and then a frame; V-F28: a partial frame given up twice; V-F38: an escaped `START` is
garbage; P7: the whole stream in one cycle. -/
theorem test_witness_frames_reported :
    framesReported Cfg.default .hunt 0 0 [0x41, 0x42, 0x7B, 0x43, 0x7D, 0x44] = ([⟨2, 0, [0x43]⟩], (1, 0)) ∧
      framesReported Cfg.default .hunt 0 0 [0x7B, 0x7B, 0x7B, 0x41, 0x7D] = ([⟨0, 2, [0x41]⟩], (0, 0)) ∧
      framesReported Cfg.default .hunt 0 0 [0x41, 0x5C, 0x7B] = ([], (3, 0)) ∧
      (after (.cycle 0 [0x99, 0x7D, 0x7B, 0x00, 0x00, 0x7B, 0x00, 0x00, 0x5C, 0x5C, 0x00, 0x7D, 0x00, 0x7B, 0x00,
        0x01, 0x5C, 0x7D, 0x80, 0x7D]) State.reset).events =
        [.garbage 2, .resync, .deliver 0, .txAck 0, .garbage 1, .deliver 1, .txAck 1] ∧
      framingEvents 2 0 = [.garbage 2] ∧ framingEvents 0 2 = [.resync, .resync] ∧ framingEvents 0 0 = [] := by
  decide +kernel

/-- WireByteAppendsThenScans, WireByteIsOneStreamTransition: each class in a state of the streaming machine
of its own, at the capacity. -/
theorem test_witness_wire_bytes :
    let s : State := { endpoint { Cfg.default with rxbufCap := some 3 } with rxbuf := [0x7B, 0x41] }
    fits s.cfg.rxbufCap (s.rxbuf.length + 1) = true ∧ s.cfg.isReserved 0x41 = false ∧
      (streamRun s.cfg .hunt s.rxbuf).1 = .collect [0x41] ∧ (streamRun s.cfg .hunt []).1 = .hunt ∧
      (streamRun s.cfg .hunt [0x5C]).1 = .huntEsc ∧ (streamRun s.cfg .hunt [0x7B, 0x5C]).1 = .collectEsc [] := by
  decide

/-- SubmitSendsOneFrame: both states of the sender, the longest payload, and the largest time of eight bits. -/
theorem test_witness_submit :
    State.reset.sendState = .idle ∧ (awaiting Cfg.default 0 0).sendState = .awaitingAck ∧
      fits (some 1) ([0x41] : Bytes).length = true ∧
      completes (.submit [0x41] 0) (endpoint { Cfg.default with maxPayload := some 1 }) = true ∧
      (after (.submit [] 255) (endpoint { Cfg.default with timeW := some 8 })).pendingTimestamp = 255 := by
  decide

/-- DamagedBodyDropped. -/
theorem test_witness_damaged :
    exec (.verify [0x00, 0x00, 0x41, 0x80]) State.reset =
      .next { State.reset.begin with result := .verdict false } := rfl

/-- ShortBodyDropped: a short body of each kind. -/
theorem test_witness_short :
    ([0x00, 0x00] : Bytes).length < 2 + Cfg.default.checksumBytes ∧ verify Cfg.default [0x00, 0x00] = true ∧
      verify Cfg.default [0x00, 0x80] = false ∧ verify Cfg.default [0x00] = false := by decide

/-- ReservedBodyDropped: the least and the greatest reserved flag, and the first number out of range. -/
theorem test_witness_reserved :
    verify Cfg.default (0x02 :: 0x00 :: ([0x41] ++ [0x80])) = true ∧
      verify Cfg.default (0xFF :: 0x00 :: ([] ++ [0x00])) = true ∧
      verify Cfg.default (0x00 :: 0x80 :: ([0x41] ++ [0x80])) = true ∧
      Cfg.default.seqMod ≤ (0x80 : Byte).toNat := by decide

/-- AcknowledgmentFreesSender: the number awaited, another number, and no number awaited. -/
theorem test_witness_acknowledgment :
    verify Cfg.default (0x01 :: 0x7F :: ([] ++ [0x00])) = true ∧
      (awaiting Cfg.default 127 0).currentSendSeq = 0x7F ∧ (awaiting Cfg.default 0 0).currentSendSeq ≠ 0x7F ∧
      State.reset.sendState ≠ .awaitingAck := by decide

/-- InOrderDataDelivered: the last number, after which the numbers wrap. -/
theorem test_witness_in_order :
    verify Cfg.default (0x00 :: 0x7F :: ([0x41] ++ [0x80])) = true ∧ (0x7F : Byte).toNat < Cfg.default.seqMod ∧
      (after (.data 0x7F [0x41] [0x80]) { State.reset with nextExpectedSeq := 0x7F }).nextExpectedSeq = 0 := by
  decide

/-- DuplicateDataReacknowledged at distances 1 and `floor(N / 2)`, AheadDataDropped one past it. -/
theorem test_witness_window :
    verify Cfg.default (0x00 :: 0x7F :: ([] ++ [0x80])) = true ∧ ((0 : Int) - 0x7F) % 128 = 1 ∧
      verify Cfg.default (0x00 :: 0x40 :: ([] ++ [0x80])) = true ∧ ((0 : Int) - 0x40) % 128 = 64 ∧
      verify Cfg.default (0x00 :: 0x3F :: ([] ++ [0x00])) = true ∧ ((0 : Int) - 0x3F) % 128 = 65 := by
  decide

/-- SequenceOrderIsHalfWindow (V-A3, V-A10): an odd `N`, and the largest. -/
theorem test_witness_sequence_order :
    earlier { Cfg.default with seqMod := 3 } 2 0 = true ∧ earlier { Cfg.default with seqMod := 3 } 1 0 = false ∧
      earlier { Cfg.default with seqMod := 256 } 128 0 = true ∧
      earlier { Cfg.default with seqMod := 256 } 127 0 = false := by decide

/-- DeliveredFrameNotRedelivered. -/
theorem test_witness_redelivery :
    completes (.onFrameReceived [0x00, 0x00, 0x41, 0x00]) State.reset = true ∧
      (after (.onFrameReceived [0x00, 0x00, 0x41, 0x00]) State.reset).deliveries ≠ [] := by decide

/-- TimerRetransmitsVerbatim: exactly `T` and one more, across a wrap of eight bits and without one. -/
theorem test_witness_timer :
    ((4 : Int) - 250) % 2 ^ 8 = 10 ∧ ((5 : Int) - 250) % 2 ^ 8 = 11 ∧
      (awaiting { Cfg.default with timeW := some 8 } 0 250).sendState = .awaitingAck ∧
      (awaiting Cfg.default 0 250).pendingTimestamp ≤ 260 ∧
          260 - (awaiting Cfg.default 0 250).pendingTimestamp = 10 := by
  decide

/-- FlippedBitHasNoEffect: a codec it covers and the one it excludes. -/
theorem test_witness_flipped_bit :
    ¬((crcCfg 0x107).codec = .crc ∧ (crcCfg 0x107).g = 2 ^ (crcCfg 0x107).checksumBits) ∧
      ((crcCfg 2).codec = .crc ∧ (crcCfg 2).g = 2 ^ (crcCfg 2).checksumBits) ∧
      ([0x01, 0x00] : Bytes).length = 2 ∧ 2 < (appendChecksum (crcCfg 0x107) [0x01, 0x00]).length := by
  decide

/-- SendQueuesInOrder: a payload of the greatest length and one longer, a full queue and one place left. -/
theorem test_witness_send :
    fits (some 1) ([0x41] : Bytes).length = true ∧ fits (some 1) ([0x41, 0x42] : Bytes).length = false ∧
      (after (.send [0x42])
        { endpoint { Cfg.default with txqDepth := some 2 } with txq := [[0x41]] }).result = .accepted ∧
      (after (.send [0x42])
        { endpoint { Cfg.default with txqDepth := some 1 } with txq := [[0x41]] }).result = .full := by
  decide

/-- CycleRunsFourPhases: the least time and the most bytes it allows, with a frame pending. -/
theorem test_witness_cycle :
    let s : State := { awaiting { Cfg.default with rxbufCap := some 2 } 0 5 with rxbuf := [0x7B], lastNow := 6 }
    s.lastNow ≤ 6 ∧ s.pendingTimestamp ≤ 6 ∧ fits s.cfg.rxbufCap (s.rxbuf.length + [0x41].length) = true ∧
      completes (.cycle 6 [0x41]) s = true := by decide

/-- QuietCycleChangesNothing: a partial frame in the buffer. -/
theorem test_witness_quiet_cycle :
    let s := holding [0x7B, 0x41]
    s.fault = false ∧ s.sendState = .idle ∧ s.txq = [] ∧ settled s.cfg s.rxbuf ∧
      fits s.cfg.rxbufCap s.rxbuf.length = true ∧ s.lastNow ≤ 0 := by
  unfold settled
  decide

/-- SenderAdvancesOnlyByAcknowledgment, ReceiverAdvancesByDeliveries, TransmittedBytesFollowEvents,
StoresChangeOnlyByTheirPrimitives, HalvesAreIndependent: an operation that accepts, delivers, transmits and
takes from both stores. -/
theorem test_witness_whole_machine :
    let s : State := { awaiting Cfg.default 0 0 with txq := [[0x43]] }
    let t := after (.cycle 1 [0x7B, 0x01, 0x00, 0x80, 0x7D, 0x7B, 0x00, 0x00, 0x42, 0x00, 0x7D]) s
    completes (.cycle 1 [0x7B, 0x01, 0x00, 0x80, 0x7D, 0x7B, 0x00, 0x00, 0x42, 0x00, 0x7D]) s = true ∧
      t.events = [.ackAccept 0, .deliver 0, .txAck 0, .txData 1] ∧
      completes (.cycle 1 [0x7B, 0x01, 0x00, 0x80, 0x7D, 0x7B, 0x00, 0x00, 0x42, 0x00, 0x7D])
        { s with sendState := .idle } = true := by decide

/-- OneExchangeDeliversOnce (P1), with buffers that just hold one frame. -/
theorem test_witness_exchange :
    let a : State := { endpoint { Cfg.default with rxbufCap := some 5 } with txq := [[0x68, 0x69]] }
    let b : State := endpoint { Cfg.default with rxbufCap := some 7 }
    a.cfg.valid = true ∧
      b.cfg = { a.cfg with
        timeout := b.cfg.timeout
        timeW := b.cfg.timeW
        maxPayload := b.cfg.maxPayload
        rxbufCap := b.cfg.rxbufCap
        txqDepth := b.cfg.txqDepth } ∧
      b.nextExpectedSeq = a.currentSendSeq ∧ a.currentSendSeq.toNat < a.cfg.seqMod ∧
      fits b.cfg.rxbufCap (dataFrame a.cfg a.currentSendSeq [0x68, 0x69]).length = true ∧
      fits a.cfg.rxbufCap (ackFrame a.cfg a.currentSendSeq).length = true := by decide +kernel

/-- LostFrameIsRecovered (P2): the times of an unbounded clock, and of one of eight bits that wraps. -/
theorem test_witness_lost_frame :
    let a : State := { State.reset with txq := [[0x68, 0x69]] }
    a.lastNow ≤ 0 ∧ 0 + a.cfg.timeout < 11 ∧ 11 ≤ 13 ∧
      (({ Cfg.default with timeW := some 8 } : Cfg).timeout : Int) < ((5 : Int) - 250) % 2 ^ 8 ∧
      ({ Cfg.default with timeW := some 8 } : Cfg).valid = true := by decide

/-- PayloadsDeliveredOnceInOrder: two endpoints freshly reset, and a first operation on the link. -/
theorem test_witness_link :
    ∃ l l' : Link, l.Fresh ∧ Link.Step l l' ∧ l'.accepted = [[0x41]] := by
  refine ⟨⟨State.reset.cleared Cfg.default, State.reset.cleared Cfg.default, [], [], [], []⟩, _,
    ⟨⟨Cfg.default, State.reset, State.reset, by decide, rfl, rfl⟩, rfl, rfl, rfl, rfl⟩,
    .sendA _ [0x41] _ rfl, rfl⟩

/-- DecodeEncodeRoundTrip, DecoderYieldsWellFormed: a well-formed instruction of each layer. -/
theorem test_witness_well_formed :
    (Instr.reset { crcCfg 0x104C11DB7 with timeW := some 16, rxbufCap := some 0 }).wf Cfg.default = true ∧
      Instr.start.wf Cfg.default = true ∧ (Instr.literal 0x7A).wf Cfg.default = true ∧
      (Instr.data 0 [] [0x00]).wf Cfg.default = true ∧
      (Instr.reservedAckflag 0x02 0 [] [0x80]).wf Cfg.default = true ∧ Cfg.default.reservedDistinct = true := by
  decide

/-- WireEncodingsAreUnique: a byte, a body of exactly a header and its checksum, a builder. -/
theorem test_witness_encodings :
    2 + Cfg.default.checksumBytes ≤ ([0x01, 0x00, 0x80] : Bytes).length ∧
      encode Cfg.default (.ack 0 [] [0x80]) = .body [0x01, 0x00, 0x80] ∧
      encode Cfg.default (.literal 0x41) = .wire 0x41 ∧ encode Cfg.default (.ackframe 0) = .buildAck 0 := by
  decide

/-- StepRunsDecodedRequest, UndefinedOperationNumbersStop: an empty inbox, a request, and the first number
that is none. -/
theorem test_witness_step :
    State.reset.inbox = [] ∧ decode Cfg.default (.command [8]) = .ok .tryDecode ∧
      decode Cfg.default (.command [12]) = .error (.undefinedOperation 12) ∧ 12 ≤ (12 : Byte).toNat := by decide

end Sys2Proof.Tests
end

