-- ==== Sys2Proof/Proofs/Scope.lean ====
section
/-! PROOFS. Spec/00_scope.md: which configurations are valid (R6), and the widths derived from one (R7). -/

namespace Sys2Proof.Machine

/-! ## The widths (R7) -/

/-- The degree is the index of the highest set bit, for the constant generator 1 too. -/
theorem exists_deg_eq {g : Nat} (h : g ≠ 0) : ∃ k : Nat, deg g = k ∧ 2 ^ k ≤ g ∧ g < 2 ^ (k + 1) :=
  ⟨Nat.log2 g, deg_eq_log2 h, Nat.log2_self_le h, Nat.lt_log2_self⟩

theorem checksumBits_of_parity {c : Cfg} (h : c.codec = .parity) : c.checksumBits = 1 := by
  simp [Cfg.checksumBits, h]

theorem checksumBits_of_crc {c : Cfg} (h : c.codec = .crc) : c.checksumBits = (deg c.g).toNat := by
  simp [Cfg.checksumBits, h]

/-- `W` is the least number of bytes that holds `d` bits. -/
theorem checksumBytes_bounds (c : Cfg) :
    c.checksumBits ≤ 8 * c.checksumBytes ∧ 8 * c.checksumBytes < c.checksumBits + 8 := by
  unfold Cfg.checksumBytes
  omega

theorem widths_of_parity {c : Cfg} (h : c.codec = .parity) :
    c.checksumBits = 1 ∧ c.checksumBytes = 1 ∧ c.padBits = 7 := by
  have hbits := checksumBits_of_parity h
  have hbounds := checksumBytes_bounds c
  have hpad := checksumBits_le c
  omega

/-- Settles O11: the width of each codec, and the rounding of `W` up to whole bytes. -/
theorem checksumWidths : Obligations.ChecksumWidths := by
  refine ⟨rfl, fun g hg => exists_deg_eq hg, fun c => ?_⟩
  obtain ⟨hle, hlt⟩ := checksumBytes_bounds c
  have hpad := checksumBits_le c
  refine ⟨widths_of_parity, fun hcrc hdeg => ?_, hle, hlt, rfl, by omega⟩
  rw [checksumBits_of_crc hcrc, Int.toNat_of_nonneg (by omega)]

/-! ## Validity (R6) -/

theorem Cfg.timeoutFits_iff {c : Cfg} :
    c.timeoutFits = true ↔ ∀ w, c.timeW = some w → c.timeout < 2 ^ w := by
  unfold Cfg.timeoutFits
  cases c.timeW with
  | none => simp
  | some w => simp

/-- Clause (b) of R6 as the model tests it, and as the rule says it. -/
theorem codec_parity_or_iff {c : Cfg} {p : Prop} : (c.codec = .parity ∨ p) ↔ (c.codec = .crc → p) := by
  cases c.codec with
  | parity => simp
  | crc => simp

/-- R6, clauses (a) to (d). -/
theorem Cfg.valid_iff {c : Cfg} :
    c.valid = true ↔
      (c.start ≠ c.stop ∧ c.start ≠ c.escape ∧ c.stop ≠ c.escape) ∧
      (c.codec = .crc → 1 ≤ deg c.g) ∧ (2 ≤ c.seqMod ∧ c.seqMod ≤ 256) ∧
      (∀ w, c.timeW = some w → c.timeout < 2 ^ w) := by
  rw [← Cfg.reservedDistinct_iff, ← codec_parity_or_iff, ← Cfg.timeoutFits_iff]
  simp [Cfg.valid, and_assoc]

/-- RESET of a configuration the implementation can hold completes (R220). -/
theorem exec_reset {cfg : Cfg} {s : State} (h : fits s.degMax (deg cfg.g).toNat = true) :
    exec (.reset cfg) s = .next (if cfg.valid then s.cleared cfg else (s.cleared cfg).raiseConfigError) := by
  simp [exec, execReset, h]

/-- The latch RESET leaves is the verdict on the configuration (R28). -/
theorem exec_reset_fault {cfg : Cfg} {s : State} (h : fits s.degMax (deg cfg.g).toNat = true) :
    ∃ t, exec (.reset cfg) s = .next t ∧ t.fault = !cfg.valid := by
  refine ⟨_, exec_reset h, ?_⟩
  cases hv : cfg.valid with
  | true => simp
  | false => simp

/-- Settles O2: the latch is the negated verdict, and the verdict is R6. -/
theorem configurationValidity : Obligations.ConfigurationValidity := by
  intro cfg s h
  obtain ⟨t, hexec, hfault⟩ := exec_reset_fault h
  refine ⟨t, hexec, ?_⟩
  rw [hfault, Bool.not_eq_false', Cfg.valid_iff]

end Sys2Proof.Machine
end

