-- ==== Sys2Proof/Proofs/State.lean ====
section
/-! PROOFS. Spec/10_state.md: the register map (R32), the latch (R28), the two stores (R26, R27), the invariant
(R34) and the independence of the two halves (R20). -/

namespace Sys2Proof.Machine

/-! ## The register map (R32) -/

/-- Register 7 as a number of two bits. -/
theorem State.status_bits (s : State) : s.status < 4 ∧ s.status.testBit 0 = s.fault ∧
    (s.status.testBit 1 = true ↔ s.sendState = .awaitingAck) := by
  unfold State.status
  cases s.fault <;> cases s.sendState <;> decide

/-- Settles O9: the map is read off its definition, register 7 bit by bit. -/
theorem registerMapShowsState : Obligations.RegisterMapShowsState := by
  intro s
  refine ⟨rfl, rfl, rfl, ?_, rfl, rfl, rfl, ⟨s.status, rfl, s.status_bits⟩, fun n hn => ?_⟩
  · change some (codecCode s.cfg.codec).toNat = _
    cases s.cfg.codec <;> rfl
  · obtain ⟨k, rfl⟩ := Nat.exists_eq_add_of_le' hn
    rfl

/-! ## The latch (R28) -/

/-- Everything RESET can answer with a next state (R220). -/
theorem exec_reset_eq_next {cfg : Cfg} {s t : State} : exec (.reset cfg) s = .next t ↔
    fits s.degMax (deg cfg.g).toNat = true ∧
      t = if cfg.valid then s.cleared cfg else (s.cleared cfg).raiseConfigError := by
  simp only [exec, execReset]
  split <;> rename_i hfits
  · simp only [Host.Outcome.next.injEq, hfits, true_and]
    exact eq_comm
  · simp [hfits]

/-- The latch after a RESET that completes (R28). -/
theorem fault_of_exec_reset {cfg : Cfg} {s t : State} (h : exec (.reset cfg) s = .next t) : t.fault = !cfg.valid := by
  obtain ⟨hfits, -⟩ := exec_reset_eq_next.1 h
  obtain ⟨t', ht', hfault⟩ := exec_reset_fault hfits
  cases h.symm.trans ht'
  exact hfault

/-- Settles O3. RESET writes the latch; no other instruction does, and a set latch refuses them all. -/
theorem faultedEndpointRefuses : Obligations.FaultedEndpointRefuses := by
  refine ⟨fun cfg s t h => ?_, fun i s hi => ⟨exec_faulted hi, fun t h => ?_⟩⟩
  · rw [fault_of_exec_reset h, Bool.not_eq_true']
  · obtain ⟨hfault, -⟩ := exec_const hi h
    exact hfault

/-! ## The two stores through the phases of CYCLE (R26, R27) -/

@[simp] theorem submit_rxbuf (s : State) (p : Bytes) (now : Nat) : (s.submit p now).rxbuf = s.rxbuf := by
  rw [submit_frame]

@[simp] theorem submit_txq (s : State) (p : Bytes) (now : Nat) : (s.submit p now).txq = s.txq := by
  rw [submit_frame]

/-- Phase 3 trims the buffer from the front, to a settled one (R175, I3). -/
theorem phase3_rxbuf (s : State) :
    settled s.cfg s.phase3.rxbuf ∧ ∃ taken, s.rxbuf = taken ++ s.phase3.rxbuf := by
  obtain ⟨rest, hloop, hsettled, hsuffix, -⟩ := decodeLoop_reports _ s s.rxbuf s.result (Nat.lt_succ_self _)
  have hrest : s.phase3.rxbuf = rest := congrArg State.rxbuf hloop
  rw [hrest]
  exact ⟨hsettled, hsuffix⟩

@[simp] theorem phase3_txq (s : State) : s.phase3.txq = s.txq := by
  obtain ⟨-, htxq, -⟩ := decodeLoop_frame (s.rxbuf.length + 1) s
  exact htxq

@[simp] theorem phase3_cfg (s : State) : s.phase3.cfg = s.cfg := by
  obtain ⟨-, -, hcfg, -⟩ := decodeLoop_frame (s.rxbuf.length + 1) s
  exact hcfg

@[simp] theorem phase4_rxbuf (s : State) (now : Nat) : (s.phase4 now).rxbuf = s.rxbuf := by
  rcases phase4_cases s now with ⟨p, q, -, -, h⟩ | ⟨-, h⟩
  · rw [h, submit_rxbuf, State.qPop_rxbuf]
  · rw [h]

/-- Phase 4 leaves the queue, or pops its head, whose data frame is then pending (R176). -/
theorem phase4_txq (s : State) (now : Nat) :
    (s.phase4 now).txq = s.txq ∨ ∃ p, s.txq = p :: (s.phase4 now).txq ∧ (s.phase4 now).sendState = .awaitingAck ∧
      (s.phase4 now).pendingFrame = dataFrame s.cfg (s.phase4 now).currentSendSeq p := by
  rcases phase4_cases s now with ⟨p, q, hq, hidle, h⟩ | ⟨-, h⟩
  · right
    rw [h, submit_idle (s := s.qPop) hidle]
    exact ⟨p, by simp [hq], rfl, rfl⟩
  · rw [h]; exact .inl rfl

/-- CYCLE up to phase 3: the bytes are appended, and neither the queue nor the configuration has changed. -/
theorem cycle_filled {s t : State} {now : Nat} {rx : Bytes} (h : s.cycle now rx = .ok t) :
    ∃ filled : State, filled.cfg = s.cfg ∧ filled.txq = s.txq ∧ filled.rxbuf = s.rxbuf ++ rx ∧
      t = { filled.phase3.phase4 now with lastNow := timeOperand s.cfg now, result := .outputs } := by
  obtain ⟨-, ticked, filled, htick, hfill, rfl⟩ := cycle_eq_ok.1 h
  obtain ⟨-, hfilled⟩ := bufAppend_eq_ok.1 hfill
  rw [onTick_frame htick] at hfilled
  exact ⟨filled, by rw [hfilled], by rw [hfilled], by rw [hfilled], rfl⟩

/-- CYCLE appends to the buffer and trims it from the front, to a settled one. -/
theorem cycle_rxbuf {s t : State} {now : Nat} {rx : Bytes} (h : s.cycle now rx = .ok t) :
    settled s.cfg t.rxbuf ∧ ∃ taken, s.rxbuf ++ rx = taken ++ t.rxbuf := by
  obtain ⟨filled, hcfg, -, hrx, rfl⟩ := cycle_filled h
  have hphase3 := phase3_rxbuf filled
  rw [hcfg, hrx, ← phase4_rxbuf _ now] at hphase3
  exact hphase3

/-- CYCLE leaves the queue, or pops its head, whose data frame is then pending. -/
theorem cycle_txq {s t : State} {now : Nat} {rx : Bytes} (h : s.cycle now rx = .ok t) :
    t.txq = s.txq ∨ ∃ p, s.txq = p :: t.txq ∧ t.sendState = .awaitingAck ∧
      t.pendingFrame = dataFrame s.cfg t.currentSendSeq p := by
  obtain ⟨filled, hcfg, htxq, -, rfl⟩ := cycle_filled h
  have hphase4 := phase4_txq filled.phase3 now
  rw [phase3_txq, phase3_cfg, hcfg, htxq] at hphase4
  exact hphase4

/-- Settles O50, by what each instruction can do to the state. -/
theorem storesChangeOnlyByTheirPrimitives : Obligations.StoresChangeOnlyByTheirPrimitives := by
  intro i s t hi h
  rcases exec_next_cases h with ⟨cfg, rfl, -⟩ | ⟨-, -, ⟨ht, hcycle, hstart, hstop, hescape, hliteral⟩ |
    ⟨p, rfl, -, -, rfl⟩ | ⟨now, rx, rfl, hok⟩ | ⟨arrived, hrow, -, rfl⟩ | ⟨p, now, rfl, -, rfl⟩ |
    ⟨raw, hrow, rfl⟩ | ⟨now, rfl, hok⟩⟩
  · exact absurd rfl (hi cfg)
  · rw [ht]
    refine ⟨⟨[], ?_⟩, .inl rfl⟩
    split
    · exact absurd rfl (hcycle _ _)
    · exact absurd rfl hstart
    · exact absurd rfl hstop
    · exact absurd rfl hescape
    · exact absurd rfl (hliteral _)
    · simp
  · exact ⟨⟨[], by simp⟩, .inr (.inl ⟨p, rfl, rfl, rfl⟩)⟩
  · obtain ⟨-, htaken⟩ := cycle_rxbuf hok
    refine ⟨htaken, ?_⟩
    rcases cycle_txq hok with htxq | ⟨p, hpop⟩
    · exact .inl htxq
    · exact .inr (.inr ⟨now, rx, p, rfl, hpop⟩)
  · refine ⟨?_, .inl rfl⟩
    obtain ⟨taken, htaken⟩ := scan_rest_suffix s.cfg (s.rxbuf ++ arrived)
    rw [State.tryDecode_rxbuf]
    rcases hrow with ⟨rfl, rfl⟩ | ⟨rfl, rfl⟩ | ⟨rfl, rfl⟩ | ⟨rfl, rfl⟩ | ⟨b, rfl, rfl⟩ <;> exact ⟨taken, htaken⟩
  · exact ⟨⟨[], by simp⟩, .inl (by simp)⟩
  · refine ⟨⟨[], ?_⟩, .inl (by simp)⟩
    rcases hrow with rfl | ⟨_, _, _, rfl, -⟩ | ⟨_, _, _, rfl, -⟩ | ⟨_, _, _, _, rfl, -⟩ <;> simp
  · rw [onTick_frame hok]
    exact ⟨⟨[], by simp⟩, .inl rfl⟩

/-! ## The invariant (R34) -/

/-- Settles O7, clause by clause: the stores are empty and the sender is Idle. -/
theorem initialStateSound : Obligations.InitialStateSound where
  fault_eq := by decide
  expressible := by decide
  sendSeq_lt _ := by decide
  expectedSeq_lt _ := by decide
  pending_eq _ h := by cases h
  timestamp_fits := rfl
  rxbuf_fits := rfl
  rxbuf_settled _ := .inl rfl
  txq_fits := rfl
  payloads_fit := by simp [State.reset]

/-- An endpoint that is up, in the middle of an operation: the invariant without I3, which CYCLE and the byte rows
break when they append and restore when they decode. -/
structure State.Running (s : State) : Prop where
  not_fault : s.fault = false
  valid : s.cfg.valid = true
  expressible : fits s.degMax (deg s.cfg.g).toNat = true
  sendSeq_lt : s.currentSendSeq.toNat < s.cfg.seqMod
  expectedSeq_lt : s.nextExpectedSeq.toNat < s.cfg.seqMod
  pending_eq : s.sendState = .awaitingAck →
    ∃ p, fits s.cfg.maxPayload p.length = true ∧ s.pendingFrame = dataFrame s.cfg s.currentSendSeq p
  timestamp_fits : timeOperand s.cfg s.pendingTimestamp = s.pendingTimestamp
  rxbuf_fits : fits s.cfg.rxbufCap s.rxbuf.length = true
  txq_fits : fits s.cfg.txqDepth s.txq.length = true
  payloads_fit : ∀ p ∈ s.txq, fits s.cfg.maxPayload p.length = true

theorem State.inv_iff_running {s : State} (hf : s.fault = false) :
    s.Inv ↔ s.Running ∧ settled s.cfg s.rxbuf where
  mp h := ⟨{ h with
    not_fault := hf
    valid := by simpa [hf] using h.fault_eq
    sendSeq_lt := h.sendSeq_lt hf
    expectedSeq_lt := h.expectedSeq_lt hf
    pending_eq := h.pending_eq hf }, h.rxbuf_settled hf⟩
  mpr := fun ⟨h, hsettled⟩ => { h with
    fault_eq := by rw [hf, h.valid]; rfl
    sendSeq_lt := fun _ => h.sendSeq_lt
    expectedSeq_lt := fun _ => h.expectedSeq_lt
    pending_eq := fun _ => h.pending_eq
    rxbuf_settled := fun _ => hsettled }

namespace State.Running

variable {s t : State}

theorem begin (h : s.Running) : s.begin.Running := { h with }

theorem returns (h : s.Running) (r : Result) : (s.returns r).Running := { h with }

theorem tryDecode (h : s.Running) : s.tryDecode.Running :=
  { h with
    rxbuf_fits := by
      obtain ⟨pre, hpre⟩ := scan_rest_suffix s.cfg s.rxbuf
      have hlen := congrArg List.length hpre
      rw [List.length_append] at hlen
      rw [State.tryDecode_rxbuf]
      exact fits_mono h.rxbuf_fits (by omega) }

theorem ackArm (h : s.Running) (q : Byte) : (s.ackArm q).Running := by
  rcases ackArm_cases s q with ⟨-, -, harm⟩ | ⟨-, harm⟩
  · rw [harm]
    exact { h with
      sendSeq_lt := nextSeq_lt (Cfg.valid_seqMod h.valid) _
      pending_eq := fun hawait => by cases hawait
      timestamp_fits := timeOperand_idem _ _ }
  · rw [harm]
    exact { h with }

theorem dataInOrder (h : s.Running) (q : Byte) (p : Bytes) : (s.dataInOrder q p).Running := by
  have hnext := nextSeq_lt (Cfg.valid_seqMod h.valid) s.nextExpectedSeq
  exact { h with
    expectedSeq_lt := hnext
    pending_eq := by simpa using h.pending_eq }

theorem onFrameReceived (h : s.Running) (raw : Bytes) : (s.onFrameReceived raw).Running := by
  rcases onFrameReceived_cases s raw with ⟨e, -, hraw⟩ | ⟨-, hraw⟩ | ⟨-, -, -, hraw⟩ | ⟨-, hraw⟩ | ⟨-, hraw⟩
  · rw [hraw]; exact { h with }
  · rw [hraw]; exact h.ackArm _
  · rw [hraw]; exact h.dataInOrder _ _
  · rw [hraw]; exact { h with }
  · rw [hraw]; exact { h with }

theorem onTick {now : Nat} (h : s.Running) (hok : s.onTick now = .ok t) : t.Running := by
  rcases onTick_eq_ok.1 hok with ⟨-, rfl⟩ | ⟨-, -, ⟨-, rfl⟩ | ⟨-, rfl⟩⟩
  · exact h
  · exact h
  · exact { h with timestamp_fits := timeOperand_idem _ _ }

theorem bufAppend {rx : Bytes} (h : s.Running) (hok : s.bufAppend rx = .ok t) : t.Running := by
  obtain ⟨hfits, rfl⟩ := bufAppend_eq_ok.1 hok
  exact { h with rxbuf_fits := by rw [List.length_append]; exact hfits }

theorem submit {p : Bytes} (h : s.Running) (hp : s.sendState = .idle → fits s.cfg.maxPayload p.length = true)
    (now : Nat) : (s.submit p now).Running := by
  cases hs : s.sendState with
  | awaitingAck => rw [submit_awaiting hs]; exact h.returns _
  | idle =>
    rw [submit_idle hs]
    exact { h with
      pending_eq := fun _ => ⟨p, hp hs, rfl⟩
      timestamp_fits := timeOperand_idem _ _ }

theorem qPush {p : Bytes} (h : s.Running) (hp : fits s.cfg.maxPayload p.length = true) (hfull : s.txqFull = false) :
    (s.qPush p).Running :=
  { h with
    txq_fits := by
      unfold State.txqFull at hfull
      change fits s.cfg.txqDepth (s.txq ++ [p]).length = true
      cases hdepth : s.cfg.txqDepth with
      | none => rfl
      | some k => simp_all
    payloads_fit := fun p' hp' => by
      rcases List.mem_append.1 hp' with hp' | hp'
      · exact h.payloads_fit p' hp'
      · rw [List.mem_singleton.1 hp']; exact hp }

theorem qPop (h : s.Running) : s.qPop.Running :=
  { h with
    txq_fits := fits_mono h.txq_fits (by simp)
    payloads_fit := fun p hp => h.payloads_fit p (List.mem_of_mem_drop hp) }

theorem phase3 (h : s.Running) : s.phase3.Running :=
  decodeLoop_keeps (P := State.Running) (fun _ h => h.tryDecode) (fun _ raw h => h.onFrameReceived raw) _ s h

theorem phase4 (h : s.Running) (now : Nat) : (s.phase4 now).Running := by
  rcases phase4_cases s now with ⟨p, q, hq, -, hstart⟩ | ⟨-, hstay⟩
  · rw [hstart]
    exact h.qPop.submit (fun _ => h.payloads_fit p (by simp [hq])) now
  · rw [hstay]; exact h

theorem cycle {now : Nat} {rx : Bytes} (h : s.Running) (hok : s.cycle now rx = .ok t) : t.Running := by
  obtain ⟨-, ticked, filled, htick, hfill, rfl⟩ := cycle_eq_ok.1 hok
  have hphases := ((h.onTick htick).bufAppend hfill).phase3.phase4 now
  exact { hphases with }

end State.Running

/-- TRY_DECODE after one byte on a settled buffer leaves a settled one: a frame can only end at that byte, because
the streaming machine completes none before it. -/
theorem settled_scan_snoc {c : Cfg} (hc : c.reservedDistinct = true) {buf : Bytes} (hs : settled c buf) (b : Byte) :
    settled c (scan c (buf ++ [b])).rest := by
  cases hk : (scan c (buf ++ [b])).frame with
  | none => exact (scan_none _ _ hk).1
  | some body =>
    obtain ⟨pre, hpre, -, hrun, -⟩ := scan_frame _ _ _ hk
    rcases List.eq_nil_or_concat' (scan c (buf ++ [b])).rest with hrest | ⟨mid, last, hrest⟩
    · exact .inl hrest
    · rw [hrest, ← List.append_assoc] at hpre
      have hbuf : buf = pre ++ mid := (List.append_inj' hpre rfl).1
      have hnone := (streamRun_settled hc hs).1
      rw [hbuf, streamRun_append, hrun] at hnone
      cases hnone

/-- RESET leaves a state that meets the invariant, whatever the state before (R35). -/
theorem inv_reset {s : State} {cfg : Cfg} (hfits : fits s.degMax (deg cfg.g).toNat = true) :
    (if cfg.valid then s.cleared cfg else (s.cleared cfg).raiseConfigError).Inv := by
  cases hv : cfg.valid with
  | true =>
    have hN := Cfg.valid_seqMod hv
    have hpos : (0 : Byte).toNat < cfg.seqMod := by simp; omega
    exact (State.inv_iff_running rfl).2 ⟨⟨rfl, hv, hfits, hpos, hpos, by simp, timeOperand_idem _ _, fits_zero _,
      fits_zero _, by simp⟩, .inl rfl⟩
  | false =>
    exact ⟨by simp [hv], hfits, by simp, by simp, by simp, timeOperand_idem _ _, fits_zero _, by simp, fits_zero _,
      by simp⟩

/-- Every instruction keeps the invariant. -/
theorem exec_keeps_inv {i : Instr} {s t : State} (hinv : s.Inv) (h : exec i s = .next t) : t.Inv := by
  rcases exec_next_cases h with ⟨cfg, -, hfits, rfl⟩ | ⟨hf, -, hrest⟩
  · exact inv_reset hfits
  obtain ⟨hrun, hset⟩ := (State.inv_iff_running hf).1 hinv
  have hb : s.begin.Running := hrun.begin
  have hd := Cfg.valid_reserved hrun.valid
  suffices hboth : t.Running ∧ settled t.cfg t.rxbuf from (State.inv_iff_running hboth.1.not_fault).2 hboth
  rcases hrest with ⟨ht, -⟩ | ⟨p, -, hp, hfull, rfl⟩ | ⟨now, rx, -, hok⟩ | ⟨arrived, hrow, hcap, rfl⟩ |
    ⟨p, now, -, hp, rfl⟩ | ⟨raw, -, rfl⟩ | ⟨now, -, hok⟩
  · rw [ht]; exact ⟨hb.returns _, hset⟩
  · exact ⟨(hb.qPush hp hfull).returns _, hset⟩
  · refine ⟨hb.cycle hok, ?_⟩
    obtain ⟨-, hcfg, -⟩ := cycle_frame hok
    obtain ⟨hsettled, -⟩ := cycle_rxbuf hok
    rw [hcfg]
    exact hsettled
  · have hfilled : ({ s.begin with rxbuf := s.rxbuf ++ arrived } : State).Running := { hb with
      rxbuf_fits := by
        rcases hcap with rfl | hcap
        · simpa using hrun.rxbuf_fits
        · rw [List.length_append]; exact hcap }
    refine ⟨hfilled.tryDecode, ?_⟩
    rw [State.tryDecode_rxbuf]
    rcases hrow with ⟨-, rfl⟩ | ⟨-, rfl⟩ | ⟨-, rfl⟩ | ⟨-, rfl⟩ | ⟨b, -, rfl⟩
    · simpa [scan_settled hd hset] using hset
    all_goals exact settled_scan_snoc hd hset _
  · exact ⟨hb.submit hp now, by rw [submit_rxbuf, submit_frame]; exact hset⟩
  · exact ⟨hb.onFrameReceived raw, by simpa using hset⟩
  · exact ⟨hb.onTick hok, by rw [onTick_frame hok]; exact hset⟩

/-- Everything a step that answers a next state can do: nothing, or the oldest request, decoded. -/
theorem step_next_cases {s t : State} (h : step s = .next t) :
    t = s ∨ ∃ r rest i, s.inbox = r :: rest ∧ decode s.cfg r = .ok i ∧ exec i { s with inbox := rest } = .next t := by
  unfold step at h
  cases hin : s.inbox with
  | nil =>
    simp only [State.fetch, hin] at h
    cases h; exact .inl rfl
  | cons r rest =>
    simp only [State.fetch, hin] at h
    cases hdec : decode s.cfg r with
    | error e => rw [hdec] at h; cases h
    | ok i => rw [hdec] at h; exact .inr ⟨r, rest, i, rfl, hdec, h⟩

/-- Settles O8: the state without the request that is taken still meets the invariant, and the instruction keeps it. -/
theorem stepKeepsInvariant : Obligations.StepKeepsInvariant := by
  intro s t hinv hstep
  rcases step_next_cases hstep with rfl | ⟨r, rest, i, -, -, hexec⟩
  · exact hinv
  · have htaken : ({ s with inbox := rest } : State).Inv := { hinv with }
    exact exec_keeps_inv htaken hexec

/-! ## The two halves (R20) -/

/-- What phase 3 keeps of two endpoints at once: a relation that shows what the framer reads, kept by TRY_DECODE and
by ON_FRAME_RECEIVED, is kept by the loop. -/
theorem decodeLoop_congr {R : State → State → Prop} (hreads : ∀ s u, R s u → s.cfg = u.cfg ∧ s.rxbuf = u.rxbuf)
    (hscan : ∀ s u, R s u → R s.tryDecode u.tryDecode)
    (hframe : ∀ s u raw, R s u → R (s.onFrameReceived raw) (u.onFrameReceived raw)) (fuel : Nat) {s u : State}
    (h : R s u) : R (decodeLoop fuel s) (decodeLoop fuel u) := by
  induction fuel generalizing s u with
  | zero => exact h
  | succ n ih =>
    obtain ⟨hcfg, hbuf⟩ := hreads s u h
    rw [decodeLoop, decodeLoop, hcfg, hbuf]
    cases (scan u.cfg u.rxbuf).frame with
    | none => exact hscan s u h
    | some body => exact ih (hframe _ _ body (hscan s u h))

/-! ### The sender half does not read the receiver's number -/

/-- A state without `nextExpectedSeq` and the outputs. -/
def State.senderView (s : State) : State :=
  { s with nextExpectedSeq := 0, tx := [], deliveries := [], events := [] }

section
variable (s : State)

@[simp] theorem State.senderView_sendState : s.senderView.sendState = s.sendState := rfl
@[simp] theorem State.senderView_currentSendSeq : s.senderView.currentSendSeq = s.currentSendSeq := rfl
@[simp] theorem State.senderView_pendingTimestamp : s.senderView.pendingTimestamp = s.pendingTimestamp := rfl
@[simp] theorem State.senderView_rxbuf : s.senderView.rxbuf = s.rxbuf := rfl
@[simp] theorem State.senderView_txq : s.senderView.txq = s.txq := rfl
@[simp] theorem State.senderView_cfg : s.senderView.cfg = s.cfg := rfl
@[simp] theorem State.senderView_txqFull : s.senderView.txqFull = s.txqFull := rfl

end

/-- Two states with one sender's view differ at most in what the view leaves out. -/
theorem eq_with_of_senderView_eq {t u : State} (h : u.senderView = t.senderView) :
    u = { t with
      nextExpectedSeq := u.nextExpectedSeq
      tx := u.tx
      deliveries := u.deliveries
      events := u.events } := by
  cases t; cases u
  simp only [State.senderView, State.mk.injEq] at h ⊢
  simp only [h, and_self]

section
variable (s : State)

theorem senderView_tryDecode : s.tryDecode.senderView = s.senderView.tryDecode.senderView := rfl

theorem senderView_ackArm (q : Byte) : (s.ackArm q).senderView = (s.senderView.ackArm q).senderView := by
  unfold State.ackArm
  rw [State.senderView_sendState, State.senderView_currentSendSeq]
  split <;> rfl

/-- The data arms write nothing the sender's view shows. -/
theorem senderView_dataArm (q : Byte) (p : Bytes) : (s.dataArm q p).senderView = s.senderView := by
  unfold State.dataArm
  split
  · simp [State.senderView]
  split
  · simp [State.senderView]
  · simp [State.senderView]

theorem senderView_onFrameReceived (raw : Bytes) :
    (s.onFrameReceived raw).senderView = (s.senderView.onFrameReceived raw).senderView := by
  unfold State.onFrameReceived State.dispatchFrame
  rw [State.senderView_cfg]
  split
  · rfl
  split
  · rfl
  split
  · exact senderView_ackArm s _
  split
  · rw [senderView_dataArm, senderView_dataArm]; rfl
  · rfl

theorem senderView_submit (p : Bytes) (now : Nat) :
    (s.submit p now).senderView = (s.senderView.submit p now).senderView := by
  cases hs : s.sendState with
  | idle => rw [submit_idle hs, submit_idle (s := s.senderView) hs]; rfl
  | awaitingAck => rw [submit_awaiting hs, submit_awaiting (s := s.senderView) hs]; rfl

theorem senderView_phase4 (now : Nat) : (s.phase4 now).senderView = (s.senderView.phase4 now).senderView := by
  unfold State.phase4
  rw [State.senderView_txq, State.senderView_sendState]
  cases s.txq with
  | nil => rfl
  | cons p q =>
    cases s.sendState with
    | awaitingAck => rfl
    | idle =>
      have hpop := senderView_submit s.qPop p now
      exact hpop.trans (senderView_submit s.senderView.qPop p now).symm

end

/-- A function of the state through which the sender's view passes keeps two states that agree there in agreement. -/
theorem senderView_congr {f : State → State} (hf : ∀ s, (f s).senderView = (f s.senderView).senderView) {s u : State}
    (h : s.senderView = u.senderView) : (f s).senderView = (f u).senderView := by
  rw [hf s, h, ← hf u]

/-- What two states that agree on the sender's view agree on, of what the operations branch on. -/
theorem eq_of_senderView_eq {s u : State} (h : s.senderView = u.senderView) :
    s.fault = u.fault ∧ s.cfg = u.cfg ∧ s.rxbuf = u.rxbuf ∧ s.lastNow = u.lastNow ∧ s.degMax = u.degMax := by
  have hfield {α : Type} (f : State → α) : f s.senderView = f u.senderView := by rw [h]
  exact ⟨hfield State.fault, hfield State.cfg, hfield State.rxbuf, hfield State.lastNow, hfield State.degMax⟩

theorem senderView_phase3_congr {s u : State} (h : s.senderView = u.senderView) :
    s.phase3.senderView = u.phase3.senderView := by
  obtain ⟨-, -, hbuf, -⟩ := eq_of_senderView_eq h
  unfold State.phase3
  rw [hbuf]
  refine decodeLoop_congr (R := fun s u => s.senderView = u.senderView) (fun s u h => ?_)
    (fun _ _ h => senderView_congr senderView_tryDecode h)
    (fun _ _ raw h => senderView_congr (fun s => senderView_onFrameReceived s raw) h) _ h
  obtain ⟨-, hcfg, hbuf, -⟩ := eq_of_senderView_eq h
  exact ⟨hcfg, hbuf⟩

/-- An operation that reads only what the sender's view shows: of two endpoints that agree there, where it completes on
one it completes on the other, and the next states agree there. -/
def SenderFollows (k : State → Except Refusal State) : Prop :=
  ∀ s u t : State, s.senderView = u.senderView → k s = .ok t → ∃ t', k u = .ok t' ∧ t'.senderView = t.senderView

theorem senderFollows_of_map {k : State → Except Refusal State}
    (hk : ∀ s, (k s).map State.senderView = (k s.senderView).map State.senderView) : SenderFollows k := by
  intro s u t hsu ht
  have hmap : (k u).map State.senderView = .ok t.senderView := by rw [hk u, ← hsu, ← hk s, ht]; rfl
  cases hu : k u with
  | error r => rw [hu] at hmap; cases hmap
  | ok t' =>
    rw [hu] at hmap
    exact ⟨t', rfl, Except.ok.inj hmap⟩

theorem senderFollows_ok {f : State → State} (hf : ∀ s, (f s).senderView = (f s.senderView).senderView) :
    SenderFollows fun s => .ok (f s) :=
  senderFollows_of_map fun s => congrArg Except.ok (hf s)

theorem senderFollows_bufAppend (rx : Bytes) : SenderFollows fun s => s.bufAppend rx :=
  senderFollows_of_map fun s => by
    unfold State.bufAppend
    rw [State.senderView_cfg, State.senderView_rxbuf]
    split <;> rfl

theorem senderFollows_send (p : Bytes) : SenderFollows fun s => s.send p :=
  senderFollows_of_map fun s => by
    unfold State.send
    rw [State.senderView_cfg, State.senderView_txqFull]
    split
    · rfl
    split <;> rfl

theorem senderFollows_submitChecked (p : Bytes) (now : Nat) : SenderFollows fun s => s.submitChecked p now :=
  senderFollows_of_map fun s => by
    unfold State.submitChecked
    rw [State.senderView_cfg, State.senderView_sendState]
    split
    · rfl
    · exact congrArg Except.ok (senderView_submit s p now)

theorem senderFollows_onTick (now : Nat) : SenderFollows fun s => s.onTick now :=
  senderFollows_of_map fun s => by
    cases hs : s.sendState with
    | idle => rw [onTick_idle hs, onTick_idle (s := s.senderView) hs]; rfl
    | awaitingAck =>
      rw [onTick_awaiting hs, onTick_awaiting (s := s.senderView) hs, State.senderView_cfg,
        State.senderView_pendingTimestamp]
      split
      · rfl
      split <;> rfl

/-- A byte row completes where its byte fits, and then decodes. -/
theorem byteArrives_eq_ok {s t : State} {b : Byte} :
    s.byteArrives b = .ok t ↔ ∃ filled, s.bufAppend [b] = .ok filled ∧ t = filled.tryDecode := by
  unfold State.byteArrives
  cases s.bufAppend [b] with
  | error r => simp
  | ok filled => simp [eq_comm]

/-- The byte of a byte row is the operand's, or one the configuration names. -/
theorem senderFollows_byteArrives (b : Cfg → Byte) : SenderFollows fun s => s.byteArrives (b s.cfg) := by
  intro s u t hsu ht
  obtain ⟨filled, hfill, rfl⟩ := byteArrives_eq_ok.1 ht
  obtain ⟨-, hcfg, -⟩ := eq_of_senderView_eq hsu
  rw [hcfg] at hfill
  obtain ⟨filled', hfill', hview⟩ := senderFollows_bufAppend [b u.cfg] s u filled hsu hfill
  exact ⟨_, byteArrives_eq_ok.2 ⟨filled', hfill', rfl⟩, senderView_congr senderView_tryDecode hview⟩

theorem senderFollows_cycle (now : Nat) (rx : Bytes) : SenderFollows fun s => s.cycle now rx := by
  intro s u t hsu ht
  obtain ⟨hback, ticked, filled, htick, hfill, rfl⟩ := cycle_eq_ok.1 ht
  obtain ⟨-, hcfg, -, hlast, -⟩ := eq_of_senderView_eq hsu
  obtain ⟨ticked', htick', hticked⟩ := senderFollows_onTick now s u ticked hsu htick
  obtain ⟨filled', hfill', hfilled⟩ := senderFollows_bufAppend rx ticked ticked' filled hticked.symm hfill
  rw [hcfg, hlast] at hback
  refine ⟨_, cycle_eq_ok.2 ⟨hback, ticked', filled', htick', hfill', rfl⟩, ?_⟩
  have hphases := senderView_congr (fun s => senderView_phase4 s now) (senderView_phase3_congr hfilled)
  rw [hcfg]
  exact senderView_congr (f := fun s => { s with lastNow := timeOperand u.cfg now, result := .outputs })
    (fun _ => rfl) hphases

/-! ### The receiver half does not read the sender half -/

/-- The receiver's number, what has been delivered, the buffer, and the configuration they are read under. -/
def State.receiverView (s : State) : Cfg × Byte × List Bytes × Bytes :=
  (s.cfg, s.nextExpectedSeq, s.deliveries, s.rxbuf)

theorem receiverView_eq_iff {s u : State} : s.receiverView = u.receiverView ↔
    s.cfg = u.cfg ∧ s.nextExpectedSeq = u.nextExpectedSeq ∧ s.deliveries = u.deliveries ∧ s.rxbuf = u.rxbuf := by
  simp [State.receiverView]

theorem receiverView_submit (s : State) (p : Bytes) (now : Nat) :
    (s.submit p now).receiverView = s.receiverView := by
  rw [submit_frame]; rfl

theorem receiverView_phase4 (s : State) (now : Nat) : (s.phase4 now).receiverView = s.receiverView := by
  rcases phase4_cases s now with ⟨p, q, -, -, h⟩ | ⟨-, h⟩
  · rw [h, receiverView_submit]; rfl
  · rw [h]

theorem receiverView_onTick {s t : State} {now : Nat} (h : s.onTick now = .ok t) :
    t.receiverView = s.receiverView := by
  rw [onTick_frame h]; rfl

theorem receiverView_ackArm (s : State) (q : Byte) : (s.ackArm q).receiverView = s.receiverView := by
  rcases ackArm_cases s q with ⟨-, -, h⟩ | ⟨-, h⟩
  · rw [h]; rfl
  · rw [h]; rfl

section
variable {s u : State} (h : s.receiverView = u.receiverView)
include h

theorem receiverView_tryDecode_congr : s.tryDecode.receiverView = u.tryDecode.receiverView := by
  rw [receiverView_eq_iff] at h ⊢
  simp [h]

theorem receiverView_dataArm_congr (q : Byte) (p : Bytes) :
    (s.dataArm q p).receiverView = (u.dataArm q p).receiverView := by
  obtain ⟨hcfg, hnext, hdel, hbuf⟩ := receiverView_eq_iff.1 h
  unfold State.dataArm
  rw [hcfg, hnext, receiverView_eq_iff]
  split
  · simp [hcfg, hnext, hdel, hbuf]
  split
  · simp [hcfg, hnext, hdel, hbuf]
  · simp [hcfg, hnext, hdel, hbuf]

theorem receiverView_onFrameReceived_congr (raw : Bytes) :
    (s.onFrameReceived raw).receiverView = (u.onFrameReceived raw).receiverView := by
  obtain ⟨hcfg, -⟩ := receiverView_eq_iff.1 h
  unfold State.onFrameReceived State.dispatchFrame
  rw [hcfg]
  split
  · exact h
  split
  · exact h
  split
  · rw [receiverView_ackArm, receiverView_ackArm, h]
  split
  · exact receiverView_dataArm_congr h _ _
  · exact h

theorem receiverView_phase3_congr : s.phase3.receiverView = u.phase3.receiverView := by
  obtain ⟨-, -, -, hbuf⟩ := receiverView_eq_iff.1 h
  unfold State.phase3
  rw [hbuf]
  refine decodeLoop_congr (R := fun s u => s.receiverView = u.receiverView) (fun s u h => ?_)
    (fun _ _ h => receiverView_tryDecode_congr h) (fun _ _ raw h => receiverView_onFrameReceived_congr h raw) _ h
  obtain ⟨hcfg, -, -, hbuf⟩ := receiverView_eq_iff.1 h
  exact ⟨hcfg, hbuf⟩

theorem receiverView_bufAppend_congr {rx : Bytes} {t t' : State} (ht : s.bufAppend rx = .ok t)
    (ht' : u.bufAppend rx = .ok t') : t.receiverView = t'.receiverView := by
  obtain ⟨-, rfl⟩ := bufAppend_eq_ok.1 ht
  obtain ⟨-, rfl⟩ := bufAppend_eq_ok.1 ht'
  obtain ⟨hcfg, hnext, hdel, hbuf⟩ := receiverView_eq_iff.1 h
  exact receiverView_eq_iff.2 ⟨hcfg, hnext, hdel, congrArg (· ++ rx) hbuf⟩

end

/-- An operation whose effect on the receiver's view rests on that view alone: where it completes on two endpoints that
agree there, the next states agree there. -/
def ReceiverAgrees (k : State → Except Refusal State) : Prop :=
  ∀ s u t t' : State, s.receiverView = u.receiverView → k s = .ok t → k u = .ok t' → t.receiverView = t'.receiverView

theorem receiverAgrees_of_unchanged {k : State → Except Refusal State}
    (hk : ∀ s t, k s = .ok t → t.receiverView = s.receiverView) : ReceiverAgrees k := by
  intro s u t t' hsu ht ht'
  rw [hk s t ht, hk u t' ht', hsu]

theorem receiverAgrees_ok {f : State → State}
    (hf : ∀ s u : State, s.receiverView = u.receiverView → (f s).receiverView = (f u).receiverView) :
    ReceiverAgrees fun s => .ok (f s) := by
  rintro s u _ _ hsu ⟨⟩ ⟨⟩
  exact hf s u hsu

theorem receiverAgrees_send (p : Bytes) : ReceiverAgrees fun s => s.send p :=
  receiverAgrees_of_unchanged fun s t ht => by
    simp only [State.send] at ht
    split at ht
    · cases ht
    split at ht
    · cases ht; rfl
    · cases ht; rfl

theorem receiverAgrees_byteArrives (b : Cfg → Byte) : ReceiverAgrees fun s => s.byteArrives (b s.cfg) := by
  intro s u t t' hsu ht ht'
  obtain ⟨filled, hfill, rfl⟩ := byteArrives_eq_ok.1 ht
  obtain ⟨filled', hfill', rfl⟩ := byteArrives_eq_ok.1 ht'
  rw [(receiverView_eq_iff.1 hsu).1] at hfill
  exact receiverView_tryDecode_congr (receiverView_bufAppend_congr hsu hfill hfill')

theorem receiverAgrees_cycle (now : Nat) (rx : Bytes) : ReceiverAgrees fun s => s.cycle now rx := by
  intro s u t t' hsu ht ht'
  obtain ⟨-, ticked, filled, htick, hfill, rfl⟩ := cycle_eq_ok.1 ht
  obtain ⟨-, ticked', filled', htick', hfill', rfl⟩ := cycle_eq_ok.1 ht'
  have hticked : ticked.receiverView = ticked'.receiverView := by
    rw [receiverView_onTick htick, receiverView_onTick htick', hsu]
  have hfilled := receiverView_bufAppend_congr hticked hfill hfill'
  change (filled.phase3.phase4 now).receiverView = (filled'.phase3.phase4 now).receiverView
  rw [receiverView_phase4, receiverView_phase4, receiverView_phase3_congr hfilled]

/-! ### All instructions -/

/-- Both halves of independence, of one operation. -/
def HalvesApart (k : State → Except Refusal State) : Prop := SenderFollows k ∧ ReceiverAgrees k

/-- An operation that only returns a value, which the configuration decides. -/
theorem halvesApart_returns (r : Cfg → Result) : HalvesApart fun s => .ok (s.returns (r s.cfg)) :=
  ⟨senderFollows_ok fun _ => rfl, receiverAgrees_ok fun _ _ h => h⟩

theorem halvesApart_onFrameReceived (raw : Bytes) : HalvesApart fun s => .ok (s.onFrameReceived raw) :=
  ⟨senderFollows_ok fun s => senderView_onFrameReceived s raw,
    receiverAgrees_ok fun _ _ h => receiverView_onFrameReceived_congr h raw⟩

theorem halvesApart_byteArrives (b : Cfg → Byte) : HalvesApart fun s => s.byteArrives (b s.cfg) :=
  ⟨senderFollows_byteArrives b, receiverAgrees_byteArrives b⟩

/-- Every instruction but RESET is an operation that keeps the halves apart. -/
theorem exec_halvesApart {i : Instr} (hi : ∀ cfg, i ≠ .reset cfg) :
    ∃ k, (∀ s, exec i s = operation s k) ∧ HalvesApart k := by
  cases i with
  | reset cfg => exact absurd rfl (hi cfg)
  | send p => exact ⟨_, fun _ => rfl, senderFollows_send p, receiverAgrees_send p⟩
  | cycle now rx => exact ⟨_, fun _ => rfl, senderFollows_cycle now rx, receiverAgrees_cycle now rx⟩
  | parity bytes => exact ⟨_, fun _ => rfl, halvesApart_returns fun _ => .bit (parity bytes)⟩
  | crcRemainder bytes g => exact ⟨_, fun _ => rfl, halvesApart_returns fun _ => .remainder (crcRemainder bytes g)⟩
  | appendChecksum bytes =>
    cases bytes with
    | nil => exact ⟨fun _ => .error .emptyInput, fun _ => rfl, fun _ _ _ _ => nofun, fun _ _ _ _ _ => nofun⟩
    | cons b bs => exact ⟨_, fun _ => rfl, halvesApart_returns fun c => .bytes (appendChecksum c (b :: bs))⟩
  | verify full => exact ⟨_, fun _ => rfl, halvesApart_returns fun c => .verdict (verify c full)⟩
  | encode body => exact ⟨_, fun _ => rfl, halvesApart_returns fun c => .bytes (encodeFrame c body)⟩
  | dataframe seq p => exact ⟨_, fun _ => rfl, halvesApart_returns fun c => .bytes (dataFrame c seq p)⟩
  | ackframe seq => exact ⟨_, fun _ => rfl, halvesApart_returns fun c => .bytes (ackFrame c seq)⟩
  | tryDecode =>
    exact ⟨_, fun _ => rfl, senderFollows_ok senderView_tryDecode,
      receiverAgrees_ok fun _ _ h => receiverView_tryDecode_congr h⟩
  | submit p now =>
    refine ⟨_, fun _ => rfl, senderFollows_submitChecked p now, receiverAgrees_of_unchanged fun s t ht => ?_⟩
    rw [(submitChecked_eq_ok.1 ht).2, receiverView_submit]
  | onTick now =>
    exact ⟨_, fun _ => rfl, senderFollows_onTick now, receiverAgrees_of_unchanged fun _ _ ht => receiverView_onTick ht⟩
  | onFrameReceived raw => exact ⟨_, fun _ => rfl, halvesApart_onFrameReceived raw⟩
  | data seq p k => exact ⟨_, fun _ => rfl, halvesApart_onFrameReceived _⟩
  | ack seq p k => exact ⟨_, fun _ => rfl, halvesApart_onFrameReceived _⟩
  | reservedAckflag flag seq p k => exact ⟨_, fun _ => rfl, halvesApart_onFrameReceived _⟩
  | start => exact ⟨_, fun _ => rfl, halvesApart_byteArrives Cfg.start⟩
  | stop => exact ⟨_, fun _ => rfl, halvesApart_byteArrives Cfg.stop⟩
  | escape => exact ⟨_, fun _ => rfl, halvesApart_byteArrives Cfg.escape⟩
  | literal b => exact ⟨_, fun _ => rfl, halvesApart_byteArrives fun _ => b⟩

theorem receiverView_reset {cfg : Cfg} {s t : State} (h : exec (.reset cfg) s = .next t) :
    t.receiverView = (cfg, 0, [], []) := by
  obtain ⟨-, rfl⟩ := exec_reset_eq_next.1 h
  split <;> rfl

/-- Of two endpoints that agree on the sender's view, where an instruction completes on one it completes on the other,
and the next states agree there. -/
theorem exec_senderView {i : Instr} {s u t : State} (ht : exec i s = .next t) (hsu : s.senderView = u.senderView) :
    ∃ t', exec i u = .next t' ∧ t'.senderView = t.senderView := by
  by_cases hi : ∃ cfg, i = .reset cfg
  · obtain ⟨cfg, rfl⟩ := hi
    obtain ⟨hfits, rfl⟩ := exec_reset_eq_next.1 ht
    obtain ⟨-, -, -, -, hdeg⟩ := eq_of_senderView_eq hsu
    have hcleared := (senderView_congr (f := (State.cleared · cfg)) (fun _ => rfl) hsu).symm
    refine ⟨_, exec_reset_eq_next.2 ⟨hdeg ▸ hfits, rfl⟩, ?_⟩
    split
    · exact hcleared
    · exact senderView_congr (f := State.raiseConfigError) (fun _ => rfl) hcleared
  · obtain ⟨k, hk, hfollows, -⟩ := exec_halvesApart (not_exists.1 hi)
    rw [hk, operation_eq_next] at ht
    obtain ⟨hfault, hks⟩ := ht
    obtain ⟨t', hku, hview⟩ :=
      hfollows s.begin u.begin t (senderView_congr (f := State.begin) (fun _ => rfl) hsu) hks
    rw [(eq_of_senderView_eq hsu).1] at hfault
    exact ⟨t', by rw [hk, operation_eq_next]; exact ⟨hfault, hku⟩, hview⟩

/-- Where an instruction completes on two endpoints that agree on the receiver's view, the next states agree there. -/
theorem exec_receiverView {i : Instr} {s u t t' : State} (ht : exec i s = .next t) (ht' : exec i u = .next t')
    (hsu : s.receiverView = u.receiverView) : t.receiverView = t'.receiverView := by
  by_cases hi : ∃ cfg, i = .reset cfg
  · obtain ⟨cfg, rfl⟩ := hi
    rw [receiverView_reset ht, receiverView_reset ht']
  · obtain ⟨k, hk, -, hagrees⟩ := exec_halvesApart (not_exists.1 hi)
    rw [hk, operation_eq_next] at ht ht'
    obtain ⟨hcfg, hnext, -, hbuf⟩ := receiverView_eq_iff.1 hsu
    exact hagrees s.begin u.begin t t' (receiverView_eq_iff.2 ⟨hcfg, hnext, rfl, hbuf⟩) ht.2 ht'.2

/-- Settles O51: the state with another expected number has the sender's view of the given one, the state with another
sender half its receiver's view, and every instruction respects both views. -/
theorem halvesAreIndependent : Obligations.HalvesAreIndependent := by
  intro i s t ht
  refine ⟨fun expected => ?_, fun sender seq frame time u hu => ?_⟩
  · obtain ⟨u, hu, hview⟩ := exec_senderView (u := { s with nextExpectedSeq := expected }) ht rfl
    exact ⟨u, hu, eq_with_of_senderView_eq hview⟩
  · obtain ⟨-, hnext, hdel, hbuf⟩ := receiverView_eq_iff.1 (exec_receiverView hu ht rfl)
    exact ⟨hnext, hdel, hbuf⟩

end Sys2Proof.Machine
end

