-- ==== Sys2Proof/Proofs/Encoding.lean ====
section
/-! PROOFS. Spec/30_encoding.md: the frame builders (R89), the lengths of wire frames (R85) and short bodies (R83). -/

namespace Sys2Proof.Machine

/-! ## Frame builders (R89) -/

/-- APPEND_CHECKSUM of a sequence that is not empty completes (R105). -/
theorem exec_appendChecksum_of_ne_nil {s : State} (hf : s.fault = false) {bytes : Bytes} (hb : bytes ≠ []) :
    exec (.appendChecksum bytes) s = .next (s.begin.returns (.bytes (appendChecksum s.cfg bytes))) := by
  rw [exec_appendChecksum hf, if_neg hb]

/-- Settles O29: a header is not empty, so APPEND_CHECKSUM completes, and each builder is defined as ENCODE of its
result. -/
theorem buildersComposeEncodeAndChecksum : Obligations.BuildersComposeEncodeAndChecksum := fun seq payload _ hf =>
  ⟨⟨_, _, exec_appendChecksum_of_ne_nil hf (List.cons_ne_nil _ _), exec_encode hf _, exec_dataframe hf seq payload⟩,
    _, _, exec_appendChecksum_of_ne_nil hf (List.cons_ne_nil _ _), exec_encode hf _, exec_ackframe hf seq⟩

/-! ## Lengths (R85) -/

/-- Stuffing leaves a byte alone or puts `ESCAPE` before it (R73). -/
theorem stuffByte_length_bounds (c : Cfg) (b : Byte) : 1 ≤ (stuffByte c b).length ∧ (stuffByte c b).length ≤ 2 := by
  unfold stuffByte
  split
  · simp
  · simp

/-- A body of `B` bytes stuffs to between `B` and `2*B` bytes. -/
theorem stuff_length_bounds (c : Cfg) (body : Bytes) :
    body.length ≤ (stuff c body).length ∧ (stuff c body).length ≤ 2 * body.length := by
  induction body with
  | nil => simp [stuff]
  | cons b t ih =>
    have hlen : (stuff c (b :: t)).length = (stuffByte c b).length + (stuff c t).length := by simp [stuff]
    have hb := stuffByte_length_bounds c b
    rw [hlen, List.length_cons]
    omega

/-- The wire frame of a body: its two delimiters around the stuffed body (R72). -/
theorem encodeFrame_length_bounds (c : Cfg) (body : Bytes) :
    2 + body.length ≤ (encodeFrame c body).length ∧ (encodeFrame c body).length ≤ 2 + 2 * body.length := by
  have hlen : (encodeFrame c body).length = 2 + (stuff c body).length := by simp [encodeFrame]; omega
  have hstuff := stuff_length_bounds c body
  omega

/-- APPEND_CHECKSUM adds `W` bytes (R105). -/
@[simp] theorem appendChecksum_length (c : Cfg) (bs : Bytes) :
    (appendChecksum c bs).length = bs.length + c.checksumBytes := by
  simp [appendChecksum]

/-- The wire frame of covered bytes with their checksum block. -/
theorem encodeFrame_appendChecksum_length_bounds (c : Cfg) (bs : Bytes) :
    2 + (bs.length + c.checksumBytes) ≤ (encodeFrame c (appendChecksum c bs)).length ∧
      (encodeFrame c (appendChecksum c bs)).length ≤ 2 + 2 * (bs.length + c.checksumBytes) := by
  simpa using encodeFrame_length_bounds c (appendChecksum c bs)

theorem dataFrame_length_bounds (c : Cfg) (seq : Byte) (payload : Bytes) :
    4 + payload.length + c.checksumBytes ≤ (dataFrame c seq payload).length ∧
      (dataFrame c seq payload).length ≤ 2 + 2 * (2 + payload.length + c.checksumBytes) := by
  have h := encodeFrame_appendChecksum_length_bounds c ([0x00, seq] ++ payload)
  have hcovered : ([0x00, seq] ++ payload).length = 2 + payload.length := by simp; omega
  rw [hcovered] at h
  exact ⟨by unfold dataFrame; omega, h.2⟩

theorem ackFrame_length_bounds (c : Cfg) (seq : Byte) :
    4 + c.checksumBytes ≤ (ackFrame c seq).length ∧ (ackFrame c seq).length ≤ 2 + 2 * (2 + c.checksumBytes) := by
  have h := encodeFrame_appendChecksum_length_bounds c [0x01, seq]
  have hcovered : [0x01, seq].length = 2 := rfl
  rw [hcovered] at h
  exact ⟨by unfold ackFrame; omega, h.2⟩

/-- Settles O30: both builders answer the frame whose length stuffing bounds. -/
theorem wireFrameLengths : Obligations.WireFrameLengths := fun seq payload s hf =>
  ⟨⟨_, exec_dataframe hf seq payload, dataFrame_length_bounds s.cfg seq payload⟩,
    _, exec_ackframe hf seq, ackFrame_length_bounds s.cfg seq⟩

/-! ## Short bodies (R83) -/

/-- A body that verifies holds a covered byte before its checksum block (R106, R107). -/
theorem length_of_verify {c : Cfg} {full : Bytes} (h : verify c full = true) : c.checksumBytes + 1 ≤ full.length := by
  by_contra hshort
  simp [verify, not_le.1 hshort] at h

/-- The gate on a body without two header bytes: the checksum is tested first (R143). -/
theorem onFrameReceived_of_short {s : State} {raw : Bytes} (hlen : raw.length < 2 + s.cfg.checksumBytes) :
    s.onFrameReceived raw = s.event (if verify s.cfg raw then .dropShort else .dropChecksum) := by
  cases hv : verify s.cfg raw with
  | false => rw [onFrameReceived_of_verify_false hv]; rfl
  | true => simp [State.onFrameReceived, hv, hlen]

/-- Settles O34: the gate drops the body, and a body that verifies is at least `W + 1` bytes long. -/
theorem shortBodyDropped : Obligations.ShortBodyDropped := by
  intro raw s hf hlen
  refine ⟨?_, fun hv => ?_⟩
  · rw [exec_onFrameReceived hf, onFrameReceived_of_short (s := s.begin) hlen]
    rfl
  · have hcovered := length_of_verify hv
    omega

end Sys2Proof.Machine
end

