-- ==== Sys2Proof/Proofs/Codec.lean ====
section
/-! PROOFS. Spec/40_codec.md: PARITY (R101), CRC_REMAINDER and its shift register (R102, R103), APPEND_CHECKSUM
(R104, R105), VERIFY (R106, R107) and the laws that tie them (R108 to R111), with what a flipped bit does to the
receiver. -/

namespace Sys2Proof.Machine

open Polynomial

/-! ## The two computations (R101, R102) -/

/-- Settles O12: PARITY completes with the XOR of all bits, which is the bit count modulo 2. -/
theorem parityIsBitCountModTwo : Obligations.ParityIsBitCountModTwo := by
  intro bytes s hf
  rw [exec_parity hf, parity_eq]
  rfl

/-- Settles O13: CRC_REMAINDER completes with the remainder of the long division. -/
theorem crcIsPolynomialRemainder : Obligations.CrcIsPolynomialRemainder := fun bytes g _ hf hdeg =>
  ⟨_, exec_crcRemainder hf bytes g, crcRemainder_spec hdeg bytes⟩

/-! ## The shift register (R103) -/

@[simp] theorem natPoly_one : natPoly 1 = 1 := natPoly_two_pow 0

theorem natPoly_toNat_xor (p q : Bool) : natPoly (p ^^ q).toNat = natPoly p.toNat + natPoly q.toNat := by
  rw [← natPoly_xor]
  cases p <;> cases q <;> rfl

theorem natPoly_ite_xor (p : Bool) (a b : Nat) :
    natPoly (if p then a ^^^ b else a) = natPoly a + natPoly p.toNat * natPoly b := by
  cases p with
  | false => simp
  | true => simp [natPoly_xor]

/-- Cutting off the one bit above the low `d` bits. -/
theorem natPoly_mod_two_pow {n d : Nat} (h : n < 2 ^ (d + 1)) :
    natPoly (n % 2 ^ d) = natPoly n + natPoly (n.testBit d).toNat * X ^ d := by
  have htop : n = (n.testBit d).toNat <<< d + n % 2 ^ d := by
    have hquot : n / 2 ^ d < 2 := Nat.div_lt_of_lt_mul (by rwa [← pow_succ])
    rw [Nat.toNat_testBit, Nat.mod_eq_of_lt hquot, Nat.shiftLeft_eq, Nat.div_add_mod']
  have hsum := natPoly_shiftLeft_add (a := (n.testBit d).toNat) (Nat.mod_lt n (Nat.two_pow_pos d))
  rw [← htop] at hsum
  rw [hsum, add_right_comm, CharTwo.add_self_eq_zero, zero_add]

theorem natPoly_double_add_bit (M : Nat) (b : Bool) :
    natPoly (2 * M + b.toNat) = natPoly M * X + natPoly b.toNat := by
  have hsum := natPoly_shiftLeft_add (a := M) (k := 1) b.toNat_lt
  rwa [Nat.shiftLeft_eq, pow_one, pow_one, mul_comm M] at hsum

/-- The register holds the remainder of the message read so far, `M` as an integer (R102): it has `d` bits and is
`M * x^d` up to a multiple of `G`. -/
def RegisterHolds (g M r : Nat) : Prop :=
  r < 2 ^ (deg g).toNat ∧ natPoly g ∣ natPoly M * X ^ (deg g).toNat - natPoly r

/-- A register of `deg(G)` bits has one content for each residue. -/
theorem RegisterHolds.unique {g M r r' : Nat} (h : 1 ≤ deg g) (hr : RegisterHolds g M r)
    (hr' : RegisterHolds g M r') : r = r' := by
  obtain ⟨hlt, hdvd⟩ := hr
  obtain ⟨hlt', hdvd'⟩ := hr'
  have hdiff : natPoly g ∣ natPoly (r ^^^ r') := by
    have hsub := dvd_sub hdvd' hdvd
    rwa [sub_sub_sub_cancel_left, CharTwo.sub_eq_add, ← natPoly_xor] at hsub
  have hdegree : (natPoly (r ^^^ r')).degree < (natPoly g).degree := by
    rw [natPoly_degree_deg h]
    exact natPoly_degree_lt.2 (Nat.xor_lt_two_pow hlt hlt')
  exact Nat.xor_eq_zero_iff.1 (natPoly_eq_zero.1 (eq_zero_of_dvd_of_degree_lt hdiff hdegree))

theorem registerHolds_crcRemainder {g : Nat} (h : 1 ≤ deg g) (bs : Bytes) :
    RegisterHolds g (beNat bs) (crcRemainder bs g) := by
  obtain ⟨hlt, hmod⟩ := crcRemainder_spec h bs
  refine ⟨hlt, ?_⟩
  rw [hmod, bytesPoly_eq, EuclideanDomain.mod_eq_sub_mul_div, sub_sub_cancel]
  exact dvd_mul_right _ _

/-- One shift: the bit enters above the register, and `G` is subtracted where the two top bits differ. -/
theorem natPoly_crcShift {g r : Nat} (h : 1 ≤ deg g) (hr : r < 2 ^ (deg g).toNat) (b : Bool) :
    natPoly (crcShift g (deg g).toNat r b) = natPoly r * X + natPoly b.toNat * X ^ (deg g).toNat
      + natPoly (r.testBit ((deg g).toNat - 1) ^^ b).toNat * natPoly g := by
  have hpos : 1 ≤ (deg g).toNat := by omega
  have hlow : natPoly (g % 2 ^ (deg g).toNat) = natPoly g + X ^ (deg g).toNat := by
    rw [natPoly_mod_two_pow (deg_bounds h).2, testBit_deg h, Bool.toNat_true, natPoly_one, one_mul]
  generalize (deg g).toNat = d at *
  have hshifted : natPoly ((r <<< 1) % 2 ^ d) = natPoly r * X + natPoly (r.testBit (d - 1)).toNat * X ^ d := by
    have hdouble : r <<< 1 < 2 ^ (d + 1) := by rw [Nat.shiftLeft_eq, pow_succ]; omega
    have htop : (r <<< 1).testBit d = r.testBit (d - 1) := by simp [Nat.testBit_shiftLeft, hpos]
    rw [natPoly_mod_two_pow hdouble, htop, natPoly_shiftLeft, pow_one]
  have htwo : (X : (ZMod 2)[X]) ^ d + X ^ d = 0 := CharTwo.add_self_eq_zero _
  rw [crcShift, natPoly_ite_xor, hshifted, hlow, natPoly_toNat_xor]
  linear_combination natPoly (r.testBit (d - 1)).toNat * htwo

theorem crcShift_lt {g d r : Nat} (b : Bool) : crcShift g d r b < 2 ^ d := by
  have hpos : 0 < 2 ^ d := by positivity
  unfold crcShift
  split
  · exact Nat.xor_lt_two_pow (Nat.mod_lt _ hpos) (Nat.mod_lt _ hpos)
  · exact Nat.mod_lt _ hpos

/-- One shift takes in one more bit of the message. -/
theorem RegisterHolds.shift {g M r : Nat} (h : 1 ≤ deg g) (hr : RegisterHolds g M r) (b : Bool) :
    RegisterHolds g (2 * M + b.toNat) (crcShift g (deg g).toNat r b) := by
  obtain ⟨hlt, hdvd⟩ := hr
  refine ⟨crcShift_lt b, ?_⟩
  rw [natPoly_double_add_bit, natPoly_crcShift h hlt b]
  generalize natPoly (r.testBit _ ^^ b).toNat = quotient
  convert dvd_sub (hdvd.mul_right X) (dvd_mul_left (natPoly g) quotient) using 1
  ring

/-- The eight shifts of a byte, bit 7 first: after `n` of them the top `n` bits are in. -/
theorem RegisterHolds.shiftByte {g M r : Nat} (h : 1 ≤ deg g) (hr : RegisterHolds g M r) (b : Byte) {n : Nat}
    (hn : n ≤ 8) :
    RegisterHolds g (M * 2 ^ n + b.toNat / 2 ^ (8 - n))
      ((List.range n).foldl (fun r i => crcShift g (deg g).toNat r (b.getLsbD (7 - i))) r) := by
  induction n with
  | zero => simpa [Nat.div_eq_of_lt b.isLt] using hr
  | succ n ih =>
    rw [List.range_succ, List.foldl_concat]
    have hbit : b.toNat / 2 ^ (8 - (n + 1)) = 2 * (b.toNat / 2 ^ (8 - n)) + (b.getLsbD (7 - n)).toNat := by
      rw [show 8 - n = 7 - n + 1 by omega, show 8 - (n + 1) = 7 - n by omega, pow_succ, ← Nat.div_div_eq_div_mul,
        ← BitVec.testBit_toNat, Nat.toNat_testBit]
      omega
    have hnext := (ih (by omega)).shift h (b.getLsbD (7 - n))
    rw [hbit]
    convert hnext using 1
    ring

/-- The bytes of a message, one after another. -/
theorem RegisterHolds.shiftBytes {g M r : Nat} (h : 1 ≤ deg g) (hr : RegisterHolds g M r) (bs : Bytes) :
    RegisterHolds g (bs.foldl (fun m b => m * 256 + b.toNat) M)
      (bs.foldl
        (fun r b => (List.range 8).foldl (fun r i => crcShift g (deg g).toNat r (b.getLsbD (7 - i))) r) r) := by
  induction bs generalizing M r with
  | nil => exact hr
  | cons b t ih => exact ih (by simpa using hr.shiftByte h b le_rfl)

/-- The shift register ends in the remainder (R103). -/
theorem crcSerial_eq_crcRemainder {g : Nat} (h : 1 ≤ deg g) (bs : Bytes) : crcSerial bs g = crcRemainder bs g := by
  have hempty : RegisterHolds g 0 0 := ⟨by positivity, by simp⟩
  exact (hempty.shiftBytes h bs).unique h (registerHolds_crcRemainder h bs)

/-- Settles O15: both leave the one reduced residue of the message. -/
theorem crcShiftRegisterAgrees : Obligations.CrcShiftRegisterAgrees := by
  intro bytes g s hf hdeg
  rw [exec_crcRemainder hf, crcSerial_eq_crcRemainder hdeg]
  rfl

/-! ## APPEND_CHECKSUM and VERIFY (R104 to R108) -/

/-- Settles O16: the block of each codec. -/
theorem checksumBlockIsLeftAligned : Obligations.ChecksumBlockIsLeftAligned := by
  intro bytes s hf
  refine ⟨fun hnil => by rw [exec_appendChecksum hf, if_pos hnil], fun hne =>
    ⟨_, exec_appendChecksum_of_ne_nil hf hne, checksumBlock_length _ _,
      fun hpar => checksumBlock_parity hpar bytes, fun hcrc hdeg => ?_⟩⟩
  obtain ⟨hlt, hmod⟩ := crcRemainder_spec hdeg bytes
  have hvalue : checksumValue s.cfg bytes = crcRemainder bytes s.cfg.g := by simp [checksumValue, hcrc]
  refine ⟨_, ?_, ?_, hvalue ▸ beNat_checksumBlock (.inr hdeg) bytes⟩
  · rwa [checksumBits_of_crc hcrc]
  · rwa [checksumBits_of_crc hcrc]

/-- Settles O17: VERIFY completes with the verdict of its rule. -/
theorem verifyFollowsItsRule : Obligations.VerifyFollowsItsRule := fun full _ hf hv =>
  ⟨_, exec_verify hf full, verify_iff (Cfg.valid_codec hv) full⟩

/-- Settles O18: both operations complete, and the verdict on an appended checksum is true. -/
theorem appendedChecksumVerifies : Obligations.AppendedChecksumVerifies := by
  intro bytes s hf hv hne
  refine ⟨_, exec_appendChecksum_of_ne_nil hf hne, ?_⟩
  rw [exec_verify hf, verify_appendChecksum (Cfg.valid_codec hv) hne]
  rfl

/-- What the Parity check accepts has even weight (R107), and a last byte of zero pad bits. -/
theorem verifyParity_append_iff (covered : Bytes) (last : Byte) :
    verifyParity (covered ++ [last]) = true ↔
      onesCount (covered ++ [last]) % 2 = 0 ∧ (last = 0x00 ∨ last = 0x80) := by
  have hzero : onesCount [0x00] = 0 := by decide
  have hone : onesCount [0x80] = 1 := by decide
  rw [verifyParity_iff, onesCount_append]
  constructor
  · rintro (⟨rfl, heven⟩ | ⟨rfl, hodd⟩)
    · exact ⟨by omega, .inl rfl⟩
    · exact ⟨by omega, .inr rfl⟩
  · rintro ⟨hsum, rfl | rfl⟩
    · exact .inl ⟨rfl, by omega⟩
    · exact .inr ⟨rfl, by omega⟩

/-- VERIFY under Parity: two bytes or more, of even weight, the last with zero pad bits (R107, R110). -/
theorem verify_parity_iff {c : Cfg} (h : c.codec = .parity) (full : Bytes) :
    verify c full = true ↔ 2 ≤ full.length ∧ onesCount full % 2 = 0 ∧
      (full.getLast? = some 0x00 ∨ full.getLast? = some 0x80) := by
  obtain ⟨-, hbytes, -⟩ := widths_of_parity h
  by_cases hlen : 2 ≤ full.length
  · obtain ⟨covered, last, rfl⟩ := exists_append_last (show 1 ≤ full.length by omega)
    have hverify : verify c (covered ++ [last]) = verifyParity (covered ++ [last]) := by
      simp only [verify, h, hbytes]
      exact if_neg (by omega)
    rw [hverify, verifyParity_append_iff, and_iff_right hlen, List.getLast?_concat, Option.some_inj, Option.some_inj]
  · have hshort : full.length < c.checksumBytes + 1 := by omega
    simp only [verify, if_pos hshort, hlen, false_and, Bool.false_eq_true]

/-- VERIFY under CRC: a covered byte, and a remainder of zero (R106). -/
theorem verify_crc_iff {c : Cfg} (h : c.codec = .crc) (full : Bytes) :
    verify c full = true ↔ c.checksumBytes + 1 ≤ full.length ∧ crcRemainder full c.g = 0 := by
  simp [verify, h]

/-- VERIFY completes with the verdict of whatever its test amounts to. -/
theorem exec_verify_of_iff {s : State} (hf : s.fault = false) {full : Bytes} {P : Prop} [Decidable P]
    (h : verify s.cfg full = true ↔ P) :
    exec (.verify full) s = .next { s.begin with result := .verdict (decide P) } := by
  have hverdict : verify s.cfg full = decide P := by rw [Bool.eq_iff_iff, decide_eq_true_iff, h]
  rw [exec_verify hf, hverdict]
  rfl

/-! ## One flipped bit (R109) -/

/-- A flipped bit is a whole power of `x` on top of a multiple of `G`: it is missed only where `G` divides that
power. -/
theorem dvd_flipBit_appendChecksum_iff {c : Cfg} (hc : c.codec = .crc) (h : 1 ≤ deg c.g) (bs : Bytes) {k i : Nat}
    (hk : k < (appendChecksum c bs).length) (hi : i < 8) :
    natPoly c.g ∣ bytesPoly (flipBit (appendChecksum c bs) k i) * X ^ c.checksumBits ↔
      c.g = 2 ^ c.checksumBits := by
  obtain ⟨m, hm⟩ := natPoly_dvd_appendChecksum hc h bs
  have hmultiple : natPoly c.g ∣ bytesPoly (appendChecksum c bs) * X ^ c.checksumBits :=
    hm ▸ Dvd.intro _ (mul_assoc _ _ _).symm
  rw [bytesPoly_flipBit _ k i hk hi, add_mul, dvd_add_right hmultiple, ← pow_add]
  constructor
  · rw [checksumBits_of_crc hc]
    exact eq_two_pow_of_dvd_X_pow h
  · intro hg
    rw [hg, natPoly_two_pow]
    exact pow_dvd_pow X (Nat.le_add_left _ _)

/-- One flipped bit is accepted under CRC with a generator of one term only (R109). -/
theorem verify_flipBit_appendChecksum_iff {c : Cfg} (h : c.codec = .parity ∨ 1 ≤ deg c.g) {bs : Bytes}
    (hb : bs ≠ []) {k i : Nat} (hk : k < (appendChecksum c bs).length) (hi : i < 8) :
    verify c (flipBit (appendChecksum c bs) k i) = true ↔ c.codec = .crc ∧ c.g = 2 ^ c.checksumBits := by
  have hgood := verify_appendChecksum h hb
  cases hc : c.codec with
  | parity =>
    have hodd := onesCount_flipBit _ k i hk hi
    rw [verify_parity_iff hc] at hgood ⊢
    simp only [reduceCtorEq, false_and, iff_false]
    omega
  | crc =>
    have hdeg : 1 ≤ deg c.g := h.resolve_left (by simp [hc])
    have hlen := length_of_verify hgood
    rw [verify_crc_iff hc, flipBit_length, crcRemainder_eq_zero_iff hdeg, ← checksumBits_of_crc hc,
      dvd_flipBit_appendChecksum_iff hc hdeg bs hk hi,
      and_iff_right hlen, and_iff_right rfl]

/-- Settles O19: VERIFY completes on the damaged sequence with the verdict of R109. -/
theorem singleBitErrorsDetected : Obligations.SingleBitErrorsDetected := by
  intro bytes s hf hv hne
  refine ⟨_, exec_appendChecksum_of_ne_nil hf hne, fun k i hk hi =>
    exec_verify_of_iff hf (verify_flipBit_appendChecksum_iff (Cfg.valid_codec hv) hne hk hi)⟩

/-- Settles O43: the damaged body does not verify, so the gate of R143 drops it. -/
theorem flippedBitHasNoEffect : Obligations.FlippedBitHasNoEffect := by
  intro header payload s hf hv hheader hdetects
  have hne : header ++ payload ≠ [] := List.append_ne_nil_of_left_ne_nil (by rintro rfl; simp at hheader) _
  refine ⟨_, exec_appendChecksum_of_ne_nil hf hne, fun k i hk hi => ?_⟩
  have hdamaged : verify s.cfg (flipBit (appendChecksum s.cfg (header ++ payload)) k i) = false :=
    Bool.eq_false_iff.2 (mt (verify_flipBit_appendChecksum_iff (Cfg.valid_codec hv) hne hk hi).1 hdetects)
  rw [exec_onFrameReceived hf, onFrameReceived_of_verify_false (s := s.begin) hdamaged]
  rfl

/-! ## The generator `x + 1` (R110) -/

theorem natPoly_three : natPoly 3 = X - C 1 := by
  have hsplit : (3 : Nat) = 2 ^ 1 ^^^ 2 ^ 0 := rfl
  rw [hsplit, natPoly_xor, natPoly_two_pow, natPoly_two_pow, pow_one, pow_zero, map_one, CharTwo.sub_eq_add]

/-- At `x = 1` every bit of a byte counts 1. -/
theorem eval_one_natPoly_byte (b : Byte) : (natPoly b.toNat).eval 1 = (onesCount [b] : ZMod 2) := by
  simp [natPoly_byte, Finset.sum_range_succ, onesCount, List.range_succ, List.countP_cons,
    apply_ite (eval (1 : ZMod 2))]
  ring

theorem eval_one_bytesPoly (bs : Bytes) : (bytesPoly bs).eval 1 = (onesCount bs : ZMod 2) := by
  induction bs with
  | nil => simp [bytesPoly, onesCount]
  | cons b t ih =>
    have hb : beNat [b] = b.toNat := by simp [beNat]
    rw [← List.singleton_append, bytesPoly_eq, natPoly_beNat_append, ← bytesPoly_eq t, hb, onesCount_append]
    simp [ih, eval_one_natPoly_byte]

/-- The bit count modulo 2, as a number and as an element of the field. -/
theorem natCast_parity (bs : Bytes) : ((parity bs).toNat : ZMod 2) = (onesCount bs : ZMod 2) := by
  have hmod : (parity bs).toNat = onesCount bs % 2 := by
    rw [parity_eq]
    rcases Nat.mod_two_eq_zero_or_one (onesCount bs) with h | h <;> simp [h]
  rw [hmod, ZMod.natCast_mod]

theorem natPoly_toNat (p : Bool) : natPoly p.toNat = C (p.toNat : ZMod 2) := by
  cases p with
  | false => simp
  | true => simp

/-- The remainder by `x + 1` is the value at 1, which counts the bits. -/
theorem crcRemainder_three (bs : Bytes) : crcRemainder bs 3 = (parity bs).toNat := by
  have hdeg : 1 ≤ deg 3 := one_le_deg_iff.2 (by decide)
  apply natPoly_injective
  rw [(crcRemainder_spec hdeg bs).2, natPoly_three, mod_X_sub_C_eq_C_eval, natPoly_toNat, natCast_parity]
  simp [eval_one_bytesPoly]

section
variable {cp cc : Cfg} (hp : cp.codec = .parity) (hc : cc.codec = .crc) (hg : cc.g = 3)
include hc hg

theorem checksumBits_of_three : cc.checksumBits = 1 := by
  rw [checksumBits_of_crc hc, hg]
  decide

theorem verify_three_iff (full : Bytes) : verify cc full = true ↔ 2 ≤ full.length ∧ onesCount full % 2 = 0 := by
  have hbytes : cc.checksumBytes = 1 := by simp [Cfg.checksumBytes, checksumBits_of_three hc hg]
  rw [verify_crc_iff hc, hbytes, hg, crcRemainder_three, parity_eq]
  simp

include hp

/-- Both codecs append the same block: the widths and the value agree. -/
theorem appendChecksum_parity_eq_three (bs : Bytes) : appendChecksum cp bs = appendChecksum cc bs := by
  have hbits : cp.checksumBits = cc.checksumBits := by rw [checksumBits_of_parity hp, checksumBits_of_three hc hg]
  have hbytes : cp.checksumBytes = cc.checksumBytes := by simp only [Cfg.checksumBytes, hbits]
  have hpad : cp.padBits = cc.padBits := by simp only [Cfg.padBits, hbytes, hbits]
  have hvalue : checksumValue cp bs = checksumValue cc bs := by
    simp only [checksumValue, hp, hc, hg, crcRemainder_three]
  simp only [appendChecksum, checksumBlock, hbytes, hpad, hvalue]

end

/-- Settles O20: the remainder is the parity, and VERIFY differs in the test of the last byte. -/
theorem parityIsCrcOfXPlusOne : Obligations.ParityIsCrcOfXPlusOne := by
  rintro bytes s sp sc hf hsp hsc
  have hp : sp.fault = false ∧ sp.cfg.codec = .parity := by rw [hsp]; exact ⟨hf, rfl⟩
  have hc : sc.fault = false ∧ sc.cfg.codec = .crc ∧ sc.cfg.g = 3 := by rw [hsc]; exact ⟨hf, rfl, rfl⟩
  obtain ⟨hpf, hpar⟩ := hp
  obtain ⟨hcf, hcrc, hg⟩ := hc
  refine ⟨⟨_, exec_parity hf bytes, ?_⟩, fun hne => ⟨_, exec_appendChecksum_of_ne_nil hpf hne, ?_⟩,
    exec_verify_of_iff hcf (verify_three_iff hcrc hg bytes), exec_verify_of_iff hpf (verify_parity_iff hpar bytes)⟩
  · rw [exec_crcRemainder hf, crcRemainder_three]
    rfl
  · rw [appendChecksum_parity_eq_three hpar hcrc hg]
    exact exec_appendChecksum_of_ne_nil hcf hne

/-! ## A generator of one term (R111) -/

theorem deg_two_pow (d : Nat) : deg (2 ^ d) = d := by
  rw [deg_eq_log2 (by positivity), Nat.log2_two_pow]

theorem one_le_deg_two_pow {d : Nat} (h : 1 ≤ d) : 1 ≤ deg (2 ^ d) := by
  rw [deg_two_pow]
  exact_mod_cast h

/-- Every message times `x^d` is a multiple of `x^d`. -/
theorem crcRemainder_two_pow {d : Nat} (h : 1 ≤ d) (bs : Bytes) : crcRemainder bs (2 ^ d) = 0 := by
  rw [crcRemainder_eq_zero_iff (one_le_deg_two_pow h), natPoly_two_pow, deg_two_pow]
  exact Dvd.intro_left _ rfl

theorem blockBytes_zero (w : Nat) : blockBytes w 0 = List.replicate w 0 := by
  simp [blockBytes]

/-- Validity asks of the codec only that a CRC generator has degree at least 1 (R6). -/
theorem valid_eq_valid_parity {c : Cfg} (h : 1 ≤ deg c.g) : c.valid = ({ c with codec := .parity } : Cfg).valid := by
  simp [Cfg.valid, h, Cfg.reservedDistinct, Cfg.timeoutFits]

section
variable {c : Cfg} {d : Nat} (hd : 1 ≤ d) (hc : c.codec = .crc) (hg : c.g = 2 ^ d)
include hc hg

theorem checksumBytes_of_two_pow : c.checksumBytes = (d + 7) / 8 := by
  rw [Cfg.checksumBytes, checksumBits_of_crc hc, hg, deg_two_pow, Int.toNat_natCast]

include hd

theorem appendChecksum_two_pow (bs : Bytes) : appendChecksum c bs = bs ++ List.replicate ((d + 7) / 8) 0 := by
  have hvalue : checksumValue c bs = 0 := by simp only [checksumValue, hc, hg, crcRemainder_two_pow hd]
  rw [appendChecksum, checksumBlock, hvalue, Nat.zero_shiftLeft, blockBytes_zero, checksumBytes_of_two_pow hc hg]

theorem verify_two_pow_iff (full : Bytes) : verify c full = true ↔ (d + 7) / 8 + 1 ≤ full.length := by
  rw [verify_crc_iff hc, checksumBytes_of_two_pow hc hg, hg, crcRemainder_two_pow hd, and_iff_left rfl]

end

/-- Settles O21: the generator divides every message times `x^d`. -/
theorem singleTermGeneratorDetectsNothing : Obligations.SingleTermGeneratorDetectsNothing := by
  intro bytes d s hf hd hcrc hg
  refine ⟨valid_eq_valid_parity (hg ▸ one_le_deg_two_pow hd), ?_, fun hne => ?_,
    exec_verify_of_iff hf (verify_two_pow_iff hd hcrc hg bytes)⟩
  · rw [exec_crcRemainder hf, crcRemainder_two_pow hd]
    rfl
  · rw [exec_appendChecksum_of_ne_nil hf hne, appendChecksum_two_pow hd hcrc hg]
    rfl

end Sys2Proof.Machine
end

