-- ==== Sys2Proof/Proofs/Framer.lean ====
section
/-! PROOFS. Spec/41_framer.md: ENCODE (R121), one call of TRY_DECODE (R122 to R125), the round trip (R126), and a
stream fed in batches (R127, R128). -/

namespace Sys2Proof.Machine

/-! ## ENCODE (R121) -/

theorem Cfg.isReserved_iff {c : Cfg} {b : Byte} : c.isReserved b = true ↔ b = c.start ∨ b = c.stop ∨ b = c.escape := by
  simp [Cfg.isReserved, or_assoc]

/-- `stuff1`, with the three reserved bytes named (R73). -/
theorem stuffByte_eq (c : Cfg) (b : Byte) :
    stuffByte c b = if b = c.start ∨ b = c.stop ∨ b = c.escape then [c.escape, b] else [b] := by
  simp only [stuffByte, Cfg.isReserved_iff]

theorem stuff_cons (c : Cfg) (b : Byte) (t : Bytes) : stuff c (b :: t) = stuffByte c b ++ stuff c t :=
  List.flatMap_cons

/-- Stuffing adds one byte per reserved byte. -/
theorem stuff_length (c : Cfg) (body : Bytes) : (stuff c body).length = body.length + body.countP c.isReserved := by
  induction body with
  | nil => rfl
  | cons b t ih =>
    rw [stuff_cons, List.length_append, ih, stuffByte, List.countP_cons, List.length_cons]
    cases c.isReserved b with
    | false => simp; omega
    | true => simp; omega

/-- Settles O22: ENCODE answers the stuffed body between its delimiters. -/
theorem encodeStuffsReservedBytes : Obligations.EncodeStuffsReservedBytes := by
  intro body s hf
  refine ⟨_, exec_encode hf body, ?_, ?_⟩
  · simp only [encodeFrame, stuff, List.flatMap_def, funext (stuffByte_eq s.cfg)]
  · simp only [encodeFrame, List.length_append, stuff_length, List.length_singleton]
    omega

/-! ## The round trip (R126) -/

/-- Settles O23: the hunt phase skips the garbage, and the collect phase takes the stuffed body back. -/
theorem encodedFrameDecodesBack : Obligations.EncodedFrameDecodesBack := by
  intro body garbage tail s hf hdistinct hstart hescape
  refine ⟨_, exec_encode hf body, ?_, stuff s.cfg body, rfl, unescaped_stuff hdistinct body⟩
  have hscan := scan_encodeFrame hdistinct garbage body tail hstart hescape
  rw [exec_tryDecode (by exact hf), State.tryDecode_eq]
  simp only [State.begin_cfg, State.begin_rxbuf, hscan]
  simp [scanEvents, scanResult, State.begin]

/-! ## One call of TRY_DECODE (R122 to R125) -/

/-- Settles O24: the call is one `scan` of the buffer, and what it takes and reports is told by the streaming machine
in each of its two answers. -/
theorem tryDecodeTakesFirstFrame : Obligations.TryDecodeTakesFirstFrame := by
  intro s hf
  have hreports := scan_reports s.cfg s.rxbuf
  cases hframe : (scan s.cfg s.rxbuf).frame with
  | some body =>
    obtain ⟨taken, htaken, hlen, hrun, -⟩ := scan_frame _ _ _ hframe
    refine ⟨_, taken, exec_tryDecode hf, by simpa using htaken, rfl, by simpa using scanEvents_framing _,
      .inl ⟨body, _, _, ?_, hlen, hrun, ?_, scanEvents_eq _⟩⟩
    · simp [scanResult, hframe]
    · simp [hreports, hframe]
  | none =>
    obtain ⟨hsettled, ⟨taken, htaken⟩, hrun, hemits, -⟩ := scan_none _ _ hframe
    rw [hframe] at hreports
    refine ⟨_, taken, exec_tryDecode hf, by simpa using htaken, rfl, by simpa using scanEvents_framing _,
      .inr ⟨?_, by simpa using hsettled, ?_, by rw [hreports], by rw [hreports]; exact scanEvents_eq _⟩⟩
    · simp [scanResult, hframe]
    · rw [State.tryDecode_rxbuf, State.begin_rxbuf, State.begin_cfg, ← hrun, ← hemits]

/-! ## A stream fed in batches (R127, R128) -/

theorem Stream.collecting_iff {m : Stream} : m.collecting ↔ ∃ acc, m = .collect acc ∨ m = .collectEsc acc := by
  cases m <;> simp [Stream.collecting]

/-- The three forms of a settled buffer are the states of the machine over it, the two collecting ones together. -/
theorem settled_shows_machine {c : Cfg} (hc : c.reservedDistinct = true) {buf : Bytes} (hs : settled c buf) :
    (buf = [] ↔ (streamRun c .hunt buf).1 = .hunt) ∧ (buf = [c.escape] ↔ (streamRun c .hunt buf).1 = .huntEsc) ∧
      (buf.head? = some c.start ↔ (streamRun c .hunt buf).1.collecting) := by
  obtain ⟨-, hne, -⟩ := Cfg.reservedDistinct_iff.1 hc
  obtain ⟨-, -, ⟨rfl, hm⟩ | ⟨rfl, hm⟩ | ⟨hhead, hm⟩⟩ := streamRun_settled hc hs
  · simp [hm, Stream.collecting]
  · simp [hm, Stream.collecting, Ne.symm hne]
  · have hnil : buf ≠ [] := by rintro rfl; simp at hhead
    have hesc : buf ≠ [c.escape] := by rintro rfl; exact hne (by simpa using hhead.symm)
    obtain ⟨acc, h | h⟩ := Stream.collecting_iff.1 hm <;> simp [h, hnil, hesc, hhead, Stream.collecting]

/-- The machine's last state over an open body tells what it had collected before. -/
theorem streamRun_openBody_injective {c : Cfg} {l : Bytes} (h : openBody c l) {a a' : Bytes}
    (heq : streamRun c (.collect a) l = streamRun c (.collect a') l) : a = a' := by
  obtain ⟨m, hm | hm⟩ := streamRun_openBody_acc c l h <;> simpa [hm] using heq

/-- A settled buffer is no longer than its machine state asks: a `START` inside it is escaped, and so in the body
collected. -/
theorem settled_append_eq {c : Cfg} (hc : c.reservedDistinct = true) {pre buf : Bytes} (hlong : settled c (pre ++ buf))
    (hshort : settled c buf) (hrun : streamRun c .hunt (pre ++ buf) = streamRun c .hunt buf) : pre ++ buf = buf := by
  obtain ⟨-, hne, -⟩ := Cfg.reservedDistinct_iff.1 hc
  obtain ⟨hnil, hesc, -⟩ := settled_shows_machine hc hlong
  rw [hrun] at hnil hesc
  obtain ⟨-, -, ⟨rfl, hm⟩ | ⟨rfl, hm⟩ | ⟨hhead, hm⟩⟩ := streamRun_settled hc hshort
  · exact hnil.2 hm
  · exact hesc.2 hm
  · obtain ⟨u, rfl⟩ := List.head?_eq_some_iff.1 hhead
    cases pre with
    | nil => rfl
    | cons b w =>
      obtain h | h | ⟨hb, hopen⟩ := hlong
      · simp at h
      · simp at h
      · obtain rfl : b = c.start := by simpa using hb
        obtain ⟨hu, acc, hacc, hinner⟩ := inner_start hne w u [] hopen
        rw [List.cons_append, streamRun_cons, streamRun_cons, streamByte_start_hunt hne] at hrun
        exact absurd (streamRun_openBody_injective hu (hinner.symm.trans (by simpa [Prod.ext_iff] using hrun))) hacc

/-- Two settled ends of one stream over which the machine reaches one state are the same. -/
theorem settled_suffix_unique {c : Cfg} (hc : c.reservedDistinct = true) {stream b₁ b₂ : Bytes} (h₁ : b₁ <:+ stream)
    (h₂ : b₂ <:+ stream) (hs₁ : settled c b₁) (hs₂ : settled c b₂)
    (hrun : streamRun c .hunt b₁ = streamRun c .hunt b₂) : b₁ = b₂ := by
  obtain ⟨pre, rfl⟩ | ⟨pre, rfl⟩ := List.suffix_or_suffix_of_suffix h₁ h₂
  · exact (settled_append_eq hc hs₂ hs₁ hrun.symm).symm
  · exact settled_append_eq hc hs₁ hs₂ hrun

/-- Settles O25: feeding batches runs the machine over the whole stream, and the buffer left is settled. -/
theorem streamingMachineExtractsSameFrames : Obligations.StreamingMachineExtractsSameFrames := by
  intro batches s hdistinct hempty
  have hstart : settled s.cfg s.rxbuf := .inl hempty
  obtain ⟨hemits, hgarbage, -⟩ := streamRun_settled hdistinct hstart
  obtain ⟨hframes, -, hsettled, hrun, -⟩ := s.feed_spec batches ⟨hemits, hgarbage⟩ hstart
  rw [hempty, List.nil_append] at hframes hrun
  have hshows := settled_shows_machine hdistinct hsettled
  rw [hrun, Stream.collecting_iff] at hshows
  exact ⟨hframes, hshows⟩

/-- Settles O26: frames and garbage are the machine's over the whole stream, and the buffer is the settled end of the
stream that shows its state. -/
theorem framesIndependentOfChunking : Obligations.FramesIndependentOfChunking := by
  intro first second s hdistinct hstart hflatten
  obtain ⟨hemits, hgarbage, -⟩ := streamRun_settled hdistinct hstart
  obtain ⟨frames₁, -, settled₁, run₁, garbage₁, pre₁, suffix₁⟩ := s.feed_spec first ⟨hemits, hgarbage⟩ hstart
  obtain ⟨frames₂, -, settled₂, run₂, garbage₂, pre₂, suffix₂⟩ := s.feed_spec second ⟨hemits, hgarbage⟩ hstart
  rw [hflatten] at frames₁ run₁ garbage₁ suffix₁
  refine ⟨frames₁.trans frames₂.symm, ?_, garbage₁.trans garbage₂.symm⟩
  exact settled_suffix_unique hdistinct ⟨pre₁, suffix₁.symm⟩ ⟨pre₂, suffix₂.symm⟩ settled₁ settled₂
    (run₁.trans run₂.symm)

end Sys2Proof.Machine
end

