-- ==== Sys2Proof/Proofs/Arq.lean ====
section
/-! PROOFS. Spec/42_arq.md: what moves the two sequence numbers (R153, R154), SUBMIT (R141), the arms of
ON_FRAME_RECEIVED (R144 to R150) and ON_TICK (R151). -/

namespace Sys2Proof.Machine

/-! ## An invariant of one operation -/

/-- What an operation keeps: `P` from its beginning on, whatever it stores, decodes, handles or sends again, and `Q`
once SUBMIT may have started a frame, which is the last thing an operation does (R172, R176). -/
structure OperationKeeps (P Q : State → Prop) : Prop where
  stores : ∀ u rxbuf txq result, P u → P { u with rxbuf := rxbuf, txq := txq, result := result }
  tryDecode : ∀ u, P u → P u.tryDecode
  onTick : ∀ u v now, u.onTick now = .ok v → P u → P v
  onFrameReceived : ∀ u raw, P u → P (u.onFrameReceived raw)
  submit : ∀ u payload now, P u → Q (u.submit payload now)
  ends : ∀ u, P u → Q u
  closes : ∀ u now result, Q u → Q { u with lastNow := now, result := result }

section
variable {P Q : State → Prop} (hkeeps : OperationKeeps P Q) {s t : State}
include hkeeps

theorem OperationKeeps.phase3 (h : P s) : P s.phase3 :=
  decodeLoop_keeps hkeeps.tryDecode hkeeps.onFrameReceived _ s h

theorem OperationKeeps.phase4 (now : Nat) (h : P s) : Q (s.phase4 now) := by
  rcases phase4_cases s now with ⟨p, q, -, -, hstart⟩ | ⟨-, hstay⟩
  · rw [hstart]
    exact hkeeps.submit _ p now (hkeeps.stores s s.rxbuf _ s.result h)
  · rw [hstay]
    exact hkeeps.ends s h

theorem OperationKeeps.cycle {now : Nat} {rx : Bytes} (hok : s.cycle now rx = .ok t) (h : P s) : Q t := by
  obtain ⟨-, ticked, filled, htick, hfill, rfl⟩ := cycle_eq_ok.1 hok
  obtain ⟨-, rfl⟩ := bufAppend_eq_ok.1 hfill
  have hticked := hkeeps.onTick s ticked now htick h
  have hfilled := hkeeps.stores ticked (ticked.rxbuf ++ rx) ticked.txq ticked.result hticked
  exact hkeeps.closes _ _ _ (hkeeps.phase4 now (hkeeps.phase3 hfilled))

/-- Every instruction but RESET is an operation in this sense. -/
theorem OperationKeeps.exec {i : Instr} (hi : ∀ cfg, i ≠ .reset cfg) (hexec : exec i s = .next t) (h : P s.begin) :
    Q t := by
  rcases exec_next_cases hexec with ⟨cfg, rfl, -⟩ | ⟨-, -, ⟨ht, -⟩ | ⟨p, -, -, -, rfl⟩ | ⟨now, rx, -, hok⟩ |
    ⟨arrived, -, -, rfl⟩ | ⟨p, now, -, -, rfl⟩ | ⟨raw, -, rfl⟩ | ⟨now, -, hok⟩⟩
  · exact absurd rfl (hi cfg)
  · rw [ht]
    exact hkeeps.ends _ (hkeeps.stores _ _ _ _ h)
  · exact hkeeps.ends _ (hkeeps.stores s.begin s.rxbuf (s.txq ++ [p]) _ h)
  · exact hkeeps.cycle hok h
  · exact hkeeps.ends _ (hkeeps.tryDecode _ (hkeeps.stores _ (s.rxbuf ++ arrived) _ _ h))
  · exact hkeeps.submit _ p now h
  · exact hkeeps.ends _ (hkeeps.onFrameReceived _ raw h)
  · exact hkeeps.ends _ (hkeeps.onTick _ _ now hok h)

end

theorem Event.accepted?_of_framing (e : Event) (h : e.framing = true) : e.accepted? = none := by
  cases e with
  | ackAccept seq => cases h
  | _ => rfl

theorem Event.delivered?_of_framing (e : Event) (h : e.framing = true) : e.delivered? = none := by
  cases e with
  | deliver seq => cases h
  | _ => rfl

/-- The events of a scan say nothing of a kind the framer does not raise. -/
theorem scanEvents_filterMap {α : Type} {f : Event → Option α} (hf : ∀ e, e.framing = true → f e = none) (k : Scan) :
    (scanEvents k).filterMap f = [] :=
  List.filterMap_eq_nil_iff.2 fun e he => hf e (scanEvents_framing k e he)

/-! ## The sender's number (R153) -/

/-- The sender half with the acknowledgments the operation has accepted. -/
def State.senderProgress (s : State) : Cfg × SendState × Byte × Bytes × List Byte :=
  (s.cfg, s.sendState, s.currentSendSeq, s.pendingFrame, s.events.filterMap Event.accepted?)

theorem senderProgress_tryDecode (s : State) : s.tryDecode.senderProgress = s.senderProgress := by
  have hscan := scanEvents_filterMap Event.accepted?_of_framing (scan s.cfg s.rxbuf)
  simp [State.senderProgress, hscan]

theorem senderProgress_onTick {s t : State} {now : Nat} (h : s.onTick now = .ok t) :
    t.senderProgress = s.senderProgress := by
  rcases onTick_eq_ok.1 h with ⟨-, rfl⟩ | ⟨-, -, ⟨-, rfl⟩ | ⟨-, rfl⟩⟩
  · rfl
  · rfl
  · simp [State.senderProgress, Event.accepted?]

/-- Of the arms of ON_FRAME_RECEIVED only the acknowledgment awaited moves the sender (R145). -/
theorem senderProgress_onFrameReceived (s : State) (raw : Bytes) :
    (s.onFrameReceived raw).senderProgress = s.senderProgress ∨
    s.sendState = .awaitingAck ∧ ∃ frame, (s.onFrameReceived raw).senderProgress =
      (s.cfg, .idle, nextSeq s.cfg s.currentSendSeq, frame,
        s.events.filterMap Event.accepted? ++ [s.currentSendSeq]) := by
  rcases onFrameReceived_cases s raw with ⟨e, he, h⟩ | ⟨-, h⟩ | ⟨-, -, -, h⟩ | ⟨-, h⟩ | ⟨-, h⟩
  · left
    simp only [List.mem_cons, List.not_mem_nil, or_false] at he
    rcases he with rfl | rfl | rfl <;> simp [h, State.senderProgress, Event.accepted?]
  · rcases ackArm_cases s (bodySeq raw) with ⟨hawait, hseq, harm⟩ | ⟨-, harm⟩
    · refine .inr ⟨hawait, Config.freeFrame s.freeCount, ?_⟩
      rw [h, harm, hseq]
      simp [State.senderProgress, Event.accepted?]
    · left
      simp [h, harm, State.senderProgress, Event.accepted?]
  · left
    simp [h, State.senderProgress, Event.accepted?]
  · left
    simp [h, State.senderProgress, Event.accepted?]
  · left
    simp [h, State.senderProgress, Event.accepted?]

/-- The sender half of `u`, in the middle of an operation begun in `s`: as it was, or freed by the one acknowledgment it
awaited, and then Idle, so that no second one can be accepted. -/
def SenderHeldOrFreed (s u : State) : Prop :=
  u.senderProgress = s.begin.senderProgress ∨
  s.sendState = .awaitingAck ∧ ∃ frame,
    u.senderProgress = (s.cfg, .idle, nextSeq s.cfg s.currentSendSeq, frame, [s.currentSendSeq])

/-- What R153 says of an operation that began in `s` and has come to `t`. -/
def SenderAdvanced (s t : State) : Prop :=
  (t.events.filterMap Event.accepted? = [] ∧ t.currentSendSeq = s.currentSendSeq ∧
    (s.sendState = .awaitingAck → t.sendState = .awaitingAck ∧ t.pendingFrame = s.pendingFrame)) ∨
  (t.events.filterMap Event.accepted? = [s.currentSendSeq] ∧ s.sendState = .awaitingAck ∧
    t.currentSendSeq = nextSeq s.cfg s.currentSendSeq)

theorem SenderHeldOrFreed.congr {s u v : State} (hview : v.senderProgress = u.senderProgress)
    (h : SenderHeldOrFreed s u) : SenderHeldOrFreed s v := by
  unfold SenderHeldOrFreed at *
  rwa [hview]

theorem SenderHeldOrFreed.onFrameReceived {s u : State} (h : SenderHeldOrFreed s u) (raw : Bytes) :
    SenderHeldOrFreed s (u.onFrameReceived raw) := by
  rcases senderProgress_onFrameReceived u raw with hkept | ⟨hawait, frame, hfreed⟩
  · exact h.congr hkept
  rcases h with h | ⟨-, _, h⟩
  · simp only [State.senderProgress, Prod.mk.injEq] at h
    obtain ⟨hcfg, hstate, hseq, -, haccepted⟩ := h
    rw [hcfg, hseq, haccepted] at hfreed
    exact .inr ⟨hstate.symm.trans hawait, frame, hfreed⟩
  · simp only [State.senderProgress, Prod.mk.injEq] at h
    obtain ⟨-, hidle, -⟩ := h
    cases hawait.symm.trans hidle

theorem SenderHeldOrFreed.advanced {s u : State} (h : SenderHeldOrFreed s u) : SenderAdvanced s u := by
  rcases h with h | ⟨hawait, frame, h⟩
  · simp only [State.senderProgress, Prod.mk.injEq] at h
    obtain ⟨-, hstate, hseq, hframe, haccepted⟩ := h
    exact .inl ⟨haccepted, hseq, fun hawait => ⟨hstate.trans hawait, hframe⟩⟩
  · simp only [State.senderProgress, Prod.mk.injEq] at h
    obtain ⟨-, -, hseq, -, haccepted⟩ := h
    exact .inr ⟨haccepted, hawait, hseq⟩

/-- SUBMIT starts a frame only where the sender is Idle, and changes no number. -/
theorem SenderHeldOrFreed.submit {s u : State} (h : SenderHeldOrFreed s u) (p : Bytes) (now : Nat) :
    SenderAdvanced s (u.submit p now) := by
  have hadvanced := h.advanced
  cases hstate : u.sendState with
  | awaitingAck =>
    rw [submit_awaiting hstate]
    exact hadvanced
  | idle =>
    rw [submit_idle hstate]
    unfold SenderAdvanced at *
    simp only [List.filterMap_append, List.filterMap_cons, Event.accepted?, List.filterMap_nil, List.append_nil]
    rcases hadvanced with ⟨haccepted, hseq, hheld⟩ | hfreed
    · refine .inl ⟨haccepted, hseq, fun hawait => ?_⟩
      cases hstate.symm.trans (hheld hawait).1
    · exact .inr hfreed

theorem operationKeeps_sender (s : State) : OperationKeeps (SenderHeldOrFreed s) (SenderAdvanced s) where
  stores _ _ _ _ h := h
  tryDecode u h := h.congr (senderProgress_tryDecode u)
  onTick _ _ _ htick h := h.congr (senderProgress_onTick htick)
  onFrameReceived _ raw h := h.onFrameReceived raw
  submit _ p now h := h.submit p now
  ends _ h := h.advanced
  closes _ _ _ h := h

/-- Settles O47: an accepted acknowledgment leaves the sender Idle for the rest of the operation, so there is at most
one, and SUBMIT after it changes no number. -/
theorem senderAdvancesOnlyByAcknowledgment : Obligations.SenderAdvancesOnlyByAcknowledgment :=
  fun _ s _ hi hexec => (operationKeeps_sender s).exec hi hexec (.inl rfl)

/-! ## The receiver's number (R154) -/

/-- The receiver half with what the operation has delivered. -/
def State.receiverProgress (s : State) : Cfg × Byte × List Bytes × List Byte :=
  (s.cfg, s.nextExpectedSeq, s.deliveries, s.events.filterMap Event.delivered?)

theorem receiverProgress_tryDecode (s : State) : s.tryDecode.receiverProgress = s.receiverProgress := by
  have hscan := scanEvents_filterMap Event.delivered?_of_framing (scan s.cfg s.rxbuf)
  simp [State.receiverProgress, hscan]

theorem receiverProgress_onTick {s t : State} {now : Nat} (h : s.onTick now = .ok t) :
    t.receiverProgress = s.receiverProgress := by
  rcases onTick_eq_ok.1 h with ⟨-, rfl⟩ | ⟨-, -, ⟨-, rfl⟩ | ⟨-, rfl⟩⟩
  · rfl
  · rfl
  · simp [State.receiverProgress, Event.delivered?]

theorem receiverProgress_submit (s : State) (p : Bytes) (now : Nat) :
    (s.submit p now).receiverProgress = s.receiverProgress := by
  cases hs : s.sendState with
  | idle => simp [submit_idle hs, State.receiverProgress, Event.delivered?]
  | awaitingAck => rw [submit_awaiting hs]; rfl

/-- Of the arms of ON_FRAME_RECEIVED only the data expected moves the receiver (R146). -/
theorem receiverProgress_onFrameReceived (s : State) (raw : Bytes) :
    (s.onFrameReceived raw).receiverProgress = s.receiverProgress ∨
    ∃ payload, (s.onFrameReceived raw).receiverProgress =
      (s.cfg, nextSeq s.cfg s.nextExpectedSeq, s.deliveries ++ [payload],
        s.events.filterMap Event.delivered? ++ [s.nextExpectedSeq]) := by
  rcases onFrameReceived_cases s raw with ⟨e, he, h⟩ | ⟨-, h⟩ | ⟨-, -, hseq, h⟩ | ⟨-, h⟩ | ⟨-, h⟩
  · left
    simp only [List.mem_cons, List.not_mem_nil, or_false] at he
    rcases he with rfl | rfl | rfl <;> simp [h, State.receiverProgress, Event.delivered?]
  · left
    rcases ackArm_cases s (bodySeq raw) with ⟨-, -, harm⟩ | ⟨-, harm⟩
    · simp [h, harm, State.receiverProgress, Event.delivered?]
    · simp [h, harm, State.receiverProgress, Event.delivered?]
  · refine .inr ⟨bodyPayload s.cfg raw, ?_⟩
    simp [h, hseq, State.receiverProgress, Event.delivered?]
  · left
    simp [h, State.receiverProgress, Event.delivered?]
  · left
    simp [h, State.receiverProgress, Event.delivered?]

/-- The receiver half after deliveries that began in `s`: the number has advanced once for each of them, and their
numbers are the ones it has passed. -/
def ReceiverAdvanced (s u : State) : Prop :=
  ∃ payloads : List Bytes, u.receiverProgress =
    (s.cfg, (nextSeq s.cfg)^[payloads.length] s.nextExpectedSeq, payloads,
      (List.range payloads.length).map fun k => (nextSeq s.cfg)^[k] s.nextExpectedSeq)

theorem ReceiverAdvanced.congr {s u v : State} (hview : v.receiverProgress = u.receiverProgress)
    (h : ReceiverAdvanced s u) : ReceiverAdvanced s v := by
  unfold ReceiverAdvanced at *
  rwa [hview]

theorem ReceiverAdvanced.onFrameReceived {s u : State} (h : ReceiverAdvanced s u) (raw : Bytes) :
    ReceiverAdvanced s (u.onFrameReceived raw) := by
  rcases receiverProgress_onFrameReceived u raw with hkept | ⟨payload, hdelivered⟩
  · exact h.congr hkept
  obtain ⟨payloads, h⟩ := h
  simp only [State.receiverProgress, Prod.mk.injEq] at h
  obtain ⟨hcfg, hnext, hpayloads, hnumbers⟩ := h
  refine ⟨payloads ++ [payload], ?_⟩
  rw [hdelivered, hcfg, hnext, hpayloads, hnumbers, List.length_append, List.length_singleton, List.range_succ,
    List.map_append, Function.iterate_succ_apply']
  rfl

theorem operationKeeps_receiver (s : State) : OperationKeeps (ReceiverAdvanced s) (ReceiverAdvanced s) where
  stores _ _ _ _ h := h
  tryDecode u h := h.congr (receiverProgress_tryDecode u)
  onTick _ _ _ htick h := h.congr (receiverProgress_onTick htick)
  onFrameReceived _ raw h := h.onFrameReceived raw
  submit u p now h := h.congr (receiverProgress_submit u p now)
  ends _ h := h
  closes _ _ _ h := h

/-- Settles O48: each delivery is of the number expected, and advances it by one. -/
theorem receiverAdvancesByDeliveries : Obligations.ReceiverAdvancesByDeliveries := by
  intro i s t hi hexec
  obtain ⟨payloads, h⟩ := (operationKeeps_receiver s).exec hi hexec ⟨[], rfl⟩
  simp only [State.receiverProgress, Prod.mk.injEq] at h
  obtain ⟨-, hnext, rfl, hnumbers⟩ := h
  exact ⟨hnext, hnumbers⟩

/-! ## SUBMIT (R141) -/

/-- A `now` of `TIME_W` bits is stored as it is (R152). -/
theorem timeOperand_of_fits {c : Cfg} {now : Nat} (h : ∀ w, c.timeW = some w → now < 2 ^ w) :
    timeOperand c now = now := by
  cases hw : c.timeW with
  | none => exact timeOperand_unbounded hw now
  | some w => rw [timeOperand_width hw, Nat.mod_eq_of_lt (h w hw)]

/-- SUBMIT completes unless the sender is Idle and the payload too long (R141). -/
theorem exec_submit_next {s : State} {payload : Bytes} (hf : s.fault = false)
    (h : s.sendState = .idle → fits s.cfg.maxPayload payload.length = true) (now : Nat) :
    exec (.submit payload now) s = .next (s.begin.submit payload now) := by
  rw [exec_submit hf, answer_eq_next, submitChecked_eq_ok]
  exact ⟨h, rfl⟩

/-- Settles O32: SUBMIT completes in both states of the sender, and its frame is the one the builder answers. -/
theorem submitSendsOneFrame : Obligations.SubmitSendsOneFrame := by
  intro payload now s hf
  refine ⟨fun hawait => ?_, fun hidle hfits => ?_⟩
  · rw [exec_submit_next hf (fun hidle => nomatch hawait.symm.trans hidle), submit_awaiting (s := s.begin) hawait]
    rfl
  · refine ⟨_, timeOperand s.cfg now, exec_dataframe hf _ payload, timeOperand_of_fits, ?_⟩
    rw [exec_submit_next hf fun _ => hfits, submit_idle (s := s.begin) hidle]
    rfl

/-! ## The arms of ON_FRAME_RECEIVED (R144 to R150) -/

section
variable (s : State) (seq : Byte) (payload : Bytes)

theorem dispatchFrame_ack : s.dispatchFrame 0x01 seq payload = s.ackArm seq := if_pos rfl

variable {s seq}

theorem dispatchFrame_data (h : seq.toNat < s.cfg.seqMod) :
    s.dispatchFrame 0x00 seq payload = s.dataArm seq payload := by
  simp [State.dispatchFrame, h]

theorem dispatchFrame_reserved {flag : Byte} (h : 2 ≤ flag.toNat ∨ flag = 0x00 ∧ s.cfg.seqMod ≤ seq.toNat) :
    s.dispatchFrame flag seq payload = s.event .dropReserved := by
  have hack : flag ≠ 1 := by
    rintro rfl
    simp at h
  have hdata : ¬(flag = 0 ∧ seq.toNat < s.cfg.seqMod) := by
    rintro ⟨rfl, hlt⟩
    simp at h
    omega
  rw [State.dispatchFrame, if_neg hack, if_neg hdata]

theorem dataArm_expected (h : seq = s.nextExpectedSeq) : s.dataArm seq payload = s.dataInOrder seq payload := if_pos h

theorem dataArm_earlier (hne : seq ≠ s.nextExpectedSeq) (h : earlier s.cfg seq s.nextExpectedSeq = true) :
    s.dataArm seq payload = s.dataDuplicate seq := by
  rw [State.dataArm, if_neg hne, if_pos h]

theorem dataArm_ahead (hne : seq ≠ s.nextExpectedSeq) (h : earlier s.cfg seq s.nextExpectedSeq = false) :
    s.dataArm seq payload = s.dataAhead seq := by
  simp [State.dataArm, hne, h]

end

/-- An instruction that runs ON_FRAME_RECEIVED on a verified body is dispatched on its fields: the operation itself, or
the row of the body's frame type (log entry 16). -/
theorem exec_body {i : Instr} {flag seq : Byte} {payload checksum : Bytes} {s : State} (hf : s.fault = false)
    (hk : checksum.length = s.cfg.checksumBytes) (hv : verify s.cfg (flag :: seq :: (payload ++ checksum)) = true)
    (hi : i = .onFrameReceived (flag :: seq :: (payload ++ checksum)) ∨
      flag = 0x00 ∧ i = .data seq payload checksum ∨ flag = 0x01 ∧ i = .ack seq payload checksum ∨
      i = .reservedAckflag flag seq payload checksum) :
    exec i s = .next (s.begin.dispatchFrame flag seq payload) := by
  rw [← onFrameReceived_body (s := s.begin) hk hv]
  rcases hi with rfl | ⟨rfl, rfl⟩ | ⟨rfl, rfl⟩ | rfl
  · exact exec_onFrameReceived hf _
  · exact exec_data hf seq payload checksum
  · exact exec_ack hf seq payload checksum
  · exact exec_reservedAckflag hf flag seq payload checksum

/-- A verified data body with `seq < N` runs the data arms. -/
theorem exec_dataArm {i : Instr} {seq : Byte} {payload checksum : Bytes} {s : State} (hf : s.fault = false)
    (hk : checksum.length = s.cfg.checksumBytes) (hv : verify s.cfg (0x00 :: seq :: (payload ++ checksum)) = true)
    (hi : i = .data seq payload checksum ∨ i = .onFrameReceived (0x00 :: seq :: (payload ++ checksum)))
    (hseq : seq.toNat < s.cfg.seqMod) : exec i s = .next (s.begin.dataArm seq payload) := by
  rw [exec_body hf hk hv (by tauto), dispatchFrame_data (s := s.begin) payload hseq]

/-- Settles O35: neither reserved form is an acknowledgment or data with `seq < N`. -/
theorem reservedBodyDropped : Obligations.ReservedBodyDropped := by
  intro flag seq payload checksum s hf hk hv
  refine ⟨fun hflag i hi => ?_, fun hflag hseq i hi => ?_⟩
  · rw [exec_body hf hk hv (by tauto), dispatchFrame_reserved (s := s.begin) payload (.inl hflag)]
    rfl
  · rw [exec_body hf hk hv (by tauto), dispatchFrame_reserved (s := s.begin) payload (.inr ⟨hflag, hseq⟩)]
    rfl

/-- Settles O36, by the two answers of the acknowledgment arm. -/
theorem acknowledgmentFreesSender : Obligations.AcknowledgmentFreesSender := by
  intro i seq payload checksum s hf hk hv hi
  rw [exec_body hf hk hv (by tauto), dispatchFrame_ack]
  rcases ackArm_cases s.begin seq with ⟨hawait, hseq, harm⟩ | ⟨hother, harm⟩
  · exact ⟨fun _ => ⟨_, _, congrArg _ harm⟩, fun hnot => absurd ⟨hawait, hseq⟩ hnot⟩
  · exact ⟨fun hmatch => absurd hmatch hother, fun _ => congrArg _ harm⟩

/-- Settles O37: the number expected takes the first of the data arms, and the builder answers the same frame. -/
theorem inOrderDataDelivered : Obligations.InOrderDataDelivered := by
  intro i seq payload checksum s hf hk hv hi hseq hexpected
  refine ⟨_, exec_ackframe hf seq, ?_⟩
  rw [exec_dataArm hf hk hv hi hseq, dataArm_expected (s := s.begin) payload hexpected]
  rfl

/-- Equal numbers are at distance 0, so a number at another distance is another one (R149). -/
theorem ne_of_distance_pos {n : Nat} {s e : Byte} (h : 0 < ((e.toNat : Int) - s.toNat) % n) : s ≠ e := by
  rintro rfl
  simp at h

/-- Settles O38: a number at distance 1 to `floor(N / 2)` is another one, and earlier. -/
theorem duplicateDataReacknowledged : Obligations.DuplicateDataReacknowledged := by
  intro i seq payload checksum s hf hk hv hi hseq _ hlow hhigh
  refine ⟨_, exec_ackframe hf seq, ?_⟩
  have hearlier := (earlier_iff (c := s.cfg) hseq).2 ⟨hlow, hhigh⟩
  rw [exec_dataArm hf hk hv hi hseq, dataArm_earlier (s := s.begin) payload (ne_of_distance_pos hlow) hearlier]
  rfl

/-- Settles O39: a number further than `floor(N / 2)` is another one, and not earlier. -/
theorem aheadDataDropped : Obligations.AheadDataDropped := by
  intro i seq payload checksum s hf hk hv hi hseq _ hfar
  have hne : seq ≠ s.nextExpectedSeq := ne_of_distance_pos (n := s.cfg.seqMod) (by omega)
  have hahead : earlier s.cfg seq s.nextExpectedSeq = false := by
    rw [← Bool.not_eq_true, earlier_iff hseq]
    omega
  rw [exec_dataArm hf hk hv hi hseq, dataArm_ahead (s := s.begin) payload hne hahead]
  rfl

/-- Delivery is the arm of data in order (R146), past the gate, so the same body runs the data arms wherever the
configuration is the same. -/
theorem dataArm_of_delivers {s : State} {raw : Bytes} (h : (s.onFrameReceived raw).deliveries ≠ s.deliveries) :
    (bodySeq raw).toNat < s.cfg.seqMod ∧ bodySeq raw = s.nextExpectedSeq ∧
      s.onFrameReceived raw = s.dataInOrder (bodySeq raw) (bodyPayload s.cfg raw) ∧
      ∀ u : State, u.cfg = s.cfg → u.onFrameReceived raw = u.dataArm (bodySeq raw) (bodyPayload s.cfg raw) := by
  have hverify : ¬(!verify s.cfg raw) = true := fun hn => h (by simp [State.onFrameReceived, hn])
  have hlong : ¬raw.length < 2 + s.cfg.checksumBytes := fun hn => h (by
    simp only [State.onFrameReceived, if_neg hverify, if_pos hn, State.event_deliveries])
  rcases onFrameReceived_cases s raw with ⟨e, -, harm⟩ | ⟨-, harm⟩ | ⟨hflag, hseq, hexpected, harm⟩ | ⟨-, harm⟩ |
    ⟨-, harm⟩
  · exact absurd (by rw [harm]; rfl) h
  · rcases ackArm_cases s (bodySeq raw) with ⟨-, -, hack⟩ | ⟨-, hack⟩
    · exact absurd (by rw [harm, hack]) h
    · exact absurd (by rw [harm, hack]; rfl) h
  · refine ⟨hseq, hexpected, harm, fun u hu => ?_⟩
    rw [← hu] at hverify hlong hseq ⊢
    rw [State.onFrameReceived, if_neg hverify, if_neg hlong, hflag, dispatchFrame_data _ hseq]
  · exact absurd (by rw [harm]; rfl) h
  · exact absurd (by rw [harm]; rfl) h

/-- The number before the one expected, which was the last delivered, is another one, and earlier. -/
theorem dataArm_delivered {u : State} {q : Byte} (hN : 2 ≤ u.cfg.seqMod ∧ u.cfg.seqMod ≤ 256)
    (hq : q.toNat < u.cfg.seqMod) (hnext : u.nextExpectedSeq = nextSeq u.cfg q) (payload : Bytes) :
    u.dataArm q payload = u.dataDuplicate q :=
  dataArm_earlier payload (hnext ▸ (nextSeq_ne hN hq).symm) (hnext ▸ earlier_prev hN hq)

/-- Settles O41: received again, the body is a duplicate of the number just delivered. -/
theorem deliveredFrameNotRedelivered : Obligations.DeliveredFrameNotRedelivered := by
  intro raw s t hvalid hexec hdelivers
  simp only [exec, execOnFrameReceived, operation_eq_next, Except.ok.injEq] at hexec
  obtain ⟨hf, rfl⟩ := hexec
  obtain ⟨hseq, hexpected, hdelivered, hagain⟩ := dataArm_of_delivers hdelivers
  have hnext : (s.begin.onFrameReceived raw).nextExpectedSeq = nextSeq s.cfg (bodySeq raw) := by
    rw [hdelivered, hexpected]
    rfl
  have hduplicate := (hagain (s.begin.onFrameReceived raw).begin (by simp)).trans
    (dataArm_delivered (by simpa using Cfg.valid_seqMod hvalid) (by simpa using hseq) (by simpa using hnext) _)
  refine ⟨_, exec_onFrameReceived (by simpa using hf) raw, ?_⟩
  rw [hduplicate, hdelivered]
  simp

/-! ## The order on sequence numbers (R149) -/

/-- The number at distance `d` behind `e`, and the distance of a number behind `e`: one function, its own inverse. -/
def behind (n e k : Nat) : Nat := (e + n - k) % n

theorem behind_lt {n e k : Nat} (he : e < n) : behind n e k < n := Nat.mod_lt _ (by omega)

theorem behind_behind {n e k : Nat} (he : e < n) (hk : k < n) : behind n e (behind n e k) = k := by
  unfold behind
  rcases Nat.lt_or_ge e k with h | h
  · rw [Nat.mod_eq_of_lt (show e + n - k < n by omega), show e + n - (e + n - k) = k by omega, Nat.mod_eq_of_lt hk]
  · rw [show e + n - k = e - k + n by omega, Nat.add_mod_right, Nat.mod_eq_of_lt (show e - k < n by omega),
      show e + n - (e - k) = k + n by omega, Nat.add_mod_right, Nat.mod_eq_of_lt hk]

theorem earlier_ofNat {c : Cfg} {e : Byte} {k : Nat} (hk : k < 256) :
    earlier c (BitVec.ofNat 8 k) e = true ↔ behind c.seqMod e.toNat k ∈ Finset.Icc 1 (c.seqMod / 2) := by
  simp [earlier, seqDist, behind, Nat.mod_eq_of_lt hk]

/-- The numbers earlier than `e` are the ones at the distances 1 to `floor(N / 2)`, one at each. -/
theorem countP_earlier {c : Cfg} {e : Byte} (he : e.toNat < c.seqMod) (hN : c.seqMod ≤ 256) :
    (List.range c.seqMod).countP (fun n => earlier c (BitVec.ofNat 8 n) e) = c.seqMod / 2 := by
  have hcard : ((Finset.range c.seqMod).filter fun n => earlier c (BitVec.ofNat 8 n) e = true).card =
      (Finset.Icc 1 (c.seqMod / 2)).card := by
    refine Finset.card_nbij' (behind c.seqMod e.toNat) (behind c.seqMod e.toNat) (fun n hn => ?_) (fun d hd => ?_)
      (fun n hn => ?_) (fun d hd => ?_)
    · obtain ⟨hlt, hearlier⟩ := Finset.mem_filter.1 hn
      rw [Finset.mem_range] at hlt
      exact (earlier_ofNat (by omega)).1 hearlier
    · obtain ⟨-, hhalf⟩ := Finset.mem_Icc.1 hd
      have hlt := behind_lt (k := d) he
      rw [Finset.mem_coe, Finset.mem_filter, earlier_ofNat (by omega), behind_behind he (by omega), Finset.mem_range]
      exact ⟨hlt, hd⟩
    · obtain ⟨hlt, -⟩ := Finset.mem_filter.1 hn
      exact behind_behind he (Finset.mem_range.1 hlt)
    · obtain ⟨-, hhalf⟩ := Finset.mem_Icc.1 hd
      exact behind_behind he (by omega)
  rw [Nat.card_Icc, Nat.add_sub_cancel] at hcard
  simp only [← hcard, List.countP_eq_length_filter, Finset.card_def, Finset.filter_val, Finset.range_val,
    Multiset.range, Multiset.filter_coe, Multiset.coe_card, Bool.decide_eq_true]

/-- Settles O40: the distance tells the numbers below `N` apart, and each distance is taken by one of them. -/
theorem sequenceOrderIsHalfWindow : Obligations.SequenceOrderIsHalfWindow := by
  intro c seq expected hseq hexpected hN
  refine ⟨⟨fun h => ?_, fun h => by simp [h]⟩, earlier_iff hseq, countP_earlier hexpected hN⟩
  have hdiff := Int.emod_eq_emod_iff_emod_sub_eq_zero.2 h
  rw [Int.emod_eq_of_lt (by omega) (by omega), Int.emod_eq_of_lt (by omega) (by omega)] at hdiff
  exact BitVec.eq_of_toNat_eq (by omega)

/-! ## ON_TICK (R151) -/

theorem elapsed_eq {c : Cfg} {now ts e : Nat} (hnone : c.timeW = none → e = now - ts)
    (hsome : ∀ w, c.timeW = some w → (e : Int) = ((now : Int) - ts) % 2 ^ w) : elapsed c now ts = e := by
  cases hw : c.timeW with
  | none => rw [elapsed_unbounded hw, hnone hw]
  | some w => exact_mod_cast (elapsed_width hw now ts).trans (hsome w hw).symm

theorem timeBackward_eq_false {c : Cfg} {now ts : Nat} (h : c.timeW = none → ts ≤ now) :
    timeBackward c now ts = false := by
  rw [← Bool.not_eq_true, timeBackward_iff]
  exact fun ⟨hnone, hlt⟩ => absurd (h hnone) (by omega)

/-- Settles O42: `e` is the elapsed time, and the two arms of ON_TICK are its comparison with `T`. -/
theorem timerRetransmitsVerbatim : Obligations.TimerRetransmitsVerbatim := by
  intro now e s hf
  refine ⟨fun hidle => ?_, fun hawait hnone hsome => ⟨timeOperand s.cfg now, timeOperand_of_fits, ?_⟩⟩
  · rw [exec_onTick hf, onTick_idle (s := s.begin) hidle]
    rfl
  · have hforward := timeBackward_eq_false fun h => (hnone h).1
    have helapsed := elapsed_eq (fun h => (hnone h).2) hsome
    rw [exec_onTick hf, onTick_awaiting (s := s.begin) hawait]
    simp only [State.begin_cfg, State.begin_pendingTimestamp, hforward, helapsed, Bool.false_eq_true, if_false]
    split
    · rfl
    · rfl

end Sys2Proof.Machine
end

