-- ==== Sys2Proof/Proofs/ArqLink.lean ====
section
/-! PROOFS. Spec/42_arq.md R155: one exchange over a clean medium, recovery from a lost frame, and a whole run of two
endpoints over a medium that loses and damages. -/

namespace Sys2Proof.Machine

/-! ## Phase 3 over no frame and over one (R175) -/

/-- ON_FRAME_RECEIVED neither reads nor writes the buffer and the result. -/
theorem onFrameReceived_stores (s : State) (raw buffer : Bytes) (result : Result) :
    ({ s with rxbuf := buffer, result := result } : State).onFrameReceived raw =
      { s.onFrameReceived raw with rxbuf := buffer, result := result } := by
  obtain ⟨added, -, hadd⟩ := onFrameReceived_adds s raw
  have hself : (s.onFrameReceived raw).events = s.events ++ added :=
    congrArg State.events (hadd s.rxbuf s.result s.events)
  rw [hadd buffer result s.events, ← hself]

theorem decodeLoop_nil (n : Nat) {s : State} (h : s.rxbuf = []) :
    decodeLoop (n + 1) s = { s with result := .incomplete } := by
  have hscan : scan s.cfg s.rxbuf = ⟨0, 0, none, []⟩ := by rw [h]; rfl
  rw [decodeLoop, State.tryDecode_eq]
  simp [hscan, scanEvents, scanResult, ← h]

theorem phase3_nil {s : State} (h : s.rxbuf = []) : s.phase3 = { s with result := .incomplete } :=
  decodeLoop_nil _ h

/-- Just one wire frame in the buffer: its body is handled, and nothing is left. -/
theorem phase3_encodeFrame {s : State} (body : Bytes) (hd : s.cfg.reservedDistinct = true) (hempty : s.rxbuf = []) :
    State.phase3 { s with rxbuf := s.rxbuf ++ encodeFrame s.cfg body } =
      { s.onFrameReceived body with rxbuf := [], result := .incomplete } := by
  have hscan : scan s.cfg (s.rxbuf ++ encodeFrame s.cfg body) = ⟨0, 0, some body, []⟩ := by
    rw [hempty]
    simpa using scan_encodeFrame hd [] body [] (by simp) rfl
  obtain ⟨n, hn⟩ : ∃ n, (s.rxbuf ++ encodeFrame s.cfg body).length = n + 1 :=
    Nat.exists_eq_add_one.2 (by simp [encodeFrame])
  rw [State.phase3, hn, decodeLoop, State.tryDecode_eq]
  simp only [hscan, scanEvents, scanResult, List.append_nil, List.replicate_zero, if_true]
  rw [onFrameReceived_stores, decodeLoop_nil n rfl]

theorem phase4_of_txq_nil {s : State} (h : s.txq = []) (now : Nat) : s.phase4 now = s := by
  rw [State.phase4, h]

theorem phase4_start {s : State} {p : Bytes} {q : List Bytes} (hq : s.txq = p :: q) (hidle : s.sendState = .idle)
    (now : Nat) : s.phase4 now = s.qPop.submit p now := by
  rw [State.phase4, hq, hidle]

/-! ## One cycle from an empty buffer -/

/-- CYCLE once its first two phases have gone through (R172). -/
theorem exec_cycle_next {s ticked : State} {now : Nat} {rx : Bytes} (hf : s.fault = false)
    (hlast : s.cfg.timeW = none → s.lastNow ≤ now) (htick : s.begin.onTick now = .ok ticked)
    (hfits : fits ticked.cfg.rxbufCap (ticked.rxbuf.length + rx.length) = true) :
    exec (.cycle now rx) s = .next
      { State.phase4 (State.phase3 { ticked with rxbuf := ticked.rxbuf ++ rx }) now with
        lastNow := timeOperand s.cfg now
        result := .outputs } := by
  rw [exec_cycle hf, answer_eq_next, cycle_eq_ok]
  exact ⟨timeBackward_eq_false hlast, ticked, _, htick, bufAppend_eq_ok.2 ⟨hfits, rfl⟩, rfl⟩

section
variable {s ticked : State} {now : Nat} (hf : s.fault = false) (hlast : s.cfg.timeW = none → s.lastNow ≤ now)
  (htick : s.begin.onTick now = .ok ticked) (hempty : s.rxbuf = [])
include hf hlast htick hempty

/-- A cycle in which nothing arrives: ON_TICK and phase 4. -/
theorem exec_cycle_nothing : exec (.cycle now []) s = .next
    { State.phase4 { ticked with result := .incomplete } now with
      lastNow := timeOperand s.cfg now
      result := .outputs } := by
  have hbuf : ticked.rxbuf = [] := by rw [onTick_frame htick]; exact hempty
  have hfilled : ({ ticked with rxbuf := ticked.rxbuf ++ [] } : State) = ticked := by rw [List.append_nil]
  rw [exec_cycle_next hf hlast htick (by simp [hbuf, fits_zero]), hfilled, phase3_nil hbuf]

/-- A cycle in which one wire frame arrives: its body is handled between ON_TICK and phase 4. -/
theorem exec_cycle_frame {body : Bytes} (hd : s.cfg.reservedDistinct = true)
    (hfits : fits s.cfg.rxbufCap (encodeFrame s.cfg body).length = true) :
    exec (.cycle now (encodeFrame s.cfg body)) s = .next
      { State.phase4 { ticked.onFrameReceived body with rxbuf := [], result := .incomplete } now with
        lastNow := timeOperand s.cfg now
        result := .outputs } := by
  have hbuf : ticked.rxbuf = [] := by rw [onTick_frame htick]; exact hempty
  have hcfg : ticked.cfg = s.cfg := by rw [onTick_frame htick]; rfl
  rw [← hcfg] at hd hfits ⊢
  rw [exec_cycle_next hf hlast htick (by simpa [hbuf] using hfits), phase3_encodeFrame body hd hbuf, hcfg]

end

/-! ## The cycles of one exchange -/

/-- A body made by APPEND_CHECKSUM is dispatched on its fields, under any codec whose checksum verifies: the rest of
the configuration need not be valid. -/
theorem onFrameReceived_dispatched {s : State} (hc : s.cfg.codec = .parity ∨ 1 ≤ deg s.cfg.g) (f q : Byte) (p : Bytes) :
    s.onFrameReceived (appendChecksum s.cfg ([f, q] ++ p)) = s.dispatchFrame f q p := by
  obtain ⟨block, hbody, hblock⟩ := appendChecksum_eq_append s.cfg ([f, q] ++ p)
  have hverify := verify_appendChecksum hc (bs := [f, q] ++ p) (by simp)
  rw [hbody] at hverify ⊢
  simpa using onFrameReceived_body (s := s) (flag := f) (seq := q) (payload := p) hblock (by simpa using hverify)

/-- Between the cycles of one exchange: the sender waits for the acknowledgment of the one frame it has sent, last at
`time`, with nothing queued and nothing half received. -/
structure State.WaitsSince (s : State) (c : Cfg) (q : Byte) (frame : Bytes) (time : Nat) : Prop where
  not_fault : s.fault = false
  cfg_eq : s.cfg = c
  awaiting : s.sendState = .awaitingAck
  seq_eq : s.currentSendSeq = q
  frame_eq : s.pendingFrame = frame
  timestamp_eq : s.pendingTimestamp = timeOperand c time
  lastNow_eq : s.lastNow = timeOperand c time
  txq_eq : s.txq = []
  rxbuf_eq : s.rxbuf = []

/-- The first cycle starts the queued payload (R176). -/
theorem exec_cycle_starts {s : State} {p : Bytes} {now : Nat} (hf : s.fault = false) (hidle : s.sendState = .idle)
    (hq : s.txq = [p]) (hempty : s.rxbuf = []) (hlast : s.cfg.timeW = none → s.lastNow ≤ now) :
    ∃ t, exec (.cycle now []) s = .next t ∧ t.tx = dataFrame s.cfg s.currentSendSeq p ∧
      t.WaitsSince s.cfg s.currentSendSeq (dataFrame s.cfg s.currentSendSeq p) now := by
  refine ⟨_, exec_cycle_nothing hf hlast (onTick_idle (s := s.begin) hidle now) hempty, ?_⟩
  rw [phase4_start (s := { s.begin with result := .incomplete }) hq hidle, submit_idle (by exact hidle)]
  exact ⟨rfl, hf, rfl, rfl, rfl, rfl, rfl, rfl, by simp [hq], hempty⟩

theorem elapsed_timeOperand (c : Cfg) (now ts : Nat) : elapsed c now (timeOperand c ts) = elapsed c now ts := by
  cases hw : c.timeW with
  | none => rw [timeOperand_unbounded hw]
  | some w =>
    rw [timeOperand_width hw]
    simp [elapsed, hw, BitVec.toNat_sub]

section
variable {s : State} {c : Cfg} {q : Byte} {frame : Bytes} {time now : Nat} (h : s.WaitsSince c q frame time)
  (hforward : c.timeW = none → time ≤ now)
include h hforward

/-- The time does not step back for CYCLE, nor for ON_TICK. -/
theorem State.WaitsSince.forward : (s.cfg.timeW = none → s.lastNow ≤ now) ∧
    timeBackward s.begin.cfg now s.begin.pendingTimestamp = false := by
  have htime : c.timeW = none → timeOperand c time ≤ now := fun hw => by
    rw [timeOperand_unbounded hw]; exact hforward hw
  rw [h.cfg_eq, h.lastNow_eq, State.begin_cfg, h.cfg_eq, State.begin_pendingTimestamp, h.timestamp_eq]
  exact ⟨htime, timeBackward_eq_false htime⟩

/-- More than `T` later a cycle sends the frame again, and waits on (R151). -/
theorem State.WaitsSince.retransmits (hlate : c.timeout < elapsed c now time) :
    ∃ t, exec (.cycle now []) s = .next t ∧ t.tx = frame ∧ t.events = [.txRetx q] ∧ t.WaitsSince c q frame now := by
  obtain ⟨hlast, hback⟩ := h.forward hforward
  obtain ⟨hf, rfl, hawait, rfl, rfl, htimestamp, -, hq, hempty⟩ := h
  rw [← elapsed_timeOperand, ← htimestamp] at hlate
  have htick := onTick_eq_ok (s := s.begin).2 (.inr ⟨hawait, hback, .inr ⟨hlate, rfl⟩⟩)
  refine ⟨_, exec_cycle_nothing hf hlast htick hempty, ?_⟩
  rw [phase4_of_txq_nil (by exact hq)]
  exact ⟨rfl, rfl, hf, rfl, hawait, rfl, rfl, rfl, rfl, hq, hempty⟩

/-- The acknowledgment frees the sender, whether or not the same cycle sends the frame again (R145). -/
theorem State.WaitsSince.acknowledged (hv : c.valid = true) (hfits : fits c.rxbufCap (ackFrame c q).length = true) :
    ∃ t, exec (.cycle now (ackFrame c q)) s = .next t ∧ t.sendState = .idle ∧ t.deliveries = [] ∧
      t.currentSendSeq = nextSeq c q := by
  obtain ⟨hlast, hback⟩ := h.forward hforward
  obtain ⟨hf, rfl, hawait, rfl, -, -, -, hq, hempty⟩ := h
  obtain ⟨ticked, htick⟩ : ∃ ticked, s.begin.onTick now = .ok ticked := by
    rcases Nat.lt_or_ge s.cfg.timeout (elapsed s.cfg now s.pendingTimestamp) with hlate | hsoon
    · exact ⟨_, onTick_eq_ok.2 (.inr ⟨hawait, hback, .inr ⟨hlate, rfl⟩⟩)⟩
    · exact ⟨_, onTick_eq_ok.2 (.inr ⟨hawait, hback, .inl ⟨hsoon, rfl⟩⟩)⟩
  have harm : ticked.onFrameReceived (appendChecksum s.cfg [0x01, s.currentSendSeq]) =
      ticked.ackArm s.currentSendSeq := by
    have hcfg : ticked.cfg = s.cfg := by rw [onTick_frame htick]; rfl
    rw [← hcfg] at hv ⊢
    exact (onFrameReceived_dispatched (Cfg.valid_codec hv) 0x01 s.currentSendSeq []).trans (dispatchFrame_ack _ _ _)
  refine ⟨_, exec_cycle_frame hf hlast htick hempty (Cfg.valid_reserved hv) hfits, ?_⟩
  rw [harm]
  rcases ackArm_cases ticked s.currentSendSeq with ⟨-, -, hfreed⟩ | ⟨hnot, -⟩
  · rw [hfreed, onTick_frame htick, phase4_of_txq_nil (by exact hq)]
    exact ⟨rfl, rfl, rfl⟩
  · rw [onTick_frame htick] at hnot
    exact absurd ⟨hawait, rfl⟩ hnot

end

/-- The peer of a link may differ in what is an endpoint's own: its times and its capacities (R5). -/
def SameLink (c c' : Cfg) : Prop :=
  c' = { c with
    timeout := c'.timeout
    timeW := c'.timeW
    maxPayload := c'.maxPayload
    rxbufCap := c'.rxbufCap
    txqDepth := c'.txqDepth }

section
variable {c c' : Cfg} (h : SameLink c c')
include h

theorem SameLink.fields :
    c'.reservedDistinct = c.reservedDistinct ∧ c'.codec = c.codec ∧ c'.g = c.g ∧ c'.seqMod = c.seqMod := by
  rw [h]
  exact ⟨rfl, rfl, rfl, rfl⟩

theorem SameLink.frames (q : Byte) (p : Bytes) :
    dataFrame c' q p = dataFrame c q p ∧ ackFrame c' q = ackFrame c q ∧ nextSeq c' q = nextSeq c q := by
  rw [h]
  exact ⟨rfl, rfl, rfl⟩

end

/-- The peer's cycle on the data frame it expects delivers the payload and answers the acknowledgment (R146). -/
theorem exec_cycle_delivers {s : State} {c : Cfg} {p : Bytes} {now : Nat} (hv : c.valid = true)
    (hlink : SameLink c s.cfg) (hf : s.fault = false) (hidle : s.sendState = .idle) (hq : s.txq = [])
    (hempty : s.rxbuf = []) (hseq : s.nextExpectedSeq.toNat < c.seqMod)
    (hlast : s.cfg.timeW = none → s.lastNow ≤ now)
    (hfits : fits s.cfg.rxbufCap (dataFrame c s.nextExpectedSeq p).length = true) :
    ∃ t, exec (.cycle now (dataFrame c s.nextExpectedSeq p)) s = .next t ∧ t.deliveries = [p] ∧
      t.tx = ackFrame c s.nextExpectedSeq ∧ t.nextExpectedSeq = nextSeq c s.nextExpectedSeq := by
  obtain ⟨hdistinct, hcodec, hg, hN⟩ := hlink.fields
  obtain ⟨hframe, hack, hnext⟩ := hlink.frames s.nextExpectedSeq p
  have hd := Cfg.valid_reserved hv
  have hc := Cfg.valid_codec hv
  rw [← hdistinct] at hd
  rw [← hcodec, ← hg] at hc
  rw [← hN] at hseq
  rw [← hframe] at hfits ⊢
  rw [← hack, ← hnext]
  have harm : s.begin.onFrameReceived (appendChecksum s.cfg ([0x00, s.nextExpectedSeq] ++ p)) =
      s.begin.dataInOrder s.nextExpectedSeq p := by
    refine (onFrameReceived_dispatched (s := s.begin) hc 0x00 s.nextExpectedSeq p).trans ?_
    rw [dispatchFrame_data (s := s.begin) p hseq, dataArm_expected (s := s.begin) (seq := s.nextExpectedSeq) p rfl]
  refine ⟨_, exec_cycle_frame hf hlast (onTick_idle (s := s.begin) hidle now) hempty hd hfits, ?_⟩
  rw [harm, phase4_of_txq_nil (by simpa using hq)]
  simp

/-- Settles O52: the sender starts, the peer delivers and acknowledges, the sender is freed. -/
theorem oneExchangeDeliversOnce : Obligations.OneExchangeDeliversOnce := by
  intro a b payload n1 n2 n3 hfa hfb hv hlink hidle hq hempty hidleb hqb hemptyb hexpected hseq ha hb hfitsb hfitsa
  obtain ⟨a1, hstart, htx, hwaits⟩ := exec_cycle_starts hfa hidle hq hempty fun hw => (ha hw).1
  rw [← hexpected] at hseq hfitsb
  obtain ⟨b1, hreceive, hdelivered, hack, hnext⟩ := exec_cycle_delivers hv hlink hfb hidleb hqb hemptyb hseq hb hfitsb
  rw [hexpected] at hreceive hack hnext
  obtain ⟨a2, hfree, hidle2, hnone, hnext2⟩ := hwaits.acknowledged (fun hw => (ha hw).2) hv hfitsa
  exact ⟨a1, b1, a2, hstart, htx ▸ hreceive, hack ▸ hfree, htx, hwaits.awaiting, hdelivered, hack, hidle2, hnone,
    hnext2.trans hnext.symm⟩

/-- Settles O53: the sender starts, its timer sends the frame again, and the exchange goes on from there. -/
theorem lostFrameIsRecovered : Obligations.LostFrameIsRecovered := by
  intro a b payload n1 n2 n3 n4 hfa hfb hv hlink hidle hq hempty hidleb hqb hemptyb hexpected hseq ha hlate hb hfitsb
    hfitsa
  have helapsed : a.cfg.timeout < elapsed a.cfg n2 n1 := by
    cases hw : a.cfg.timeW with
    | none =>
      obtain ⟨-, hlater, -⟩ := ha hw
      rw [elapsed_unbounded hw]
      omega
    | some w => exact_mod_cast (elapsed_width hw n2 n1).symm ▸ hlate w hw
  obtain ⟨a1, hstart, htx, hwaits⟩ := exec_cycle_starts hfa hidle hq hempty fun hw => (ha hw).1
  obtain ⟨a2, hresend, htx2, hevents, hwaits2⟩ := hwaits.retransmits (fun hw => by have := ha hw; omega) helapsed
  rw [← hexpected] at hseq hfitsb
  obtain ⟨b1, hreceive, hdelivered, hack, hnext⟩ := exec_cycle_delivers hv hlink hfb hidleb hqb hemptyb hseq hb hfitsb
  rw [hexpected] at hreceive hack hnext
  obtain ⟨a3, hfree, hidle3, hnone, hnext3⟩ := hwaits2.acknowledged (fun hw => (ha hw).2.2) hv hfitsa
  exact ⟨a1, a2, b1, a3, hstart, hresend, htx2.trans htx.symm, hevents, htx2 ▸ hreceive, hack ▸ hfree, hdelivered,
    hidle3, hnone, hnext3.trans hnext.symm⟩

end Sys2Proof.Machine
end

