-- ==== Sys2Proof/Proofs/ArqRun.lean ====
section
/-! PROOFS. Spec/42_arq.md R155 (a): a whole run of two endpoints over a medium that loses and damages. Both directions
of the link are carried along together, so that the cycle of either endpoint is one lemma. -/

namespace Sys2Proof.Machine

/-! ## Both directions of a link -/

/-- What one direction of a link holds: the messages on their way, the payloads accepted where it begins, and the
payloads delivered where it ends. -/
structure Traffic where
  msgs : List Msg
  accepted : List Bytes
  delivered : List Bytes

/-- These messages, and no others, are on their way. -/
def Traffic.carries (t : Traffic) (msgs : List Msg) : Traffic := { t with msgs := msgs }

/-- More messages are on their way. -/
def Traffic.sends (t : Traffic) (msgs : List Msg) : Traffic := t.carries (t.msgs ++ msgs)

/-- More payloads have been delivered. -/
def Traffic.delivers (t : Traffic) (payloads : List Bytes) : Traffic := { t with delivered := t.delivered ++ payloads }

/-- More payloads have been accepted. -/
def Traffic.accepts (t : Traffic) (payloads : List Bytes) : Traffic := { t with accepted := t.accepted ++ payloads }

theorem Traffic.sends_nil (t : Traffic) : t.sends [] = t := by
  simp [Traffic.sends, Traffic.carries]

theorem Traffic.sends_sends (t : Traffic) (ms ns : List Msg) : (t.sends ms).sends ns = t.sends (ms ++ ns) := by
  simp [Traffic.sends, Traffic.carries]

theorem Traffic.delivers_nil (t : Traffic) : t.delivers [] = t := by
  simp [Traffic.delivers]

theorem Traffic.delivers_delivers (t : Traffic) (ps qs : List Bytes) :
    (t.delivers ps).delivers qs = t.delivers (ps ++ qs) := by
  simp [Traffic.delivers]

/-- The invariant of the direction from `u` to its peer `v`: the data in `out`, the acknowledgments in `back`. -/
def Direction (c : Cfg) (u v : State) (out back : Traffic) : Prop :=
  OneWay c u.sendState u.currentSendSeq u.pendingFrame u.txq v.nextExpectedSeq (out.msgs.filterMap Msg.data?)
    (back.msgs.filterMap Msg.ack?) out.accepted out.delivered

/-- Both directions between `u` and its peer `v`. -/
def Duplex (c : Cfg) (u v : State) (out back : Traffic) : Prop := Direction c u v out back ∧ Direction c v u back out

/-- What a link reads of an endpoint. -/
def State.linkView (s : State) : SendState × Byte × Bytes × List Bytes × Byte :=
  (s.sendState, s.currentSendSeq, s.pendingFrame, s.txq, s.nextExpectedSeq)

section
variable {c : Cfg} {u v : State} {out back : Traffic}

theorem Duplex.congr {u' : State} (hview : u'.linkView = u.linkView) (h : Duplex c u v out back) :
    Duplex c u' v out back := by
  simp only [State.linkView, Prod.mk.injEq] at hview
  obtain ⟨hstate, hseq, hframe, hqueue, hnext⟩ := hview
  unfold Duplex Direction at *
  rwa [hstate, hseq, hframe, hqueue, hnext]

theorem Duplex.symm (h : Duplex c u v out back) : Duplex c v u back out := And.symm h

/-- The medium may lose messages. -/
theorem Duplex.lose (h : Duplex c u v out back) {ms : List Msg} (hs : ms.Sublist back.msgs) :
    Duplex c u v out (back.carries ms) :=
  ⟨h.1.lose_acks (hs.filterMap _), h.2.lose_data (hs.filterMap _)⟩

/-- SEND queues a payload. -/
theorem Duplex.push (h : Duplex c u v out back) (p : Bytes) :
    Duplex c { u with txq := u.txq ++ [p] } v (out.accepts [p]) back :=
  ⟨h.1.push p, h.2⟩

/-- Data on its way is no acknowledgment, so only its own direction sees it. -/
theorem Duplex.sends_data {q : Byte} {p : Bytes}
    (h : OneWay c u.sendState u.currentSendSeq u.pendingFrame u.txq v.nextExpectedSeq
      (out.msgs.filterMap Msg.data? ++ [(q, p)]) (back.msgs.filterMap Msg.ack?) out.accepted out.delivered)
    (hback : Direction c v u back out) : Duplex c u v (out.sends [.data q p]) back := by
  simpa [Duplex, Direction, Traffic.sends, Traffic.carries, List.filterMap_cons, Msg.data?, Msg.ack?] using
    And.intro h hback

/-- An acknowledgment on its way is no data, so only the other direction sees it. -/
theorem Duplex.sends_ack {q : Byte} (h : Direction c u v out back)
    (hback : OneWay c v.sendState v.currentSendSeq v.pendingFrame v.txq u.nextExpectedSeq
      (back.msgs.filterMap Msg.data?) (out.msgs.filterMap Msg.ack? ++ [q]) back.accepted back.delivered) :
    Duplex c u v (out.sends [.ack q]) back := by
  simpa [Duplex, Direction, Traffic.sends, Traffic.carries, List.filterMap_cons, Msg.data?, Msg.ack?] using
    And.intro h hback

/-- The timer sends the pending frame again, which is a data message. -/
theorem Duplex.retransmit (h : Duplex c u v out back) (hawait : u.sendState = .awaitingAck) :
    ∃ m : Msg, u.pendingFrame = m.wire c ∧ Duplex c u v (out.sends [m]) back := by
  obtain ⟨hout, hback⟩ := h
  rw [Direction, hawait] at hout
  obtain ⟨p, hframe, hsent⟩ := hout.retransmit
  rw [← hawait] at hsent
  exact ⟨.data u.currentSendSeq p, hframe, Duplex.sends_data hsent hback⟩

/-- Phase 4 starts the head of the queue. -/
theorem Duplex.start (h : Duplex c u v out back) (hidle : u.sendState = .idle) {p : Bytes} {q : List Bytes}
    (hq : u.txq = p :: q) :
    Duplex c { u with sendState := .awaitingAck, pendingFrame := dataFrame c u.currentSendSeq p, txq := q } v
      (out.sends [.data u.currentSendSeq p]) back := by
  obtain ⟨hout, hback⟩ := h
  rw [Direction, hidle, hq] at hout
  exact Duplex.sends_data hout.start hback

/-- A data message is delivered and acknowledged, or it is a duplicate and acknowledged again. -/
theorem Duplex.receive_data (hN : 2 ≤ c.seqMod ∧ c.seqMod ≤ 256) {q : Byte} {p : Bytes} {ms : List Msg}
    (h : Duplex c u v out (back.carries (.data q p :: ms))) : q.toNat < c.seqMod ∧
    ((q = u.nextExpectedSeq ∧ Duplex c { u with nextExpectedSeq := nextSeq c u.nextExpectedSeq } v
        (out.sends [.ack q]) ((back.carries ms).delivers [p])) ∨
      (q ≠ u.nextExpectedSeq ∧ earlier c q u.nextExpectedSeq = true ∧
        Duplex c u v (out.sends [.ack q]) (back.carries ms))) := by
  obtain ⟨hout, hback⟩ := h
  refine ⟨hback.2.1 (q, p) (by simp [Traffic.carries, Msg.data?]), ?_⟩
  rcases hback.receive_data hN with ⟨hexpected, hdelivered⟩ | ⟨hne, hearlier, hduplicate⟩
  · exact .inl ⟨hexpected, Duplex.sends_ack hout hdelivered⟩
  · exact .inr ⟨hne, hearlier, Duplex.sends_ack hout hduplicate⟩

/-- An acknowledgment is the one awaited, or it is ignored. -/
theorem Duplex.receive_ack (hN : 2 ≤ c.seqMod ∧ c.seqMod ≤ 256) {k : Byte} {ms : List Msg}
    (h : Duplex c u v out (back.carries (.ack k :: ms))) :
    ((u.sendState = .awaitingAck ∧ k = u.currentSendSeq) ∧ ∀ frame,
      Duplex c { u with
        sendState := .idle
        currentSendSeq := nextSeq c u.currentSendSeq
        pendingFrame := frame } v out (back.carries ms)) ∨
    (¬(u.sendState = .awaitingAck ∧ k = u.currentSendSeq) ∧ Duplex c u v out (back.carries ms)) := by
  obtain ⟨hout, hback⟩ := h
  rcases hout.receive_ack hN with ⟨hmatch, hfreed⟩ | ⟨hother, hignored⟩
  · exact .inl ⟨hmatch, fun frame => ⟨hfreed frame, hback⟩⟩
  · exact .inr ⟨hother, hignored, hback⟩

end

/-! ## One cycle -/

/-- `u` in the middle of a cycle: what it has transmitted so far are messages, and with them on their way and what it
has delivered counted, both directions hold. -/
def Cycling (c : Cfg) (u v : State) (out back : Traffic) : Prop :=
  u.cfg = c ∧ ∃ sent : List Msg, u.tx = sent.flatMap (Msg.wire c) ∧
    Duplex c u v (out.sends sent) (back.delivers u.deliveries)

section
variable {c : Cfg} {u v : State} {out back : Traffic}

/-- One more message is transmitted. -/
theorem Cycling.of_sends {sent : List Msg} {m : Msg} (hcfg : u.cfg = c)
    (htx : u.tx = sent.flatMap (Msg.wire c) ++ m.wire c)
    (h : Duplex c u v ((out.sends sent).sends [m]) (back.delivers u.deliveries)) : Cycling c u v out back := by
  rw [Traffic.sends_sends] at h
  exact ⟨hcfg, sent ++ [m], by simpa using htx, h⟩

theorem Cycling.begin (hcfg : u.cfg = c) (h : Duplex c u v out back) : Cycling c u.begin v out back := by
  refine ⟨hcfg, [], rfl, ?_⟩
  rw [Traffic.sends_nil, State.begin_deliveries, Traffic.delivers_nil]
  exact h

theorem Cycling.onTick {t : State} {now : Nat} (h : Cycling c u v out back) (hok : u.onTick now = .ok t) :
    Cycling c t v out back := by
  rcases onTick_eq_ok.1 hok with ⟨-, rfl⟩ | ⟨hawait, -, ⟨-, rfl⟩ | ⟨-, rfl⟩⟩
  · exact h
  · exact h
  · obtain ⟨hcfg, sent, htx, hduplex⟩ := h
    obtain ⟨m, hframe, hsent⟩ := hduplex.retransmit hawait
    exact Cycling.of_sends hcfg (congrArg₂ _ htx hframe) hsent

theorem Cycling.phase4 (h : Cycling c u v out back) (now : Nat) : Cycling c (u.phase4 now) v out back := by
  rcases phase4_cases u now with ⟨p, q, hq, hidle, hstart⟩ | ⟨-, hstay⟩
  · obtain ⟨rfl, sent, htx, hduplex⟩ := h
    rw [hstart, submit_idle (s := u.qPop) hidle]
    have htail : u.qPop.txq = q := by simp [hq]
    have hsent := hduplex.start hidle hq
    rw [← htail] at hsent
    exact Cycling.of_sends rfl (congrArg (· ++ _) htx) hsent
  · rw [hstay]
    exact h

/-- The body of the oldest message is received. -/
theorem Cycling.receives (hv : c.valid = true) {m : Msg} {ms : List Msg}
    (h : Cycling c u v out (back.carries (m :: ms))) :
    Cycling c (u.onFrameReceived (m.body c)) v out (back.carries ms) := by
  obtain ⟨rfl, sent, htx, hduplex⟩ := h
  have hN := Cfg.valid_seqMod hv
  rw [onFrameReceived_msg hv]
  cases m with
  | data q p =>
    obtain ⟨hq, ⟨hexpected, hdelivered⟩ | ⟨hne, hearlier, hduplicate⟩⟩ :=
      Duplex.receive_data (back := back.delivers u.deliveries) hN hduplex
    · simp only [hq, if_true, dataArm_expected p hexpected]
      refine Cycling.of_sends (sent := sent) (m := .ack q) (by simp) (by rw [State.dataInOrder_tx, htx]; rfl) ?_
      rw [State.dataInOrder_deliveries, ← Traffic.delivers_delivers]
      exact hdelivered.congr (by simp [State.linkView])
    · simp only [hq, if_true, dataArm_earlier p hne hearlier]
      refine Cycling.of_sends (sent := sent) (m := .ack q) (by simp) (by rw [State.dataDuplicate_tx, htx]; rfl) ?_
      rw [State.dataDuplicate_deliveries]
      exact hduplicate.congr (by simp [State.linkView])
  | ack k =>
    simp only
    rcases Duplex.receive_ack (back := back.delivers u.deliveries) hN hduplex with ⟨hmatch, hfreed⟩ | ⟨hother, hignored⟩
    · rcases ackArm_cases u k with ⟨-, -, harm⟩ | ⟨hnot, -⟩
      · rw [harm]
        exact ⟨rfl, sent, htx, (hfreed _).congr rfl⟩
      · exact absurd hmatch hnot
    · rcases ackArm_cases u k with ⟨hawait, hseq, -⟩ | ⟨-, harm⟩
      · exact absurd ⟨hawait, hseq⟩ hother
      · rw [harm]
        exact ⟨rfl, sent, htx, hignored.congr rfl⟩

/-- The frames of phase 3: those that verify are the bodies of messages, oldest first; the others are dropped. -/
theorem Cycling.foldl_receives (hv : c.valid = true) (ms left : List Msg) (frames : List Framed) (u : State)
    (hbodies : (frames.map Framed.body).filter (verify c) = ms.map (Msg.body c))
    (h : Cycling c u v out (back.carries (ms ++ left))) :
    Cycling c (frames.foldl State.receives u) v out (back.carries left) := by
  induction frames generalizing u ms with
  | nil =>
    obtain rfl := List.map_eq_nil_iff.1 hbodies.symm
    exact h
  | cons f frames ih =>
    have hreported : Cycling c (u.reports f.garbage f.resyncs) v out (back.carries (ms ++ left)) := h
    rw [List.foldl_cons, State.receives]
    rw [List.map_cons, List.filter_cons] at hbodies
    cases hverify : verify c f.body with
    | false =>
      rw [hverify, if_neg (by simp)] at hbodies
      refine ih ms _ hbodies ?_
      rw [onFrameReceived_of_verify_false (by rw [hreported.1]; exact hverify)]
      exact h
    | true =>
      rw [hverify, if_pos rfl] at hbodies
      obtain ⟨m, ms, rfl, hbody, hrest⟩ := List.map_eq_cons_iff.1 hbodies.symm
      rw [← hbody]
      exact ih ms _ hrest.symm (hreported.receives hv)

theorem Cycling.phase3 (hv : c.valid = true) {ms left : List Msg}
    (hbodies : (bodiesOf c u.rxbuf).filter (verify c) = ms.map (Msg.body c))
    (h : Cycling c u v out (back.carries (ms ++ left))) : Cycling c u.phase3 v out (back.carries left) := by
  obtain ⟨rest, hloop, -⟩ := decodeLoop_reports _ u u.rxbuf u.result (Nat.lt_succ_self _)
  have hphase : u.phase3 = _ := hloop
  rw [hphase]
  refine Cycling.foldl_receives hv ms left _ u ?_ h
  rw [framesReported_bodies, h.1]
  exact hbodies

/-- A whole cycle: what `u` transmits are messages, and with them on their way, those received or lost gone, and what it
has delivered counted, both directions hold again. -/
theorem Duplex.cycle (hv : c.valid = true) (hcfg : u.cfg = c) (h : Duplex c u v out back) {now : Nat} {rx : Bytes}
    {t : State} {left : List Bytes} (hhands : mediumHands u rx (back.msgs.map (Msg.body c)) left)
    (hexec : exec (.cycle now rx) u = .next t) :
    t.cfg = c ∧ ∃ sent kept : List Msg, bodiesOf c t.tx = sent.map (Msg.body c) ∧ left = kept.map (Msg.body c) ∧
      Duplex c t v (out.sends sent) ((back.carries kept).delivers t.deliveries) := by
  obtain ⟨gone, hheld, hsub⟩ := hhands
  obtain ⟨goneMsgs, kept, hmsgs, rfl, rfl⟩ := List.map_eq_append_iff.1 hheld
  obtain ⟨ms, hms, hbodies⟩ := List.sublist_map_iff.1 hsub
  have hlost : Duplex c u v out (back.carries (ms ++ kept)) := h.lose (hmsgs ▸ hms.append_right kept)
  simp only [exec, execCycle, operation_eq_next] at hexec
  obtain ⟨-, hok⟩ := hexec
  obtain ⟨-, ticked, filled, htick, hfill, rfl⟩ := cycle_eq_ok.1 hok
  obtain ⟨-, rfl⟩ := bufAppend_eq_ok.1 hfill
  have hticked := (Cycling.begin hcfg hlost).onTick htick
  have hbuf : ticked.rxbuf = u.rxbuf := by rw [onTick_frame htick]; rfl
  rw [hcfg, ← hbuf] at hbodies
  have hfilled : Cycling c { ticked with rxbuf := ticked.rxbuf ++ rx } v out (back.carries (ms ++ kept)) := hticked
  obtain ⟨htcfg, sent, htx, hduplex⟩ := (hfilled.phase3 hv hbodies).phase4 now
  refine ⟨htcfg, sent, kept, ?_, rfl, hduplex⟩
  rw [bodiesOf]
  exact (congrArg _ (congrArg _ htx)).trans (congrArg _ (bodiesOf_wire (Cfg.valid_reserved hv) sent))

/-- Everything SEND can answer with a next state (R171). -/
theorem send_eq_ok {s t : State} {p : Bytes} (h : s.send p = .ok t) :
    t = s.returns .full ∨ t = (s.qPush p).returns .accepted := by
  unfold State.send at h
  split at h
  · cases h
  split at h
  · exact .inl (Except.ok.inj h).symm
  · exact .inr (Except.ok.inj h).symm

theorem Duplex.send (h : Duplex c u v out back) {p : Bytes} {t : State} (hexec : exec (.send p) u = .next t) :
    t.cfg = u.cfg ∧ Duplex c t v (out.accepts (if t.result = .accepted then [p] else [])) back := by
  simp only [exec, execSend, operation_eq_next] at hexec
  rcases send_eq_ok hexec.2 with rfl | rfl
  · refine ⟨rfl, ?_⟩
    have hnone : out.accepts [] = out := by simp [Traffic.accepts]
    rw [← hnone] at h
    exact h
  · exact ⟨rfl, h.push p⟩

end

/-! ## The run -/

/-- What holds of a link on the way: both directions, the one from `b` to `a` with payloads `Link` does not count. -/
def LinkHolds (c : Cfg) (l : Link) : Prop :=
  l.a.cfg = c ∧ l.b.cfg = c ∧ ∃ out back : Traffic, l.toB = out.msgs.map (Msg.body c) ∧
    l.toA = back.msgs.map (Msg.body c) ∧ out.accepted = l.accepted ∧ out.delivered = l.delivered ∧
    Duplex c l.a l.b out back

theorem linkHolds_fresh {l : Link} (h : l.Fresh) : ∃ c, c.valid = true ∧ LinkHolds c l := by
  obtain ⟨⟨c, s, t, hv, ha, hb⟩, htoB, htoA, hacc, hdel⟩ := h
  obtain ⟨-, ha⟩ := exec_reset_eq_next.1 ha
  obtain ⟨-, hb⟩ := exec_reset_eq_next.1 hb
  rw [if_pos hv] at ha hb
  have hN := Cfg.valid_seqMod hv
  have hquiet : ∀ s t : State, Direction c (s.cleared c) (t.cleared c) ⟨[], [], []⟩ ⟨[], [], []⟩ := fun s t =>
    ⟨by simp; omega, by simp, .inl ⟨rfl, rfl, rfl, by simp, by simp⟩⟩
  refine ⟨c, hv, by rw [ha]; rfl, by rw [hb]; rfl, ⟨[], [], []⟩, ⟨[], [], []⟩, htoB, htoA, hacc.symm, hdel.symm, ?_⟩
  rw [ha, hb]
  exact ⟨hquiet s t, hquiet t s⟩

theorem linkHolds_step {c : Cfg} (hv : c.valid = true) {l l' : Link} (hstep : Link.Step l l') (h : LinkHolds c l) :
    LinkHolds c l' := by
  obtain ⟨ha, hb, out, back, htoB, htoA, hacc, hdel, hduplex⟩ := h
  cases hstep with
  | sendA payload a hexec =>
    obtain ⟨hcfg, hsent⟩ := hduplex.send hexec
    exact ⟨hcfg.trans ha, hb, out.accepts _, back, htoB, htoA, congrArg (· ++ _) hacc, hdel, hsent⟩
  | sendB payload b hexec =>
    obtain ⟨hcfg, hsent⟩ := hduplex.symm.send hexec
    exact ⟨ha, hcfg.trans hb, out, back.accepts _, htoB, htoA, hacc, hdel, hsent.symm⟩
  | cycleA now rx left a hands hexec =>
    rw [htoA] at hands
    obtain ⟨hcfg, sent, kept, hbodies, hleft, hcycled⟩ := hduplex.cycle hv ha hands hexec
    refine ⟨hcfg, hb, out.sends sent, (back.carries kept).delivers a.deliveries, ?_, hleft, hacc, hdel, hcycled⟩
    simp [ha, hbodies, htoB, Traffic.sends, Traffic.carries]
  | cycleB now rx left b hands hexec =>
    rw [htoB] at hands
    obtain ⟨hcfg, sent, kept, hbodies, hleft, hcycled⟩ := hduplex.symm.cycle hv hb hands hexec
    refine ⟨ha, hcfg, (out.carries kept).delivers b.deliveries, back.sends sent, hleft, ?_, hacc,
      congrArg (· ++ _) hdel, hcycled.symm⟩
    simp [hb, hbodies, htoA, Traffic.sends, Traffic.carries]

/-- Settles O54: the invariant of the direction from `a` to `b` names the payload that is outstanding, if any. -/
theorem payloadsDeliveredOnceInOrder : Obligations.PayloadsDeliveredOnceInOrder := by
  intro l l' hfresh hrun
  obtain ⟨c, hv, hstart⟩ := linkHolds_fresh hfresh
  have hend : LinkHolds c l' := by
    induction hrun with
    | refl => exact hstart
    | tail _ hstep ih => exact linkHolds_step hv hstep ih
  obtain ⟨-, -, out, back, -, -, hacc, hdel, ⟨-, -, hdirection⟩, -⟩ := hend
  rw [hacc, hdel] at hdirection
  rcases hdirection with ⟨-, -, hidle, -⟩ | ⟨hawait, -, p, -, houtstanding, -⟩ | ⟨hawait, -, -, hdelivered, -⟩
  · exact ⟨[], by simpa using hidle, by simp, fun _ => rfl⟩
  · exact ⟨[p], by simpa using houtstanding, by simp, fun hidle => nomatch hidle.symm.trans hawait⟩
  · exact ⟨[], by simpa using hdelivered, by simp, fun _ => rfl⟩

end Sys2Proof.Machine
end

