-- ==== Sys2Proof/Proofs/Endpoint.lean ====
section
/-! PROOFS. Spec/43_endpoint.md: SEND (R171), and the order of what an operation transmits (R177). -/

namespace Sys2Proof.Machine

/-! ## What an operation transmits (R177) -/

theorem Event.rank?_of_framing (e : Event) (h : e.framing = true) : e.rank? = none := by
  cases e with
  | resync | garbage => rfl
  | _ => cases h

/-- An event with no place in the order of R177 stands for no bytes. -/
theorem Event.transmits_of_rank?_none {e : Event} (h : e.rank? = none) (c : Cfg) (before after : Bytes) :
    e.transmits c before after = [] := by
  cases e with
  | txData | txRetx | txAck => cases h
  | _ => rfl

/-- The places, in the order of R177, of the transmissions an operation has told of. -/
def State.txRanks (s : State) : List Nat := s.events.filterMap Event.rank?

theorem State.txRanks_of_events {u v : State} {added : List Event} (h : v.events = u.events ++ added) :
    v.txRanks = u.txRanks ++ added.filterMap Event.rank? := by
  rw [State.txRanks, h, List.filterMap_append, State.txRanks]

/-- What R177 says of an operation that began in `s` and has come to `t`. -/
def TransmitsInOrder (s t : State) : Prop :=
  t.tx = t.events.flatMap (Event.transmits s.cfg s.pendingFrame t.pendingFrame) ∧
    t.txRanks.Pairwise (· ≤ ·) ∧ t.txRanks.count 0 ≤ 1 ∧ t.txRanks.count 2 ≤ 1

/-- An operation begun in `s` and come to `u` has started no new frame: whichever frame will be pending after it, the
bytes are those of the events, and an acknowledgment may still follow. -/
def NoDataYet (s u : State) : Prop :=
  u.cfg = s.cfg ∧ (∀ after, u.tx = u.events.flatMap (Event.transmits s.cfg s.pendingFrame after)) ∧
    u.txRanks.Pairwise (· ≤ ·) ∧ u.txRanks.count 0 ≤ 1 ∧ ∀ r ∈ u.txRanks, r ≤ 1

/-- From `u` to `v` only acknowledgments are transmitted, each with its event. -/
def OnlyAcknowledges (u v : State) : Prop :=
  v.cfg = u.cfg ∧ ∃ added, v.events = u.events ++ added ∧
    (∀ before after, v.tx = u.tx ++ added.flatMap (Event.transmits u.cfg before after)) ∧
    ∀ r ∈ added.filterMap Event.rank?, r = 1

theorem onlyAcknowledges_tryDecode (u : State) : OnlyAcknowledges u u.tryDecode := by
  have hrank : ∀ e ∈ scanEvents (scan u.cfg u.rxbuf), e.rank? = none :=
    fun e he => e.rank?_of_framing (scanEvents_framing _ e he)
  refine ⟨rfl, scanEvents (scan u.cfg u.rxbuf), State.tryDecode_events u, fun before after => ?_, ?_⟩
  · have hbytes := List.flatMap_eq_nil_iff.2 fun e he => Event.transmits_of_rank?_none (hrank e he) u.cfg before after
    rw [hbytes, List.append_nil, State.tryDecode_tx]
  · simp [List.filterMap_eq_nil_iff.2 hrank]

/-- Of the arms of ON_FRAME_RECEIVED only those of data transmit, one acknowledgment each (R146, R147). -/
theorem onlyAcknowledges_onFrameReceived (u : State) (raw : Bytes) : OnlyAcknowledges u (u.onFrameReceived raw) := by
  refine ⟨onFrameReceived_cfg u raw, ?_⟩
  rcases onFrameReceived_cases u raw with ⟨e, he, h⟩ | ⟨-, h⟩ | ⟨-, -, -, h⟩ | ⟨-, h⟩ | ⟨-, h⟩
  · refine ⟨[e], by rw [h, State.event_events], ?_⟩
    simp only [List.mem_cons, List.not_mem_nil, or_false] at he
    rcases he with rfl | rfl | rfl <;> simp [h, Event.transmits, Event.rank?]
  · rcases ackArm_cases u (bodySeq raw) with ⟨-, -, harm⟩ | ⟨-, harm⟩
    · exact ⟨[.ackAccept (bodySeq raw)], by simp [h, harm, Event.transmits, Event.rank?]⟩
    · exact ⟨[.ackIgnored (bodySeq raw)], by simp [h, harm, Event.transmits, Event.rank?]⟩
  · exact ⟨[.deliver (bodySeq raw), .txAck (bodySeq raw)], by simp [h, Event.transmits, Event.rank?]⟩
  · exact ⟨[.dupData (bodySeq raw), .txAck (bodySeq raw)], by simp [h, Event.transmits, Event.rank?]⟩
  · exact ⟨[.dropFuture (bodySeq raw)], by simp [h, Event.transmits, Event.rank?]⟩

section
variable {s t u v : State} {now : Nat}

theorem noDataYet_begin (s : State) : NoDataYet s s.begin := by
  simp [NoDataYet, State.txRanks]

/-- ON_TICK, the first thing of an operation, transmits at most the frame pending before. -/
theorem noDataYet_onTick (htick : s.begin.onTick now = .ok t) : NoDataYet s t := by
  rcases onTick_eq_ok.1 htick with ⟨-, rfl⟩ | ⟨-, -, ⟨-, rfl⟩ | ⟨-, rfl⟩⟩
  · exact noDataYet_begin s
  · exact noDataYet_begin s
  · simp [NoDataYet, State.txRanks, Event.transmits, Event.rank?]

theorem NoDataYet.acknowledges (h : NoDataYet s u) (hack : OnlyAcknowledges u v) : NoDataYet s v := by
  obtain ⟨hcfg, htx, hsorted, hretx, hle⟩ := h
  obtain ⟨hvcfg, added, hevents, hvtx, hone⟩ := hack
  have hranks := State.txRanks_of_events hevents
  have hsame : (added.filterMap Event.rank?).Pairwise (· ≤ ·) :=
    List.pairwise_of_forall_mem_list fun a ha b hb => by rw [hone a ha, hone b hb]
  have hno : (added.filterMap Event.rank?).count 0 = 0 :=
    List.count_eq_zero.2 fun hmem => absurd (hone 0 hmem) (by decide)
  refine ⟨hvcfg.trans hcfg, fun after => ?_, ?_, ?_, ?_⟩
  · rw [hvtx s.pendingFrame after, hevents, List.flatMap_append, ← htx after, hcfg]
  · rw [hranks, List.pairwise_append]
    exact ⟨hsorted, hsame, fun a ha b hb => hone b hb ▸ hle a ha⟩
  · rw [hranks, List.count_append, hno]
    exact hretx
  · rw [hranks]
    intro r hr
    rcases List.mem_append.1 hr with hr | hr
    · exact hle r hr
    · exact (hone r hr).le

theorem NoDataYet.phase3 (h : NoDataYet s u) : NoDataYet s u.phase3 :=
  decodeLoop_keeps (fun w hw => hw.acknowledges (onlyAcknowledges_tryDecode w))
    (fun w raw hw => hw.acknowledges (onlyAcknowledges_onFrameReceived w raw)) _ u h

theorem NoDataYet.count_two (h : NoDataYet s u) : u.txRanks.count 2 = 0 := by
  obtain ⟨-, -, -, -, hle⟩ := h
  exact List.count_eq_zero.2 fun hmem => absurd (hle 2 hmem) (by decide)

theorem NoDataYet.ends (h : NoDataYet s u) : TransmitsInOrder s u := by
  have hdata := h.count_two
  obtain ⟨-, htx, hsorted, hretx, -⟩ := h
  exact ⟨htx _, hsorted, hretx, by omega⟩

/-- SUBMIT, the last thing of an operation, transmits at most the frame it leaves pending. -/
theorem NoDataYet.submit (h : NoDataYet s u) (p : Bytes) (now : Nat) : TransmitsInOrder s (u.submit p now) := by
  cases hstate : u.sendState with
  | awaitingAck =>
    rw [submit_awaiting hstate]
    exact h.ends
  | idle =>
    have hdata := h.count_two
    obtain ⟨-, htx, hsorted, hretx, hle⟩ := h
    have hranks : (u.submit p now).txRanks = u.txRanks ++ [2] :=
      State.txRanks_of_events (added := [.txData u.currentSendSeq]) (by rw [submit_idle hstate])
    refine ⟨?_, ?_, ?_, ?_⟩
    · rw [submit_idle hstate, List.flatMap_append, ← htx]
      simp [Event.transmits]
    · rw [hranks, List.pairwise_append]
      refine ⟨hsorted, List.pairwise_singleton _ _, fun a ha b hb => ?_⟩
      rw [List.mem_singleton.1 hb]
      exact (hle a ha).trans (by decide)
    · simpa [hranks] using hretx
    · simp [hranks, hdata]

theorem NoDataYet.phase4 (h : NoDataYet s u) (now : Nat) : TransmitsInOrder s (u.phase4 now) := by
  rcases phase4_cases u now with ⟨p, q, -, -, hstart⟩ | ⟨-, hstay⟩
  · rw [hstart]
    have hpop : NoDataYet s u.qPop := h
    exact hpop.submit p now
  · rw [hstay]
    exact h.ends

/-- The four phases of CYCLE in order (R172): ON_TICK, the buffer, the frames received, the frame started. -/
theorem transmitsInOrder_cycle {rx : Bytes} (hok : s.begin.cycle now rx = .ok t) : TransmitsInOrder s t := by
  obtain ⟨-, ticked, filled, htick, hfill, rfl⟩ := cycle_eq_ok.1 hok
  obtain ⟨-, rfl⟩ := bufAppend_eq_ok.1 hfill
  have hticked := noDataYet_onTick htick
  have hfilled : NoDataYet s { ticked with rxbuf := ticked.rxbuf ++ rx } := hticked
  exact hfilled.phase3.phase4 now

end

/-- Settles O49: ON_TICK comes first and SUBMIT last, and between them only acknowledgments are transmitted. -/
theorem transmittedBytesFollowEvents : Obligations.TransmittedBytesFollowEvents := by
  intro i s t hi hexec
  change TransmitsInOrder s t
  have hbegin := noDataYet_begin s
  rcases exec_next_cases hexec with ⟨cfg, rfl, -⟩ | ⟨-, -, ⟨ht, -⟩ | ⟨p, -, -, -, rfl⟩ | ⟨now, rx, -, hok⟩ |
    ⟨arrived, -, -, rfl⟩ | ⟨p, now, -, -, rfl⟩ | ⟨raw, -, rfl⟩ | ⟨now, -, hok⟩⟩
  · exact absurd rfl (hi cfg)
  · rw [ht]
    exact hbegin.ends
  · exact hbegin.ends
  · exact transmitsInOrder_cycle hok
  · have hfilled : NoDataYet s { s.begin with rxbuf := s.rxbuf ++ arrived } := hbegin
    exact (hfilled.acknowledges (onlyAcknowledges_tryDecode _)).ends
  · exact hbegin.submit p now
  · exact (hbegin.acknowledges (onlyAcknowledges_onFrameReceived _ raw)).ends
  · exact (noDataYet_onTick hok).ends

/-! ## SEND (R171) -/

theorem State.txqFull_iff {s : State} :
    s.txqFull = true ↔ ∃ depth, s.cfg.txqDepth = some depth ∧ depth ≤ s.txq.length := by
  unfold State.txqFull
  cases s.cfg.txqDepth <;> simp

section
variable {s : State} {p : Bytes}

theorem send_tooLong (h : fits s.cfg.maxPayload p.length = false) : s.send p = .error .payloadTooLong := by
  simp [State.send, h]

theorem send_full (h : fits s.cfg.maxPayload p.length = true) (hfull : s.txqFull = true) :
    s.send p = .ok (s.returns .full) := by
  simp [State.send, h, hfull]

theorem send_queued (h : fits s.cfg.maxPayload p.length = true) (hroom : s.txqFull = false) :
    s.send p = .ok ((s.qPush p).returns .accepted) := by
  simp [State.send, h, hroom]

end

/-- Settles O44, by the three answers of SEND. -/
theorem sendQueuesInOrder : Obligations.SendQueuesInOrder := by
  intro p s
  refine ⟨exec_faulted (by simp), fun hf hlong => ?_, fun hf hfits => ⟨fun depth hdepth hlen => ?_, fun hroom => ?_⟩⟩
  · rw [exec_send hf, send_tooLong (s := s.begin) hlong]
    rfl
  · have hfull : s.begin.txqFull = true := State.txqFull_iff.2 ⟨depth, hdepth, hlen.ge⟩
    rw [exec_send hf, send_full (s := s.begin) hfits hfull]
    rfl
  · have hnotFull : s.begin.txqFull = false := by
      refine Bool.eq_false_iff.2 fun hfull => ?_
      obtain ⟨depth, hdepth, hle⟩ := State.txqFull_iff.1 hfull
      exact (hroom depth hdepth).not_ge hle
    rw [exec_send hf, send_queued (s := s.begin) hfits hnotFull]
    rfl

end Sys2Proof.Machine
end

