-- ==== Sys2Proof/Proofs/Exceptions.lean ====
section
/-! PROOFS. Spec/60_exceptions.md: transport damage (R191), the one exception (R194) and the events (R195). -/

namespace Sys2Proof.Machine

/-! ## ConfigError (R194) -/

theorem scanResult_ne_configError (k : Scan) : scanResult k ≠ .configError := by
  unfold scanResult
  split <;> simp

/-- A byte row returns what TRY_DECODE returns. -/
theorem byteArrives_result_ne_configError {s t : State} {b : Byte} (h : s.byteArrives b = .ok t) :
    t.result ≠ .configError := by
  obtain ⟨filled, -, rfl⟩ := byteArrives_eq_ok.1 h
  exact scanResult_ne_configError _

theorem submit_result_ne_configError (s : State) (p : Bytes) (now : Nat) :
    (s.submit p now).result ≠ .configError := by
  cases hstate : s.sendState with
  | idle => simp [submit_idle hstate]
  | awaitingAck => simp [submit_awaiting hstate]

/-- Whatever completes, but for RESET, began with the latch clear (R28). -/
theorem not_faulted_of_exec_next {i : Instr} {s t : State} (hi : ∀ cfg, i ≠ .reset cfg) (h : exec i s = .next t) :
    s.fault = false := by
  refine Bool.eq_false_iff.2 fun hfault => ?_
  rw [exec_faulted hi hfault] at h
  cases h

/-- No operation but RESET returns `ConfigError`. -/
theorem exec_result_ne_configError {i : Instr} {s t : State} (hi : ∀ cfg, i ≠ .reset cfg) (h : exec i s = .next t) :
    t.result ≠ .configError := by
  have hf := not_faulted_of_exec_next hi h
  cases i with
  | reset cfg => exact absurd rfl (hi cfg)
  | parity | crcRemainder | verify | encode | dataframe | ackframe =>
    simp only [exec_parity hf, exec_crcRemainder hf, exec_verify hf, exec_encode hf, exec_dataframe hf,
      exec_ackframe hf] at h
    cases h
    simp
  | appendChecksum bytes =>
    rw [exec_appendChecksum hf] at h
    split at h <;> cases h
    simp
  | send p =>
    rw [exec_send hf, answer_eq_next] at h
    rcases send_eq_ok h with rfl | rfl <;> simp
  | cycle now rx =>
    rw [exec_cycle hf, answer_eq_next] at h
    obtain ⟨-, ticked, filled, -, -, rfl⟩ := cycle_eq_ok.1 h
    simp
  | tryDecode =>
    rw [exec_tryDecode hf] at h
    cases h
    exact scanResult_ne_configError _
  | start | stop | escape | literal =>
    simp only [exec_start hf, exec_stop hf, exec_escape hf, exec_literal hf, answer_eq_next] at h
    exact byteArrives_result_ne_configError h
  | submit p now =>
    rw [exec_submit hf, answer_eq_next] at h
    obtain ⟨-, rfl⟩ := submitChecked_eq_ok.1 h
    exact submit_result_ne_configError _ p now
  | onFrameReceived | data | ack | reservedAckflag =>
    simp only [exec_onFrameReceived hf, exec_data hf, exec_ack hf, exec_reservedAckflag hf] at h
    cases h
    simp
  | onTick now =>
    rw [exec_onTick hf, answer_eq_next] at h
    have hresult : t.result = .none := by rw [onTick_frame h]; rfl
    simp [hresult]

/-- RESET returns `ConfigError` of an invalid configuration only (R220). -/
theorem exec_reset_result_eq_configError {cfg : Cfg} {s t : State} (h : exec (.reset cfg) s = .next t) :
    t.result = .configError ↔ cfg.valid = false := by
  obtain ⟨-, rfl⟩ := exec_reset_eq_next.1 h
  cases cfg.valid with
  | true => simp
  | false => simp

theorem exec_reset_of_invalid {cfg : Cfg} {s : State} (hfits : fits s.degMax (deg cfg.g).toNat = true)
    (hv : cfg.valid = false) : exec (.reset cfg) s = .next (s.cleared cfg).raiseConfigError := by
  simp [exec_reset hfits, hv]

theorem exec_reset_of_valid {cfg : Cfg} {s : State} (hfits : fits s.degMax (deg cfg.g).toNat = true)
    (hv : cfg.valid = true) : exec (.reset cfg) s = .next (s.cleared cfg) := by
  simp [exec_reset hfits, hv]

/-- Settles O4: RESET alone returns the error; the latch it leaves refuses everything else, and RESET, which does not
read the latch, clears it. -/
theorem configErrorLatches : Obligations.ConfigErrorLatches := by
  refine ⟨fun i s t h herr => ?_, fun bad good s hbad hgood hfbad hfgood => ?_⟩
  · by_cases hi : ∃ cfg, i = .reset cfg
    · obtain ⟨cfg, rfl⟩ := hi
      exact ⟨cfg, rfl, (exec_reset_result_eq_configError h).1 herr⟩
    · exact absurd herr (exec_result_ne_configError (not_exists.1 hi) h)
  · exact ⟨_, exec_reset_of_invalid hfbad hbad, rfl, rfl, rfl, rfl, fun i hi => exec_faulted hi rfl,
      _, exec_reset_of_valid hfgood hgood, rfl, rfl⟩

/-! ## Transport damage (R191) -/

/-- Everything VERIFY can answer with a next state (R106). -/
theorem exec_verify_eq_next {full : Bytes} {s t : State} :
    exec (.verify full) s = .next t ↔ s.fault = false ∧ t = s.begin.returns (.verdict (verify s.cfg full)) := by
  simp only [exec, execVerify, operation_eq_next, Except.ok.injEq, State.begin_cfg, eq_comm (a := t)]

/-- Settles O33: the verdict VERIFY returns is the one the gate of ON_FRAME_RECEIVED tests. -/
theorem damagedBodyDropped : Obligations.DamagedBodyDropped := by
  intro raw s h
  obtain ⟨hf, ht⟩ := exec_verify_eq_next.1 h
  have hverdict : verify s.cfg raw = false := by simpa using (congrArg State.result ht).symm
  rw [exec_onFrameReceived hf, onFrameReceived_of_verify_false (s := s.begin) hverdict]
  rfl

/-! ## The events (R195) -/

/-- The event of a code and its information, where the table has one; the information of an event that carries none
is not read. -/
def Event.ofCode (code info : Nat) : Event :=
  match code with
  | 0 => .txData (BitVec.ofNat 8 info)
  | 1 => .txRetx (BitVec.ofNat 8 info)
  | 2 => .txAck (BitVec.ofNat 8 info)
  | 3 => .deliver (BitVec.ofNat 8 info)
  | 4 => .ackAccept (BitVec.ofNat 8 info)
  | 5 => .ackIgnored (BitVec.ofNat 8 info)
  | 6 => .dupData (BitVec.ofNat 8 info)
  | 7 => .dropChecksum
  | 8 => .dropShort
  | 9 => .dropReserved
  | 10 => .dropFuture (BitVec.ofNat 8 info)
  | 11 => .resync
  | _ => .garbage info

/-- The table read backwards, row by row. -/
theorem Event.ofCode_code_info (e : Event) : Event.ofCode e.code (e.info.getD 0) = e := by
  cases e with
  | dropChecksum | dropShort | dropReserved | resync | garbage => rfl
  | _ => simp [Event.ofCode, Event.code, Event.info]

theorem Event.code_le (e : Event) : e.code ≤ 12 := by
  cases e <;> simp [Event.code]

/-- Settles O10: the rows by definition, and an event is recovered from its code and its information. -/
theorem eventsToldByCode : Obligations.EventsToldByCode := by
  refine ⟨fun _ _ => rfl, fun e f => ⟨e.code_le, fun hcode hinfo => ?_⟩⟩
  rw [← e.ofCode_code_info, hcode, hinfo, f.ofCode_code_info]

end Sys2Proof.Machine
end

