-- ==== Sys2Proof/Proofs/Reset.lean ====
section
/-! PROOFS. Spec/70_reset_and_hazards.md: RESET alone writes the configuration (R220, R60). -/

namespace Sys2Proof.Machine

/-- RESET latches its operand, valid or not, and leaves `DEG_MAX` and the inbox (R220; log entries 1, 6 and 17). -/
theorem exec_reset_const {cfg : Cfg} {s t : State} (h : exec (.reset cfg) s = .next t) :
    t.cfg = cfg ∧ t.degMax = s.degMax ∧ t.inbox = s.inbox := by
  obtain ⟨-, rfl⟩ := exec_reset_eq_next.1 h
  cases cfg.valid with
  | true => exact ⟨rfl, rfl, rfl⟩
  | false => exact ⟨rfl, rfl, rfl⟩

/-- Settles O6: RESET latches its operand, and `exec_const` says what every other instruction leaves. -/
theorem configurationLatched : Obligations.ConfigurationLatched := by
  intro i s t h
  by_cases hi : ∃ cfg, i = .reset cfg
  · obtain ⟨cfg, rfl⟩ := hi
    obtain ⟨hcfg, hconst⟩ := exec_reset_const h
    exact ⟨.inl ⟨cfg, rfl, hcfg⟩, hconst⟩
  · have hother := not_exists.1 hi
    obtain ⟨-, hcfg, hconst⟩ := exec_const hother h
    exact ⟨.inr ⟨hother, hcfg⟩, hconst⟩

end Sys2Proof.Machine
end

