-- ==== Sys2Proof/Proofs/Decoding.lean ====
section
/-! PROOFS. Spec/30_encoding.md: the decoder against the encoder (R71, R75, R80, R87), the frame rows as bodies (R80),
and one step (spec/60_exceptions.md R202). -/

namespace Sys2Proof

/-! ## Commands (R87; log entry 2) -/

theorem decodeCommand_eq_ok {op : Byte} {t r : Bytes} {i : Instr} :
    decodeCommand (op :: t) = .ok (i, r) ↔ op.toNat < 12 ∧ operandsDecode op.toNat t = some (i, r) := by
  rw [decodeCommand]
  split <;> rename_i hop
  · simp [not_lt.2 hop]
  · rw [not_le] at hop
    cases operandsDecode op.toNat t with
    | none => simp
    | some x => simp [hop]

/-- A command is read to its last byte, or not at all. -/
theorem decode_command_eq_ok {c : Cfg} {bytes : Bytes} {i : Instr} :
    decode c (.command bytes) = .ok i ↔ decodeCommand bytes = .ok (i, []) := by
  simp only [decode]
  cases decodeCommand bytes with
  | error e => simp
  | ok read =>
    obtain ⟨j, _ | _⟩ := read
    · simp
    · simp

/-- The operands of a command end where its encoding ends, whatever follows. -/
theorem decodeCommand_encode {c : Cfg} {i : Instr} {bytes : Bytes} (hwf : i.wf c = true)
    (h : encode c i = .command bytes) (r : Bytes) : decodeCommand (bytes ++ r) = .ok (i, r) := by
  cases i with
  | reset cfg =>
    cases h
    have hwidth : cfg.timeW ≠ some 0 := by simpa [Instr.wf] using hwf
    simp [decodeCommand_eq_ok, operandsDecode, cfgDecode_cfgCode hwidth]
  | appendChecksum bytes =>
    cases h
    have hlen : 1 ≤ bytes.length := List.length_pos_iff.2 (by simpa [Instr.wf] using hwf)
    simp [decodeCommand_eq_ok, operandsDecode, bytesDecode_bytesCode bytes _ hlen]
  | send | cycle | parity | crcRemainder | verify | encode | tryDecode | submit | onFrameReceived | onTick =>
    cases h
    simp [decodeCommand_eq_ok, operandsDecode, List.append_assoc]
  | start | stop | escape | literal | data | ack | reservedAckflag | dataframe | ackframe => cases h

theorem decode_encode_command {c : Cfg} {i : Instr} {bytes : Bytes} (hwf : i.wf c = true)
    (h : encode c i = .command bytes) : decode c (encode c i) = .ok i := by
  have hread := decodeCommand_encode hwf h []
  rw [List.append_nil] at hread
  rw [h, decode_command_eq_ok, hread]

/-! ## Bytes of the wire (R71) -/

theorem classifyByte_of_not_reserved {c : Cfg} {b : Byte} (h : c.isReserved b = false) :
    classifyByte c b = .literal b := by
  simp only [Cfg.isReserved, Bool.or_eq_false_iff, beq_eq_false_iff_ne] at h
  simp [classifyByte, h]

/-- The four classes, each with the byte it has. -/
theorem classifyByte_cases (c : Cfg) (b : Byte) :
    (b = c.start ∧ classifyByte c b = .start) ∨ (b = c.stop ∧ classifyByte c b = .stop) ∨
      (b = c.escape ∧ classifyByte c b = .escape) ∨ (c.isReserved b = false ∧ classifyByte c b = .literal b) := by
  unfold classifyByte
  split <;> rename_i hstart
  · exact .inl ⟨hstart, rfl⟩
  split <;> rename_i hstop
  · exact .inr (.inl ⟨hstop, rfl⟩)
  split <;> rename_i hescape
  · exact .inr (.inr (.inl ⟨hescape, rfl⟩))
  · exact .inr (.inr (.inr ⟨by simp [Cfg.isReserved, hstart, hstop, hescape], rfl⟩))

/-! ## Bodies (R75, R80, R81) -/

/-- A body of header, payload and checksum block is classified by its flag. -/
theorem classifyBody_cons {c : Cfg} (flag seq : Byte) (payload : Bytes) {checksum : Bytes}
    (h : checksum.length = c.checksumBytes) :
    classifyBody c (flag :: seq :: (payload ++ checksum)) =
      if flag = 0 then .data seq payload checksum
      else if flag = 1 then .ack seq payload checksum
      else .reservedAckflag flag seq payload checksum := by
  have hlen : ¬(flag :: seq :: (payload ++ checksum)).length < 2 + c.checksumBytes := by simp; omega
  have hcut : (payload ++ checksum).length - c.checksumBytes = payload.length := by simp; omega
  rw [classifyBody, if_neg hlen, hcut, List.take_left, List.drop_left]

/-- A body of at least `2 + W` bytes is a header, a payload and a checksum block. -/
theorem exists_body_fields {c : Cfg} {raw : Bytes} (h : 2 + c.checksumBytes ≤ raw.length) :
    ∃ flag seq payload checksum, raw = flag :: seq :: (payload ++ checksum) ∧ checksum.length = c.checksumBytes := by
  obtain _ | ⟨flag, _ | ⟨seq, t⟩⟩ := raw
  · simp at h
  · simp at h; omega
  · simp only [List.length_cons] at h
    exact ⟨flag, seq, t.take (t.length - c.checksumBytes), t.drop (t.length - c.checksumBytes), by simp, by simp; omega⟩

/-- Everything a body can be classified as: one too short for a header, or one of the three frame types, with the
fields it is made of. -/
theorem classifyBody_cases (c : Cfg) (raw : Bytes) :
    (raw.length < 2 + c.checksumBytes ∧ classifyBody c raw = .onFrameReceived raw) ∨
    ∃ flag seq payload checksum,
      raw = flag :: seq :: (payload ++ checksum) ∧ checksum.length = c.checksumBytes ∧
        ((flag = 0 ∧ classifyBody c raw = .data seq payload checksum) ∨
          (flag = 1 ∧ classifyBody c raw = .ack seq payload checksum) ∨
          (2 ≤ flag.toNat ∧ classifyBody c raw = .reservedAckflag flag seq payload checksum)) := by
  by_cases hshort : raw.length < 2 + c.checksumBytes
  · exact .inl ⟨hshort, if_pos hshort⟩
  obtain ⟨flag, seq, payload, checksum, rfl, hlen⟩ := exists_body_fields (not_lt.1 hshort)
  refine .inr ⟨flag, seq, payload, checksum, rfl, hlen, ?_⟩
  rw [classifyBody_cons flag seq payload hlen]
  by_cases hzero : flag = 0
  · exact .inl ⟨hzero, if_pos hzero⟩
  by_cases hone : flag = 1
  · exact .inr (.inl ⟨hone, by rw [if_neg hzero, if_pos hone]⟩)
  · exact .inr (.inr ⟨by bv_omega, by rw [if_neg hzero, if_neg hone]⟩)

/-! ## The decoder and the encoder -/

/-- Settles O55, layer by layer: commands by their operands, bytes by their class, bodies by their fields. -/
theorem decodeEncodeRoundTrip : Obligations.DecodeEncodeRoundTrip := by
  intro c i hwf
  cases i with
  | reset | send | cycle | parity | crcRemainder | appendChecksum | verify | encode | tryDecode | submit
  | onFrameReceived | onTick => exact decode_encode_command hwf rfl
  | start => simp [encode, decode, classifyByte]
  | stop =>
    obtain ⟨hstop, -, -⟩ := Machine.Cfg.reservedDistinct_iff.1 hwf
    simp [encode, decode, classifyByte, hstop.symm]
  | escape =>
    obtain ⟨-, hstart, hstop⟩ := Machine.Cfg.reservedDistinct_iff.1 hwf
    simp [encode, decode, classifyByte, hstart.symm, hstop.symm]
  | literal b =>
    have hres : c.isReserved b = false := by simpa [Instr.wf] using hwf
    simp [encode, decode, classifyByte_of_not_reserved hres]
  | data seq payload checksum =>
    have hlen : checksum.length = c.checksumBytes := by simpa [Instr.wf] using hwf
    simp [encode, decode, classifyBody_cons _ seq payload hlen]
  | ack seq payload checksum =>
    have hlen : checksum.length = c.checksumBytes := by simpa [Instr.wf] using hwf
    simp [encode, decode, classifyBody_cons _ seq payload hlen]
  | reservedAckflag flag seq payload checksum =>
    obtain ⟨hflag, hlen⟩ : 2 ≤ flag.toNat ∧ checksum.length = c.checksumBytes := by simpa [Instr.wf] using hwf
    have hzero : flag ≠ 0 := by rintro rfl; simp at hflag
    have hone : flag ≠ 1 := by rintro rfl; simp at hflag
    rw [encode, decode, classifyBody_cons flag seq payload hlen, if_neg hzero, if_neg hone]
  | dataframe | ackframe => rfl

/-- Settles O57: a byte has one class and a body one split into fields, from which the encoder puts it together. -/
theorem wireEncodingsAreUnique : Obligations.WireEncodingsAreUnique := by
  intro c r i hport hlong h
  cases r with
  | command bytes => exact absurd rfl (hport bytes)
  | wire b =>
    cases h
    rcases classifyByte_cases c b with ⟨rfl, h⟩ | ⟨rfl, h⟩ | ⟨rfl, h⟩ | ⟨-, h⟩ <;> rw [h] <;> rfl
  | body raw =>
    cases h
    rcases classifyBody_cases c raw with ⟨hshort, -⟩ | ⟨flag, seq, payload, checksum, rfl, -, hrow⟩
    · exact absurd (hlong raw rfl) (not_le.2 hshort)
    · rcases hrow with ⟨rfl, h⟩ | ⟨rfl, h⟩ | ⟨-, h⟩ <;> rw [h] <;> rfl
  | buildData | buildAck => cases h; rfl

/-! ## What the decoder yields -/

theorem takeBytes_length {n : Nat} {bs x r : Bytes} (h : takeBytes n bs = some (x, r)) : x.length = n := by
  unfold takeBytes at h
  split at h
  · cases h
  · cases h
    simp; omega

/-- A byte sequence read with `extra` has at least that many bytes. -/
theorem le_length_of_bytesDecode {extra : Nat} {bs x r : Bytes} (h : bytesDecode extra bs = some (x, r)) :
    extra ≤ x.length := by
  unfold bytesDecode at h
  split at h
  · cases h
  · rw [takeBytes_length h]; omega

/-- A width read is positive or unbounded. -/
theorem ne_zero_of_widthDecode {bs r : Bytes} {w : Option Nat} (h : widthDecode bs = some (w, r)) : w ≠ some 0 := by
  unfold widthDecode at h
  split at h <;> cases h <;> simp

theorem timeW_of_cfgDecode {bs r : Bytes} {cfg : Cfg} (h : cfgDecode bs = some (cfg, r)) : cfg.timeW ≠ some 0 := by
  unfold cfgDecode at h
  split at h
  · simp only [Option.bind_eq_bind, Option.bind_eq_some_iff, Option.some.injEq, Prod.mk.injEq, Prod.exists] at h
    obtain ⟨_, -, _, _, -, _, _, -, _, _, -, w, _, hwidth, _, _, -, _, _, -, _, _, -, rfl, -⟩ := h
    exact ne_zero_of_widthDecode hwidth
  · cases h

/-- The operands of a command are in their ranges: `TIME_W` as a width, the bytes of APPEND_CHECKSUM at least one. -/
theorem wf_of_operandsDecode {op : Nat} {t r : Bytes} {i : Instr} (h : operandsDecode op t = some (i, r)) (c : Cfg) :
    i.wf c = true := by
  unfold operandsDecode at h
  split at h <;>
    simp only [Option.bind_eq_bind, Option.bind_eq_some_iff, Option.some.injEq, Prod.mk.injEq, Prod.exists,
      reduceCtorEq] at h
  case h_1 => -- RESET
    obtain ⟨cfg, _, hcfg, rfl, -⟩ := h
    simpa [Instr.wf] using timeW_of_cfgDecode hcfg
  case h_6 => -- APPEND_CHECKSUM
    obtain ⟨bytes, _, hbytes, rfl, -⟩ := h
    have hlen := le_length_of_bytesDecode hbytes
    simpa [Instr.wf] using List.length_pos_iff.1 hlen
  case h_3 | h_5 | h_10 => -- two operands: CYCLE, CRC_REMAINDER, SUBMIT
    obtain ⟨_, _, -, _, _, -, rfl, -⟩ := h
    rfl
  case h_9 => -- none: TRY_DECODE
    obtain ⟨rfl, -⟩ := h
    rfl
  all_goals -- one
    obtain ⟨_, _, -, rfl, -⟩ := h
    rfl

theorem wf_of_decodeCommand {bytes r : Bytes} {i : Instr} (h : decodeCommand bytes = .ok (i, r)) (c : Cfg) :
    i.wf c = true := by
  cases bytes with
  | nil => cases h
  | cons op t =>
    obtain ⟨-, hoperands⟩ := decodeCommand_eq_ok.1 h
    exact wf_of_operandsDecode hoperands c

theorem wf_classifyByte {c : Cfg} (h : c.reservedDistinct = true) (b : Byte) : (classifyByte c b).wf c = true := by
  rcases classifyByte_cases c b with ⟨-, hrow⟩ | ⟨-, hrow⟩ | ⟨-, hrow⟩ | ⟨hb, hrow⟩
  · rw [hrow]; exact h
  · rw [hrow]; exact h
  · rw [hrow]; exact h
  · rw [hrow]; simpa [Instr.wf] using hb

theorem wf_classifyBody (c : Cfg) (raw : Bytes) : (classifyBody c raw).wf c = true := by
  rcases classifyBody_cases c raw with ⟨-, hrow⟩ | ⟨flag, seq, payload, checksum, -, hlen, hrow⟩
  · rw [hrow]; rfl
  · rcases hrow with ⟨-, hrow⟩ | ⟨-, hrow⟩ | ⟨hflag, hrow⟩
    · rw [hrow]; simpa [Instr.wf] using hlen
    · rw [hrow]; simpa [Instr.wf] using hlen
    · rw [hrow]; simpa [Instr.wf] using And.intro hflag hlen

/-- Settles O56, layer by layer. -/
theorem decoderYieldsWellFormed : Obligations.DecoderYieldsWellFormed := by
  intro c r i hdistinct h
  cases r with
  | command bytes => exact wf_of_decodeCommand (decode_command_eq_ok.1 h) c
  | wire b => cases h; exact wf_classifyByte hdistinct b
  | body raw => cases h; exact wf_classifyBody c raw
  | buildData | buildAck => cases h; rfl

/-- Settles O59: each word by evaluation. -/
theorem decodedWordsFromSpec : Obligations.DecodedWordsFromSpec := by
  refine ⟨rfl, rfl, rfl, rfl, rfl, rfl, rfl, ?_, ?_, ?_⟩
  · decide
  · decide
  · decide

end Sys2Proof

namespace Sys2Proof.Machine

/-! ## The frame rows (R80; log entry 16) -/

/-- Settles O31: each of the three frame types is ON_FRAME_RECEIVED of the fields the body was split into. -/
theorem frameRowsAreBodies : Obligations.FrameRowsAreBodies := by
  intro raw s
  rcases classifyBody_cases s.cfg raw with ⟨-, h⟩ | ⟨flag, seq, payload, checksum, rfl, -, hrow⟩
  · rw [h]
  · rcases hrow with ⟨rfl, h⟩ | ⟨rfl, h⟩ | ⟨-, h⟩ <;> rw [h] <;> rfl

/-! ## One step -/

theorem fetch_of_inbox_cons {s : State} {r : Request} {rest : List Request} (h : s.inbox = r :: rest) :
    s.fetch = some (r, { s with inbox := rest }) := by
  rw [State.fetch, h]

theorem step_of_decode_error {s : State} {r : Request} {rest : List Request} {e : DecodeError}
    (hin : s.inbox = r :: rest) (h : decode s.cfg r = .error e) : step s = .fault (.undecodable e) := by
  simp only [step, fetch_of_inbox_cons hin, h]

/-- Settles O58, by what the inbox holds and what the decoder answers. -/
theorem stepRunsDecodedRequest : Obligations.StepRunsDecodedRequest := by
  refine ⟨fun s hin => ?_, fun s r rest i hin h => ?_, fun s r rest e hin h => step_of_decode_error hin h⟩
  · simp only [step, State.fetch, hin]
  · simp only [step, fetch_of_inbox_cons hin, h]

/-- Settles O60: the decoder refuses the number before it reads an operand. -/
theorem undefinedOperationNumbersStop : Obligations.UndefinedOperationNumbersStop := by
  intro s number operands rest hnumber hin
  refine step_of_decode_error hin ?_
  simp only [decode, decodeCommand, hnumber, if_true]

end Sys2Proof.Machine
end

