-- ==== Sys2Proof/Proofs/WireBytes.lean ====
section
/-! PROOFS. Spec/30_encoding.md R71 and spec/41_framer.md R127: the byte rows (log entry 15). -/

namespace Sys2Proof.Machine

/-! ## A byte row is one TRY_DECODE -/

/-- A byte that fits in the buffer is appended, and TRY_DECODE is called. -/
theorem byteArrives_of_fits {s : State} {b : Byte} (h : fits s.cfg.rxbufCap (s.rxbuf.length + 1) = true) :
    s.byteArrives b = .ok ({ s with rxbuf := s.rxbuf ++ [b] } : State).tryDecode :=
  byteArrives_eq_ok.2 ⟨_, bufAppend_eq_ok.2 ⟨h, rfl⟩, rfl⟩

/-- Settles O27: while faulted both sides are refused, and else both are one TRY_DECODE. -/
theorem wireByteAppendsThenScans : Obligations.WireByteAppendsThenScans := by
  intro i b s hrow hfits
  rcases Bool.eq_false_or_eq_true s.fault with hf | hf
  · have hi : ∀ cfg, i ≠ .reset cfg := by rcases hrow with ⟨rfl, -⟩ | ⟨rfl, -⟩ | ⟨rfl, -⟩ | rfl <;> simp
    rw [exec_faulted hi hf, exec_faulted (by simp) (by exact hf)]
  · have harrives : exec i s = answer (s.begin.byteArrives b) := by
      rcases hrow with ⟨rfl, rfl⟩ | ⟨rfl, rfl⟩ | ⟨rfl, rfl⟩ | rfl
      · exact exec_start hf
      · exact exec_stop hf
      · exact exec_escape hf
      · exact exec_literal hf b
    rw [harrives, byteArrives_of_fits (s := s.begin) hfits, exec_tryDecode (by exact hf)]
    rfl

/-! ## One byte more on a settled buffer (R127) -/

/-- A stream that completes no frame only leads to what its counts and its last state are worth. -/
theorem framesReported_append {c : Cfg} {first : Bytes} {m : Stream} {g r g' r' : Nat}
    (h : framesReported c m g r first = ([], (g', r'))) (second : Bytes) :
    framesReported c m g r (first ++ second) = framesReported c (streamRun c m first).1 g' r' second := by
  induction first generalizing m g r with
  | nil =>
    simp only [framesReported, Prod.mk.injEq, true_and] at h
    obtain ⟨rfl, rfl⟩ := h
    rfl
  | cons b t ih =>
    rw [framesReported] at h
    rw [List.cons_append, framesReported, streamRun_cons]
    generalize streamByte c m b = step at h ⊢
    obtain ⟨next, _ | body⟩ := step
    · exact ih h
    · simp at h

/-- What the machine reports of one byte. -/
theorem framesReported_byte (c : Cfg) (m : Stream) (g r : Nat) (b : Byte) :
    framesReported c m g r [b] =
      (streamByte c m b).2.elim ([], (g + m.garbage c b, r + m.resyncs c b))
        fun body => ([⟨g + m.garbage c b, r + m.resyncs c b, body⟩], (0, 0)) := by
  rw [framesReported]
  rcases streamByte c m b with ⟨next, _ | body⟩
  · rfl
  · rfl

/-- One call of TRY_DECODE on a settled buffer and a byte more gives up what the machine gives up at that byte, and
finds the frame the machine then emits. -/
theorem scan_settled_snoc {c : Cfg} (hc : c.reservedDistinct = true) {buf : Bytes} (hs : settled c buf) (b : Byte)
    {before : Stream} (hbefore : (streamRun c .hunt buf).1 = before) :
    (scan c (buf ++ [b])).garbage = before.garbage c b ∧ (scan c (buf ++ [b])).resyncs = before.resyncs c b ∧
      (scan c (buf ++ [b])).frame = (streamByte c before b).2 := by
  have hquiet : framesReported c .hunt 0 0 buf = ([], (0, 0)) := by rw [scan_reports, scan_settled hc hs]
  have hreports := scan_reports c (buf ++ [b])
  rw [framesReported_append hquiet, hbefore, framesReported_byte] at hreports
  generalize scan c (buf ++ [b]) = call at hreports ⊢
  generalize (streamByte c before b).2 = emitted at hreports ⊢
  obtain ⟨garbage, resyncs, found, rest⟩ := call
  cases emitted with
  | none =>
    cases found with
    | none => simpa [eq_comm] using hreports
    | some body => simp at hreports
  | some body =>
    cases found with
    | none => simp at hreports
    | some body' =>
      simp only [Option.elim_some, Nat.zero_add, Prod.mk.injEq, List.cons.injEq, Framed.mk.injEq] at hreports
      obtain ⟨⟨⟨rfl, rfl, rfl⟩, -⟩, -⟩ := hreports
      exact ⟨rfl, rfl, rfl⟩

/-- Whatever a call of TRY_DECODE takes, the machine reaches the same state over what it leaves. -/
theorem streamRun_scan_rest (c : Cfg) (buf : Bytes) :
    (streamRun c .hunt (scan c buf).rest).1 = (streamRun c .hunt buf).1 := by
  cases hframe : (scan c buf).frame with
  | none =>
    obtain ⟨-, -, hrun, -⟩ := scan_none _ _ hframe
    rw [hrun]
  | some body =>
    obtain ⟨pre, hpre, -, hrun, -⟩ := scan_frame _ _ _ hframe
    conv_rhs => rw [hpre, streamRun_append, hrun]

/-- An unescaped `START` inside a frame, once the reserved bytes differ. -/
theorem resyncs_collect_of_distinct {c : Cfg} (hc : c.reservedDistinct = true) (acc : Bytes) (b : Byte) :
    Stream.resyncs c (.collect acc) b = if b = c.start then 1 else 0 := by
  obtain ⟨hstop, hescape, -⟩ := Cfg.reservedDistinct_iff.1 hc
  rw [Stream.resyncs_collect]
  refine if_congr ⟨fun h => h.2.2, ?_⟩ rfl rfl
  rintro rfl
  exact ⟨hescape, hstop, rfl⟩

/-- Settles O28: the row is one call of TRY_DECODE on the settled buffer and the byte. -/
theorem wireByteIsOneStreamTransition : Obligations.WireByteIsOneStreamTransition := by
  intro i b s hrow hf hc hsettled hfits
  have hrow' : i = .start ∧ b = s.cfg.start ∨ i = .stop ∧ b = s.cfg.stop ∨ i = .escape ∧ b = s.cfg.escape ∨
      i = .literal b := hrow.imp_right (Or.imp_right (Or.imp_right And.left))
  have hexec := wireByteAppendsThenScans i b s hrow' hfits
  rw [exec_tryDecode (by exact hf), State.tryDecode_eq] at hexec
  refine ⟨_, hexec, rfl, settled_scan_snoc hc hsettled b, ?_⟩
  intro before
  obtain ⟨hgarbage, hresyncs, hframe⟩ := scan_settled_snoc hc hsettled b (before := before) rfl
  refine ⟨?_, ?_, ?_⟩
  · refine (streamRun_scan_rest _ _).trans ?_
    rw [State.begin_rxbuf, streamRun_append]
    rfl
  · rw [← hframe]
    rfl
  · rw [scanEvents_eq]
    change framingEvents (scan s.cfg (s.rxbuf ++ [b])).garbage (scan s.cfg (s.rxbuf ++ [b])).resyncs = _
    rw [hgarbage, hresyncs]
    cases before with
    | hunt => by_cases hb : b = s.cfg.escape ∨ b = s.cfg.start <;> simp [framingEvents, hb]
    | huntEsc => rfl
    | collect acc =>
      rw [resyncs_collect_of_distinct hc]
      by_cases hb : b = s.cfg.start <;> simp [framingEvents, hb]
    | collectEsc acc => rfl

end Sys2Proof.Machine
end

