-- ==== Sys2Proof/Proofs/Cycle.lean ====
section
/-! PROOFS. Spec/43_endpoint.md: the four phases of CYCLE (R172 to R177), and a cycle that finds nothing to do
(spec/70_reset_and_hazards.md R221, R224). -/

namespace Sys2Proof.Machine

/-! ## The phases, one by one -/

/-- Phase 1, with time not running backward: the pending frame again once more than `T` has passed (R151, R173). -/
theorem onTick_of_forward {s : State} {now : Nat}
    (h : s.sendState = .awaitingAck → timeBackward s.cfg now s.pendingTimestamp = false) :
    s.onTick now = .ok (
      if s.sendState = .awaitingAck ∧ s.cfg.timeout < elapsed s.cfg now s.pendingTimestamp then
        { s with
          tx := s.tx ++ s.pendingFrame
          pendingTimestamp := timeOperand s.cfg now
          events := s.events ++ [.txRetx s.currentSendSeq] }
      else s) := by
  cases hs : s.sendState with
  | idle => simp [onTick_idle hs]
  | awaitingAck =>
    rw [onTick_awaiting hs, h hs]
    by_cases hlate : s.cfg.timeout < elapsed s.cfg now s.pendingTimestamp <;> simp [hlate, hs]

/-- Phase 3 on a settled buffer finds no frame and gives nothing up. -/
theorem phase3_settled {s : State} (hc : s.cfg.reservedDistinct = true) (h : settled s.cfg s.rxbuf) :
    s.phase3 = { s with result := .incomplete } := by
  have hscan := scan_settled hc h
  rw [State.phase3, decodeLoop, State.tryDecode_eq, hscan]
  simp [scanEvents, scanResult]

/-- Phase 3 with every event in its place, the frames told by the streaming machine (R175, R177). -/
theorem phase3_filled (s : State) (buf : Bytes) :
    let reported := framesReported s.cfg .hunt 0 0 buf
    ∃ rest, State.phase3 { s with rxbuf := buf } =
        { (reported.1.foldl State.receives s).reports reported.2.1 reported.2.2 with
          rxbuf := rest
          result := .incomplete } ∧
      settled s.cfg rest ∧ (∃ taken, buf = taken ++ rest) ∧
      streamRun s.cfg .hunt rest = ((streamRun s.cfg .hunt buf).1, []) :=
  decodeLoop_reports _ s buf s.result (Nat.lt_succ_self _)

/-- The frames of phase 3 leave the configuration, and the queue to phase 4. -/
theorem foldl_receives_frame (frames : List Framed) (s : State) :
    (frames.foldl State.receives s).cfg = s.cfg ∧ (frames.foldl State.receives s).txq = s.txq := by
  induction frames generalizing s with
  | nil => exact ⟨rfl, rfl⟩
  | cons f frames ih =>
    obtain ⟨hcfg, htxq⟩ := ih (s.receives f)
    exact ⟨hcfg.trans (onFrameReceived_cfg _ _), htxq.trans (onFrameReceived_txq _ _)⟩

/-- Phase 4 with a payload queued and the sender Idle: the head is popped, and its frame transmitted (R141, R176). -/
theorem phase4_transmits {s : State} {p : Bytes} {rest : List Bytes} (hq : s.txq = p :: rest)
    (hidle : s.sendState = .idle) (now : Nat) :
    s.phase4 now = { s with
      txq := rest
      tx := s.tx ++ dataFrame s.cfg s.currentSendSeq p
      events := s.events ++ [.txData s.currentSendSeq]
      pendingFrame := dataFrame s.cfg s.currentSendSeq p
      pendingTimestamp := timeOperand s.cfg now
      sendState := .awaitingAck
      result := .sent } := by
  rw [phase4_start hq hidle, submit_idle (s := s.qPop) hidle]
  simp [hq]

/-- Phase 4 with nothing queued, or with a frame outstanding. -/
theorem phase4_stays {s : State} (h : s.txq = [] ∨ s.sendState = .awaitingAck) (now : Nat) : s.phase4 now = s := by
  rcases phase4_cases s now with ⟨p, q, hq, hidle, -⟩ | ⟨-, hstay⟩
  · simp [hq, hidle] at h
  · exact hstay

/-- Settles O46: the timer is not running, phase 3 finds nothing and the queue is empty. -/
theorem quietCycleChangesNothing : Obligations.QuietCycleChangesNothing := by
  intro now s hf hidle hempty hsettled hc hfits hlast
  have htick : s.begin.onTick now = .ok s.begin := onTick_idle (s := s.begin) hidle now
  have hfilled : ({ s.begin with rxbuf := s.begin.rxbuf ++ [] } : State) = s.begin := by rw [List.append_nil]
  rw [exec_cycle_next hf hlast htick (by simpa using hfits), hfilled, phase3_settled (s := s.begin) hc hsettled,
    phase4_of_txq_nil (by exact hempty)]

/-- CYCLE from a timer check that has gone through to phase 4: `ticked` receives the frames that the machine reports
over `rxbuf ++ rx`, and is told of what is given up after the last (R172 to R175). -/
theorem exec_cycle_receives {s ticked handled : State} {now : Nat} {rx : Bytes} {reported : List Framed × (Nat × Nat)}
    (hf : s.fault = false) (hlast : s.cfg.timeW = none → s.lastNow ≤ now) (htick : s.begin.onTick now = .ok ticked)
    (hfits : fits s.cfg.rxbufCap (s.rxbuf.length + rx.length) = true)
    (hreported : framesReported s.cfg .hunt 0 0 (s.rxbuf ++ rx) = reported)
    (hhandled : (reported.1.foldl State.receives ticked).reports reported.2.1 reported.2.2 = handled) :
    handled.cfg = s.cfg ∧ handled.txq = s.txq ∧ ∃ buffer,
      exec (.cycle now rx) s = .next
        { State.phase4 { handled with rxbuf := buffer, result := .incomplete } now with
          lastNow := timeOperand s.cfg now
          result := .outputs } ∧
      settled s.cfg buffer ∧ (∃ taken, s.rxbuf ++ rx = taken ++ buffer) ∧
      streamRun s.cfg .hunt buffer = ((streamRun s.cfg .hunt (s.rxbuf ++ rx)).1, []) := by
  have hframe := onTick_frame htick
  have hcfg : ticked.cfg = s.cfg := by rw [hframe]; rfl
  have hbuf : ticked.rxbuf = s.rxbuf := by rw [hframe]; rfl
  have htxq : ticked.txq = s.txq := by rw [hframe]; rfl
  obtain ⟨hcfg', htxq'⟩ := foldl_receives_frame reported.1 ticked
  obtain ⟨buffer, hphase3, hsettled, hsuffix, hrun⟩ := phase3_filled ticked (s.rxbuf ++ rx)
  rw [← hcfg] at hreported
  rw [hreported, hhandled] at hphase3
  rw [hcfg] at hsettled hrun
  rw [exec_cycle_next hf hlast htick (by rw [hcfg, hbuf]; exact hfits), hbuf, hphase3, ← hhandled]
  exact ⟨hcfg'.trans hcfg, htxq'.trans htxq, buffer, rfl, hsettled, hsuffix, hrun⟩

/-- Settles O45: the timer check goes through, phase 3 is `exec_cycle_receives`, and phase 4 goes by what is queued and
whether the sender is then Idle. -/
theorem cycleRunsFourPhases : Obligations.CycleRunsFourPhases := by
  intro now rx s hf htime hfits ticked reported handled started
  have htick : s.begin.onTick now = .ok ticked :=
    onTick_of_forward (s := s.begin) fun hawait => timeBackward_eq_false fun hnone => (htime hnone).2 hawait
  obtain ⟨hcfg, hqueue, buffer, hexec, hbuffer⟩ := exec_cycle_receives (reported := reported) (handled := handled) hf
    (fun hnone => (htime hnone).1) htick hfits rfl rfl
  refine ⟨buffer, hexec.trans ?_, framesReported_bodies _ _ _ _ _, hbuffer⟩
  have hstate : handled.sendState = .idle ∨ handled.sendState = .awaitingAck := by cases handled.sendState <;> simp
  cases hq : s.txq with
  | nil =>
    rw [phase4_stays (by exact .inl (hqueue.trans hq))]
    simp only [started, hq]
  | cons payload rest =>
    rcases hstate with hs | hs
    · rw [phase4_transmits (by exact hqueue.trans hq) (by exact hs)]
      simp only [started, hq, hs, hcfg]
    · rw [phase4_stays (by exact .inr hs)]
      simp only [started, hq, hs]

end Sys2Proof.Machine
end

