-- ==== Sys2Proof/Proofs/Refusals.lean ====
section
/-! PROOFS. Spec/60_exceptions.md R205: the refusals, instruction by instruction; and two operations that always
complete, RESET of a configuration that can be held (spec/10_state.md R35) and CRC_REMAINDER of a short generator
(spec/40_codec.md R102). -/

namespace Sys2Proof.Machine

/-! ## What each operation refuses -/

theorem exec_reset_eq_refused {cfg : Cfg} {s : State} {r : Refusal} :
    exec (.reset cfg) s = .refused r ↔ fits s.degMax (deg cfg.g).toNat = false ∧ r = .cfgNotExpressible := by
  simp only [exec, execReset]
  split <;> rename_i hfits
  · simp [hfits]
  · simp [hfits, eq_comm]

theorem send_eq_error {s : State} {p : Bytes} {r : Refusal} :
    s.send p = .error r ↔ fits s.cfg.maxPayload p.length = false ∧ r = .payloadTooLong := by
  cases hfits : fits s.cfg.maxPayload p.length with
  | false => simp [send_tooLong hfits, eq_comm]
  | true =>
    cases hfull : s.txqFull with
    | false => simp [send_queued hfits hfull]
    | true => simp [send_full hfits hfull]

theorem submitChecked_eq_error {s : State} {p : Bytes} {now : Nat} {r : Refusal} :
    s.submitChecked p now = .error r ↔
      s.sendState = .idle ∧ fits s.cfg.maxPayload p.length = false ∧ r = .payloadTooLong := by
  unfold State.submitChecked
  split <;> rename_i h
  · simp [h, eq_comm]
  · simp only [reduceCtorEq, false_iff]
    exact fun ⟨hidle, hlong, _⟩ => h ⟨hidle, hlong⟩

theorem byteArrives_eq_error {s : State} {b : Byte} {r : Refusal} :
    s.byteArrives b = .error r ↔ fits s.cfg.rxbufCap (s.rxbuf.length + 1) = false ∧ r = .rxbufOverflow := by
  have hfill := bufAppend_eq_error (s := s) (bytes := [b]) (r := r)
  rw [List.length_singleton] at hfill
  rw [← hfill, State.byteArrives]
  cases s.bufAppend [b] with
  | error e => simp
  | ok filled => simp

/-- ON_TICK does not change what phase 2 tests. -/
theorem bufAppend_eq_error_of_onTick {s ticked : State} {now : Nat} (h : s.onTick now = .ok ticked) {rx : Bytes}
    {r : Refusal} : ticked.bufAppend rx = .error r ↔
      fits s.cfg.rxbufCap (s.rxbuf.length + rx.length) = false ∧ r = .rxbufOverflow := by
  rw [bufAppend_eq_error, onTick_frame h]

/-- In unbounded time, `now` lies before the last CYCLE or before the timestamp of the pending frame (R205). -/
def State.late (s : State) (now : Nat) : Prop :=
  s.cfg.timeW = none ∧ (now < s.lastNow ∨ s.sendState = .awaitingAck ∧ now < s.pendingTimestamp)

theorem cycle_of_late {s : State} {now : Nat} (h : s.late now) (rx : Bytes) :
    s.cycle now rx = .error .timeBackward := by
  obtain ⟨hnone, hback⟩ := h
  rw [cycle_eq_error]
  cases hlast : timeBackward s.cfg now s.lastNow with
  | true => exact .inl ⟨rfl, rfl⟩
  | false =>
    rw [← Bool.not_eq_true, timeBackward_iff] at hlast
    obtain ⟨hawait, hts⟩ := hback.resolve_left fun hlt => hlast ⟨hnone, hlt⟩
    exact .inr ⟨rfl, .inl (onTick_eq_error.2 ⟨hawait, timeBackward_iff.2 ⟨hnone, hts⟩, rfl⟩)⟩

theorem cycle_eq_error_of_not_late {s : State} {now : Nat} (h : ¬s.late now) {rx : Bytes} {r : Refusal} :
    s.cycle now rx = .error r ↔
      fits s.cfg.rxbufCap (s.rxbuf.length + rx.length) = false ∧ r = .rxbufOverflow := by
  have hlast : timeBackward s.cfg now s.lastNow = false :=
    timeBackward_eq_false fun hnone => not_lt.1 fun hlt => h ⟨hnone, .inl hlt⟩
  cases hk : s.onTick now with
  | error e =>
    obtain ⟨hawait, hback, -⟩ := onTick_eq_error.1 hk
    obtain ⟨hnone, hts⟩ := timeBackward_iff.1 hback
    exact absurd ⟨hnone, .inr ⟨hawait, hts⟩⟩ h
  | ok ticked => simp [cycle_eq_error, hlast, hk, bufAppend_eq_error_of_onTick hk]

/-- CYCLE is refused for its time, by the last CYCLE or by the pending frame, and else for an overflow (R205). -/
theorem exec_cycle_eq_refused {s : State} (hf : s.fault = false) {now : Nat} {rx : Bytes} {r : Refusal} :
    exec (.cycle now rx) s = .refused r ↔
      if s.cfg.timeW = none ∧ (now < s.lastNow ∨ s.sendState = .awaitingAck ∧ now < s.pendingTimestamp) then
        r = .timeBackward
      else fits s.cfg.rxbufCap (s.rxbuf.length + rx.length) = false ∧ r = .rxbufOverflow := by
  rw [exec_cycle hf, answer_eq_refused]
  split <;> rename_i h
  · rw [cycle_of_late (s := s.begin) h, Except.error.injEq, eq_comm]
  · exact cycle_eq_error_of_not_late (s := s.begin) h

/-- Settles O5: RESET by its own refusal, every other row by the latch, and else by what its meaning refuses; the rows
without a refusal complete. -/
theorem refusalsAreThoseListed : Obligations.RefusalsAreThoseListed := by
  refine fun i s => ⟨fun e => exec_ne_fault, fun r => ?_⟩
  by_cases hi : ∃ cfg, i = .reset cfg
  · obtain ⟨cfg, rfl⟩ := hi
    simp [exec_reset_eq_refused]
  rcases Bool.eq_false_or_eq_true s.fault with hf | hf
  · have hother := not_exists.1 hi
    rw [exec_faulted hother hf]
    constructor
    · rintro ⟨⟩
      exact .inl ⟨hf, hother, rfl⟩
    · rintro (⟨-, -, rfl⟩ | ⟨cfg, h, -⟩ | ⟨h, -⟩)
      · rfl
      · exact absurd h (hother cfg)
      · simp [hf] at h
  cases i with
  | reset cfg => exact absurd ⟨cfg, rfl⟩ hi
  | send p => simp [exec_send hf, answer_eq_refused, send_eq_error, hf]
  | submit p now => simp [exec_submit hf, answer_eq_refused, submitChecked_eq_error, hf]
  | cycle now rx => simp [exec_cycle_eq_refused hf, hf]
  | onTick now =>
    simp [exec_onTick hf, answer_eq_refused, onTick_eq_error, timeBackward_iff, hf, and_left_comm, and_assoc]
  | appendChecksum bytes =>
    cases bytes with
    | nil => simpa [exec_appendChecksum hf, hf] using eq_comm
    | cons b t => simp [exec_appendChecksum hf, hf]
  | start | stop | escape | literal =>
    simp [exec_start hf, exec_stop hf, exec_escape hf, exec_literal hf, answer_eq_refused, byteArrives_eq_error, hf]
  | parity | crcRemainder | verify | encode | tryDecode | onFrameReceived | data | ack | reservedAckflag | dataframe
  | ackframe =>
    simp [exec_parity hf, exec_crcRemainder hf, exec_verify hf, exec_encode hf, exec_tryDecode hf,
      exec_onFrameReceived hf, exec_data hf, exec_ack hf, exec_reservedAckflag hf, exec_dataframe hf,
      exec_ackframe hf, hf]

/-! ## Operations that complete -/

/-- Settles O14: CRC_REMAINDER completes with the value the model gives it, whatever the generator. -/
theorem crcShortGeneratorCompletes : Obligations.CrcShortGeneratorCompletes := fun bytes g _ hf _ =>
  ⟨_, exec_crcRemainder hf bytes g⟩

/-- No CYCLE comes too early where none has been seen and no frame is pending. -/
theorem exec_cycle_ne_timeBackward {s : State} (hidle : s.sendState = .idle) (hlast : s.lastNow = 0) (now : Nat)
    (rx : Bytes) : exec (.cycle now rx) s ≠ .refused .timeBackward := by
  rcases Bool.eq_false_or_eq_true s.fault with hf | hf
  · rw [exec_faulted (by simp) hf]
    simp
  · rw [Ne, exec_cycle_eq_refused hf]
    simp [hidle, hlast]

/-- Settles O1: RESET completes with the values of R35, and a CYCLE right after finds no earlier time. -/
theorem resetLeavesSpecValues : Obligations.ResetLeavesSpecValues := by
  intro cfg s hfits
  refine ⟨_, exec_reset hfits, ?_⟩
  cases cfg.valid with
  | true => exact ⟨rfl, rfl, rfl, rfl, rfl, rfl, rfl, rfl, rfl, rfl, rfl, rfl, rfl, exec_cycle_ne_timeBackward rfl rfl⟩
  | false => exact ⟨rfl, rfl, rfl, rfl, rfl, rfl, rfl, rfl, rfl, rfl, rfl, rfl, rfl, exec_cycle_ne_timeBackward rfl rfl⟩

end Sys2Proof.Machine
end
